-- ==== Sys2Proof/Word.lean ====
section
/-! DEFINITION. The word, byte and address types (spec R7, R9, R11). -/

namespace Sys2Proof

/-- A data word, the spec's `u32` (R9). Addition is modulo 2^32 (R10), which is `BitVec` addition. -/
abbrev Word := BitVec 32

/-- One byte of memory (R50). -/
abbrev Byte := BitVec 8

/-- A byte address; ADDR_W = 32, so address addition `+A` is addition modulo 2^32 (R7, R11). -/
abbrev Addr := BitVec 32

/-- A lane number 0..15 (R72): every lane number is legal. -/
abbrev LaneNo := Fin 16

end Sys2Proof
end

