-- ==== Sys2Proof/Syntax.lean ====
section
/-! DEFINITION. The commands (spec/opcode_table.json, one constructor a row), the fields of a command word (R71), and
the names of what makes a word illegal (R76, R77). -/

namespace Sys2Proof

/-- The three batch strategies (R74). -/
inductive Strategy where
  | scalar
  | vector
  | spmd
deriving DecidableEq, Repr, Inhabited

/-- The commands (R75). A lane operand is a lane number 0..15 (R72); `b` (block index) and `n` (block count) are
unsigned 16-bit numbers (R73). The operand types admit exactly the values an assembler accepts (R80). -/
inductive Instr where
  | hinitL (l : LaneNo)
  | hinitV
  | wloadL (l : LaneNo) (b : BitVec 16)
  | wloadV (b : BitVec 16)
  | wexpandL (l : LaneNo)
  | wexpandV
  | compressL (l : LaneNo)
  | compressV
  | hstoreL (l : LaneNo)
  | hstoreV
  | processScalar (n : BitVec 16)
  | processVector (n : BitVec 16)
  | processSpmd (n : BitVec 16)
  | runScalar
  | runVector
  | runSpmd
  | syncDec
  | syncWait
  | halt
  | idle
deriving DecidableEq, Repr, Inhabited

/-- The six fields of a command word (R71). -/
structure Fields where
  /-- bits 7:0 -/
  op : BitVec 8
  /-- bits 9:8 -/
  strat : BitVec 2
  /-- bit 10 -/
  all : BitVec 1
  /-- bit 11, reserved -/
  res : BitVec 1
  /-- bits 15:12 -/
  lane : BitVec 4
  /-- bits 31:16 -/
  imm : BitVec 16
deriving DecidableEq, Repr

/-- Why a command word is illegal (R76, R77). -/
inductive Reject where
  /-- OP is none of the eleven values of R75. -/
  | unknownOp
  /-- STRAT = 3 in a PROCESS or RUN word. -/
  | strategyReserved
  /-- STRAT is not 0 in a word whose command has no strategy. -/
  | strategyNotZero
  /-- ALL = 1 in a word whose command has no .V form. -/
  | allNotZero
  /-- The reserved bit 11 is set. -/
  | reservedBit
  /-- LANE is not 0 in a word whose command takes no lane. -/
  | laneNotZero
  /-- IMM is not 0 in a word whose command takes no immediate. -/
  | immNotZero
deriving DecidableEq, Repr

/-- What the decoder answers: every word is one legal command or illegal (R79). -/
inductive Decoded where
  | command (i : Instr)
  | illegal (r : Reject)
deriving DecidableEq, Repr

/-- The command, where the word is legal. -/
def Decoded.command? : Decoded → Option Instr
  | .command i => some i
  | .illegal _ => none

end Sys2Proof
end

