-- ==== Sys2Proof/WellFormed.lean ====
section
/-! DEFINITION. The legality of a command word, field by field, in the words of R76. An `Instr` needs no check of its
own: its operand types admit exactly the legal operands. -/

namespace Sys2Proof

/-- The kinds of operation OP selects (R75). -/
inductive OpKind where
  /-- 0x01, 0x03, 0x04, 0x05: a primitive with a lane and no immediate -/
  | lanePrimitive
  /-- 0x02: WLOAD, a primitive with a lane and a block index -/
  | load
  /-- 0x10: PROCESS, a strategy and a block count -/
  | process
  /-- 0x20: RUN, a strategy -/
  | run
  /-- 0x30 to 0x33: no operand -/
  | completion
deriving DecidableEq, Repr

/-- The kind of the operation `op`, none where R75 has no such OP. -/
def opKind (op : BitVec 8) : Option OpKind :=
  if op = 0x01 ∨ op = 0x03 ∨ op = 0x04 ∨ op = 0x05 then some .lanePrimitive
  else if op = 0x02 then some .load
  else if op = 0x10 then some .process
  else if op = 0x20 then some .run
  else if op = 0x30 ∨ op = 0x31 ∨ op = 0x32 ∨ op = 0x33 then some .completion
  else none

/-- STRAT must be 0 where the command has no strategy and must not be 3 where it has one (R71, R74, R76). -/
def Fields.strategyReject (f : Fields) (k : OpKind) : Option Reject :=
  match k with
  | .process | .run => if f.strat = 3 then some .strategyReserved else none
  | _ => if f.strat = 0 then none else some .strategyNotZero

/-- ALL may be 1 in the primitives only (R71, R76). -/
def Fields.allReject (f : Fields) (k : OpKind) : Option Reject :=
  match k with
  | .lanePrimitive | .load => none
  | _ => if f.all = 0 then none else some .allNotZero

/-- Bit 11 must be 0 (R71, R76). -/
def Fields.reservedReject (f : Fields) : Option Reject :=
  if f.res = 0 then none else some .reservedBit

/-- LANE is free in the .L primitives and must be 0 elsewhere (R71, R72, R76). -/
def Fields.laneReject (f : Fields) (k : OpKind) : Option Reject :=
  match k with
  | .lanePrimitive | .load => if f.all = 0 ∨ f.lane = 0 then none else some .laneNotZero
  | _ => if f.lane = 0 then none else some .laneNotZero

/-- IMM is free in WLOAD and PROCESS and must be 0 elsewhere (R71, R73, R76). -/
def Fields.immReject (f : Fields) (k : OpKind) : Option Reject :=
  match k with
  | .load | .process => none
  | _ => if f.imm = 0 then none else some .immNotZero

/-- The first check that fails, none where the word is legal (R76). -/
def Fields.reject (f : Fields) : Option Reject :=
  match opKind f.op with
  | none => some .unknownOp
  | some k =>
    (f.strategyReject k).or <| (f.allReject k).or <| f.reservedReject.or <| (f.laneReject k).or (f.immReject k)

/-- The word is legal (R76). -/
def Fields.wellFormed (f : Fields) : Bool := f.reject.isNone

end Sys2Proof
end

