-- ==== Sys2Proof/Decode.lean ====
section
/-! DEFINITION. The decoder, total on every 32-bit word and rejecting by name (R76, R77, R79), then the encoder and the
rows of spec/opcode_table.json, which legality is also stated by. -/

namespace Sys2Proof

/-- The fields of a command word (R71). -/
def fieldsOf (w : Word) : Fields where
  op := w.extractLsb' 0 8
  strat := w.extractLsb' 8 2
  all := w.extractLsb' 10 1
  res := w.extractLsb' 11 1
  lane := w.extractLsb' 12 4
  imm := w.extractLsb' 16 16

/-- The word with the given fields (R71). -/
def wordOf (f : Fields) : Word :=
  f.imm ++ f.lane ++ f.res ++ f.all ++ f.strat ++ f.op

/-- The lane operand (R72). -/
def Fields.laneNo (f : Fields) : LaneNo := f.lane.toFin

/-- The .L or the .V form of a primitive (R71, R75). -/
def Fields.form (f : Fields) (one : LaneNo → Instr) (every : Instr) : Instr :=
  if f.all = 0 then one f.laneNo else every

/-- The form of a PROCESS or RUN that STRAT selects (R74). -/
def Fields.byStrategy (f : Fields) (scalar vector spmd : Instr) : Instr :=
  if f.strat = 0 then scalar else if f.strat = 1 then vector else spmd

/-- The command that legal fields stand for (R75). -/
def Fields.toInstr (f : Fields) : Instr :=
  if f.op = 0x01 then f.form .hinitL .hinitV
  else if f.op = 0x02 then f.form (.wloadL · f.imm) (.wloadV f.imm)
  else if f.op = 0x03 then f.form .wexpandL .wexpandV
  else if f.op = 0x04 then f.form .compressL .compressV
  else if f.op = 0x05 then f.form .hstoreL .hstoreV
  else if f.op = 0x10 then f.byStrategy (.processScalar f.imm) (.processVector f.imm) (.processSpmd f.imm)
  else if f.op = 0x20 then f.byStrategy .runScalar .runVector .runSpmd
  else if f.op = 0x30 then .syncDec
  else if f.op = 0x31 then .syncWait
  else if f.op = 0x32 then .halt
  else .idle

/-- The decoder (R76, R77, R79). -/
def decode (w : Word) : Decoded :=
  match (fieldsOf w).reject with
  | some r => .illegal r
  | none => .command (fieldsOf w).toInstr

/-- The command word whose bits are `w` as spec/opcode_table.json numbers them, bits from `nbits` up being 0. A command is
one 32-bit word written to CMD whole (R70), so no byte order enters. -/
def tableWord (nbits w : Nat) : Word := BitVec.ofNat 32 (w % 2 ^ nbits)

/-- The host's question: the instruction the decoder reads from those bits. -/
def decodeTableWord (nbits w : Nat) : Option Instr := (decode (tableWord nbits w)).command?

/-- Fields of a primitive's .L form (R71). -/
def Fields.ofLane (op : BitVec 8) (l : LaneNo) (imm : BitVec 16) : Fields :=
  { op, strat := 0, all := 0, res := 0, lane := BitVec.ofFin l, imm }

/-- Fields of a primitive's .V form (R71). -/
def Fields.ofEvery (op : BitVec 8) (imm : BitVec 16) : Fields :=
  { op, strat := 0, all := 1, res := 0, lane := 0, imm }

/-- Fields of a PROCESS or RUN (R71, R74). -/
def Fields.ofStrategy (op : BitVec 8) (strat : BitVec 2) (imm : BitVec 16) : Fields :=
  { op, strat, all := 0, res := 0, lane := 0, imm }

/-- The fields of each command (R75, R80). -/
def Instr.fields : Instr → Fields
  | .hinitL l => .ofLane 0x01 l 0
  | .hinitV => .ofEvery 0x01 0
  | .wloadL l b => .ofLane 0x02 l b
  | .wloadV b => .ofEvery 0x02 b
  | .wexpandL l => .ofLane 0x03 l 0
  | .wexpandV => .ofEvery 0x03 0
  | .compressL l => .ofLane 0x04 l 0
  | .compressV => .ofEvery 0x04 0
  | .hstoreL l => .ofLane 0x05 l 0
  | .hstoreV => .ofEvery 0x05 0
  | .processScalar n => .ofStrategy 0x10 0 n
  | .processVector n => .ofStrategy 0x10 1 n
  | .processSpmd n => .ofStrategy 0x10 2 n
  | .runScalar => .ofStrategy 0x20 0 0
  | .runVector => .ofStrategy 0x20 1 0
  | .runSpmd => .ofStrategy 0x20 2 0
  | .syncDec => .ofStrategy 0x30 0 0
  | .syncWait => .ofStrategy 0x31 0 0
  | .halt => .ofStrategy 0x32 0 0
  | .idle => .ofStrategy 0x33 0 0

/-- The command word of each command (R75, R80). -/
def encode (i : Instr) : Word := wordOf i.fields

/-- The mnemonic of each command (R75). -/
def Instr.mnemonic : Instr → String
  | .hinitL _ => "HINIT.L"
  | .hinitV => "HINIT.V"
  | .wloadL _ _ => "WLOAD.L"
  | .wloadV _ => "WLOAD.V"
  | .wexpandL _ => "WEXPAND.L"
  | .wexpandV => "WEXPAND.V"
  | .compressL _ => "COMPRESS.L"
  | .compressV => "COMPRESS.V"
  | .hstoreL _ => "HSTORE.L"
  | .hstoreV => "HSTORE.V"
  | .processScalar _ => "PROCESS.SCALAR"
  | .processVector _ => "PROCESS.VECTOR"
  | .processSpmd _ => "PROCESS.SPMD"
  | .runScalar => "RUN.SCALAR"
  | .runVector => "RUN.VECTOR"
  | .runSpmd => "RUN.SPMD"
  | .syncDec => "SYNC.DEC"
  | .syncWait => "SYNC.WAIT"
  | .halt => "HALT"
  | .idle => "IDLE"

/-- A row of spec/opcode_table.json: the word `w` is of this row exactly when `w &&& mask = pattern` (R76). -/
structure OpcodeRow where
  mnemonic : String
  pattern : Word
  mask : Word
deriving DecidableEq, Repr

/-- The word matches the row (R76). -/
def OpcodeRow.matches (r : OpcodeRow) (w : Word) : Bool := w &&& r.mask == r.pattern

/-- The primitive rows of spec/opcode_table.json. -/
def primitiveRows : List OpcodeRow :=
  [⟨"HINIT.L", 0x00000001, 0xFFFF0FFF⟩, ⟨"HINIT.V", 0x00000401, 0xFFFFFFFF⟩,
   ⟨"WLOAD.L", 0x00000002, 0x00000FFF⟩, ⟨"WLOAD.V", 0x00000402, 0x0000FFFF⟩,
   ⟨"WEXPAND.L", 0x00000003, 0xFFFF0FFF⟩, ⟨"WEXPAND.V", 0x00000403, 0xFFFFFFFF⟩,
   ⟨"COMPRESS.L", 0x00000004, 0xFFFF0FFF⟩, ⟨"COMPRESS.V", 0x00000404, 0xFFFFFFFF⟩,
   ⟨"HSTORE.L", 0x00000005, 0xFFFF0FFF⟩, ⟨"HSTORE.V", 0x00000405, 0xFFFFFFFF⟩]

/-- The composite and completion rows of spec/opcode_table.json. -/
def compositeRows : List OpcodeRow :=
  [⟨"PROCESS.SCALAR", 0x00000010, 0x0000FFFF⟩, ⟨"PROCESS.VECTOR", 0x00000110, 0x0000FFFF⟩,
   ⟨"PROCESS.SPMD", 0x00000210, 0x0000FFFF⟩, ⟨"RUN.SCALAR", 0x00000020, 0xFFFFFFFF⟩,
   ⟨"RUN.VECTOR", 0x00000120, 0xFFFFFFFF⟩, ⟨"RUN.SPMD", 0x00000220, 0xFFFFFFFF⟩,
   ⟨"SYNC.DEC", 0x00000030, 0xFFFFFFFF⟩, ⟨"SYNC.WAIT", 0x00000031, 0xFFFFFFFF⟩,
   ⟨"HALT", 0x00000032, 0xFFFFFFFF⟩, ⟨"IDLE", 0x00000033, 0xFFFFFFFF⟩]

/-- All rows of spec/opcode_table.json. -/
def opcodeRows : List OpcodeRow := primitiveRows ++ compositeRows

end Sys2Proof
end

