-- ==== Sys2Proof/Config.lean ====
section
/-! DEFINITION. What an implementation fixes (the parameters of R7), what the outside world may do (R18, R173), and the
free values: constants with no body, of which nothing can be proved. -/

namespace Sys2Proof

/-- MEM_ENDIAN (R52). -/
inductive Endian where
  | little
  | big
deriving DecidableEq, Repr, Inhabited

/-- SCHED_VARIANT (R104). -/
inductive SchedVariant where
  | source
  | fips
deriving DecidableEq, Repr, Inhabited

/-- A range of addresses the platform provides (R55, R172 step 1). -/
structure Region where
  base : Nat
  size : Nat
deriving DecidableEq, Repr, Inhabited

/-- The parameters of R7. They stand in the state, which no step changes, so that every statement about all states holds
for every value of them (R8). N_CTX is the number of engines the state holds. -/
structure Config where
  /-- BASE, the base address of the per-context layout (R7, R130) -/
  base : Addr
  /-- HALT_ADDR (R7, R143) -/
  haltAddr : Addr
  /-- HALT_VALUE (R7, R143) -/
  haltValue : Word
  /-- REG_BASE(c), where the host's bus sees engine c's window (R7, R34) -/
  regBase : List Addr
  /-- SHARED_BASE (R7, R34) -/
  sharedBase : Addr
  /-- where the platform provides memory (R55, R172) -/
  regions : List Region
  /-- what a byte nobody has written reads as (R172, R180): DESIGN CHOICE, log 6 -/
  background : Byte
  /-- MEM_ENDIAN, default LITTLE (R7, R52) -/
  memEndian : Endian := .little
  /-- SCHED_VARIANT, default SOURCE (R7, R104) -/
  schedVariant : SchedVariant := .source
deriving DecidableEq, Repr

/-- Everything one move may draw freely. -/
structure Draw where
  /-- which lane agent moves (R124), or which waiting element of a gather or scatter step (R69) -/
  lane : LaneNo
  /-- what a host read of an unwritten register returns (R41) -/
  word : Word
  /-- whether a write to HALT_ADDR that is not HALT's stores its value (R57) -/
  portStores : Bool
  /-- whether a write to HALT_ADDR that is not HALT's halts the block (R57) -/
  portHalts : Bool
deriving DecidableEq, Repr, Inhabited

/-- What the host may do (R173). A register is named by its word number `r`: its byte offset is 4·r, since registers are
accessed as aligned words (R34). -/
inductive HostMove where
  | writeReg (c r : Nat) (v : Word)
  | readReg (c r : Nat)
  | writeShared (r : Nat) (v : Word)
  | readShared (r : Nat)
  | writeWord (a : Addr) (v : Word)
  | readWord (a : Addr)
  | writeByte (a : Addr) (v : Byte)
  | readByte (a : Addr)
  | reset
deriving DecidableEq, Repr, Inhabited

/-- One place in the total order of events (R60): who moves, with what draw. An engine's move is its own micro-step or
one of its lane agents' (R18). -/
inductive Move where
  | host (m : HostMove) (d : Draw)
  | engine (c : Nat) (d : Draw)
deriving DecidableEq, Repr, Inhabited

/-- The draw in which every choice is the least. -/
def Draw.zero : Draw := { lane := 0, word := 0, portStores := false, portHalts := false }

/-- FREE VALUE: which agent moves at the k-th undecided place of the order, and what it draws (R18, R41, R57, R69,
R124). Log 2. -/
opaque Config.freeMove : Nat → Move

/-- OPEN: BASE (R7). Log 7. -/
opaque Config.openBase : Addr

/-- OPEN: HALT_ADDR (R7). Log 7. -/
opaque Config.openHaltAddr : Addr

/-- OPEN: HALT_VALUE (R7). Log 7. -/
opaque Config.openHaltValue : Word

/-- OPEN: REG_BASE (R7). Log 7. -/
opaque Config.openRegBase : List Addr

/-- OPEN: SHARED_BASE (R7). Log 7. -/
opaque Config.openSharedBase : Addr

/-- OPEN: N_CTX − 1, the number of workers (R7; N_CTX ≥ 1). Log 7. -/
opaque Config.openWorkers : Nat

/-- OPEN: where the platform provides memory (R172). Log 8. -/
opaque Config.openRegions : List Region

/-- OPEN: what unwritten memory holds (R172, R180). Log 6. -/
opaque Config.openBackground : Byte

/-- The parameters after reset: the OPEN ones are constants nobody knows, the two configuration fields have their
defaults (R8). -/
def Config.initial : Config where
  base := Config.openBase
  haltAddr := Config.openHaltAddr
  haltValue := Config.openHaltValue
  regBase := Config.openRegBase
  sharedBase := Config.openSharedBase
  regions := Config.openRegions
  background := Config.openBackground

end Sys2Proof
end

