-- ==== Sys2Proof/Machine/State.lean ====
section
/-! DEFINITION. The state of the block: the engines (R20 to R40), the completion unit (R38, R39), memory (R50), the
parameters (R7) and the schedule, all plain data; the state after reset (R42). -/

namespace Sys2Proof.Machine

/-- FGROUP: which register group an UNINIT_READ found unwritten (R31, R152). -/
inductive Group where
  /-- 0: H -/
  | hash
  /-- 1: W[0..15] -/
  | block
  /-- 2: W[16..63] -/
  | schedule
  /-- 3: ACTIVE -/
  | active
deriving DecidableEq, Repr

/-- FCAUSE with what STATUS records beside it (R31, R153); the reserved codes are never produced. -/
inductive FaultCause where
  | illegalCmd
  | uninitRead (g : Group) (l : LaneNo)
deriving DecidableEq, Repr

/-- A recorded fault: STATUS's fault fields and FINFO (R31, R32, R150). -/
structure FaultRecord where
  cause : FaultCause
  /-- FINFO: the command word that raised it -/
  info : Word
deriving DecidableEq, Repr

/-- A position in LaneSeq(l, n) (R121, R40): the micro-step that comes next. -/
inductive LanePos where
  /-- HINIT.L -/
  | init
  /-- WLOAD.L of block b: WEV <- 0 -/
  | clear (b : Nat)
  /-- WLOAD.L of block b: the read of word j -/
  | load (b : Nat) (j : Fin 16)
  /-- WLOAD.L of block b: WLV <- 1 -/
  | mark (b : Nat)
  /-- WEXPAND.L after block b -/
  | expand (b : Nat)
  /-- COMPRESS.L of block b -/
  | compress (b : Nat)
  /-- HSTORE.L: the write of digest word j -/
  | store (j : Fin 8)
  /-- the lane has finished -/
  | done
deriving DecidableEq, Repr

/-- A position in PROCESS.VECTOR's sequence (R123). `todo` holds the lanes whose element of the current gather or scatter
step is still to be accessed (R69). -/
inductive VecPos where
  | init
  | clear (b : Nat)
  | gather (b : Nat) (j : Fin 16) (todo : List LaneNo)
  | mark (b : Nat)
  | expand (b : Nat)
  | compress (b : Nat)
  | scatter (j : Fin 8) (todo : List LaneNo)
  | done
deriving DecidableEq, Repr

/-- A position in the body of a PROCESS (R122 to R124). -/
inductive BodyPos where
  /-- lane `l` of PROCESS.SCALAR is at `p`; the lanes below have finished -/
  | scalar (l : LaneNo) (p : LanePos)
  | vector (p : VecPos)
  /-- the positions of the 16 lane agents (R40) -/
  | spmd (ps : Vector LanePos 16)
  /-- all 16 lanes have finished -/
  | finished
deriving DecidableEq, Repr

/-- The pass of a RUN's iteration (R132). -/
inductive Pass where
  | first
  | second
deriving DecidableEq, Repr

/-- A position in a command: the micro-step that comes next (R36). -/
inductive Pos where
  /-- the command is accepted and has made no micro-step -/
  | start
  /-- WLOAD.L: the read of word j -/
  | load (j : Fin 16)
  /-- WLOAD.V: gather step j, with the lanes still to be read -/
  | gather (j : Fin 16) (todo : List LaneNo)
  /-- WLOAD: WLV <- 1 -/
  | mark
  /-- HSTORE.L: the write of digest word j -/
  | store (j : Fin 8)
  /-- HSTORE.V: scatter step j, with the lanes still to be written -/
  | scatter (j : Fin 8) (todo : List LaneNo)
  /-- HSTORE: all words are written; BUSY <- 0 -/
  | finish
  /-- PROCESS: inside the body -/
  | body (b : BodyPos)
  /-- RUN: IN_PTR <- IN1 or IN2 -/
  | tableIn (it : Fin 4) (p : Pass)
  /-- RUN: OUT_PTR <- OUT1 or OUT2 -/
  | tableOut (it : Fin 4) (p : Pass)
  /-- RUN: inside the body of a pass -/
  | pass (it : Fin 4) (p : Pass) (b : BodyPos)
  /-- RUN's completion: SYNC.DEC -/
  | decrement
  /-- RUN's completion: IDLE <- 1 -/
  | enterIdle
  /-- holding in IDLE -/
  | idling
  /-- RUN's completion: SYNC.WAIT's check, WAITING <- 1 -/
  | enterWait
  /-- holding in SYNC.WAIT: a read of ACTIVE -/
  | polling
  /-- RUN's completion: HALT -/
  | halting
deriving DecidableEq, Repr

/-- SEQ, the sequencer record (R36): the command word being executed and the position in it. -/
structure Seq where
  cmd : Word
  pos : Pos
deriving DecidableEq, Repr

/-- One lane of an engine: its register files, valid bits and table entries (R21 to R27). -/
structure Lane where
  /-- H[l][0..7] -/
  h : Vector Word 8
  /-- W[l][0..63] -/
  w : Vector Word 64
  /-- V[l][0..7] -/
  v : Vector Word 8
  /-- HV[l]: H[l] written -/
  hv : Bool
  /-- WLV[l]: W[l][0..15] written -/
  wlv : Bool
  /-- WEV[l]: W[l][16..63] computed from the current W[l][0..15] -/
  wev : Bool
  /-- VV[l]: V[l] written -/
  vv : Bool
  /-- IN_PTR[l] -/
  inPtr : Addr
  /-- OUT_PTR[l] -/
  outPtr : Addr
deriving DecidableEq, Repr

/-- One hash engine (R20). STATUS.BUSY is `seq.isSome` (R31, R36: SEQ is held exactly while BUSY = 1); STATUS.FAULT, its
cause fields and FINFO are `fault`; CTX_ID is the engine's place in `State.engines` (R33). -/
structure Engine where
  lanes : Vector Lane 16
  /-- what a read of CMD returns (R30) -/
  lastCmd : Word
  fault : Option FaultRecord
  /-- STATUS.WAITING (R31) -/
  waiting : Bool
  /-- STATUS.IDLE (R31) -/
  idle : Bool
  seq : Option Seq
deriving DecidableEq, Repr

/-- Whose micro-step is being made: engine number `engine` (counted round, so that every number names an engine), and what
it draws. The model's own field (log 2, log 3). -/
structure Turn where
  engine : Nat
  draw : Draw
deriving DecidableEq, Repr

/-- The block, its memory and its schedule. -/
structure State where
  /-- the parameters (R7), which no step changes -/
  cfg : Config
  /-- the N_CTX engines (R20) -/
  engines : List Engine
  /-- ACTIVE (R38) -/
  active : Word
  /-- AV: ACTIVE has been written (R38) -/
  av : Bool
  /-- GHALT (R39), and so STATUS.HALTED of every engine (R31) -/
  ghalt : Bool
  /-- memory (R50), in the canonical form of `Mem.wf` -/
  mem : List Host.Cell
  /-- MODEL'S OWN: whose micro-step is being made -/
  turn : Turn
  /-- MODEL'S OWN: the moves of the total order already decided, the next one first (R60) -/
  script : List Move
  /-- MODEL'S OWN: how many moves have been drawn from `Config.freeMove` -/
  tick : Nat
  /-- MODEL'S OWN: what the host's last read returned -/
  readData : Word
deriving DecidableEq, Repr

/-- Why the model stops. The block's own faults (R150) are state, not stops. -/
inductive Fault where
  /-- Raised by `State.act`, and so by every command's meaning and by `step`, in a state with no engine at all, which no
  block is (N_CTX ≥ 1, R7). Safe: no run from a block with an engine meets it. -/
  | noEngine
deriving DecidableEq, Repr

/-- Why the model gives no meaning. -/
inductive Refusal where
  /-- Raised by `exec` for an instruction that has no meaning yet; every instruction has one, so no arm raises it. Safe. -/
  | notModelled (mnemonic : String)
deriving DecidableEq, Repr

/-- A lane after reset (R42): valid bits and tables 0. H, W and V are unwritten; the 0 held under valid bits 0 is DESIGN
CHOICE (log 5), and no command or host read returns it. -/
def Lane.reset : Lane where
  h := #v[0, 0, 0, 0, 0, 0, 0, 0]
  w := Vector.replicate 64 0
  v := #v[0, 0, 0, 0, 0, 0, 0, 0]
  hv := false
  wlv := false
  wev := false
  vv := false
  inPtr := 0
  outPtr := 0

/-- An engine after reset (R42). -/
def Engine.reset : Engine where
  lanes := Vector.replicate 16 Lane.reset
  lastCmd := 0
  fault := none
  waiting := false
  idle := false
  seq := none

/-- The state after reset (R42): N_CTX engines at their reset values, ACTIVE unwritten, GHALT = 0, nothing listed in
memory. The values of the model's own fields are DESIGN CHOICE (log 3). -/
def State.reset : State where
  cfg := Config.initial
  engines := Engine.reset :: List.replicate Config.openWorkers Engine.reset
  active := 0
  av := false
  ghalt := false
  mem := []
  turn := { engine := 0, draw := Draw.zero }
  script := []
  tick := 0
  readData := 0

end Sys2Proof.Machine
end

