-- ==== Sys2Proof/Machine/Flags.lean ====
section
/-! DEFINITION. The status words. The block has no condition codes (R37); its only status bits are STATUS (R31),
SHARED_STATUS and VALID[l] (R34), each computed here from the state that holds them. -/

namespace Sys2Proof.Machine

/-- FGROUP's number (R31, R152). -/
def Group.code : Group → BitVec 2
  | .hash => 0
  | .block => 1
  | .schedule => 2
  | .active => 3

/-- FCAUSE's number (R153). -/
def FaultCause.code : FaultCause → BitVec 4
  | .illegalCmd => 1
  | .uninitRead _ _ => 2

/-- FLANE of a fault: the lane of an UNINIT_READ, else 0 (R31). -/
def FaultCause.lane : FaultCause → BitVec 4
  | .illegalCmd => 0
  | .uninitRead _ l => BitVec.ofFin l

/-- FGROUP of a fault: the group of an UNINIT_READ, else 0 (R31). -/
def FaultCause.group : FaultCause → BitVec 2
  | .illegalCmd => 0
  | .uninitRead g _ => g.code

/-- STATUS.BUSY (R31): SEQ is held exactly while BUSY = 1 (R36). -/
def Engine.busy (e : Engine) : Bool := e.seq.isSome

/-- FINFO (R32): 0 when FAULT = 0. -/
def Engine.finfo (e : Engine) : Word := (e.fault.map FaultRecord.info).getD 0

/-- STATUS (R31); `halted` is GHALT (R39). -/
def Engine.status (e : Engine) (halted : Bool) : Word :=
  let fcause := (e.fault.map fun f => f.cause.code).getD 0
  let flane := (e.fault.map fun f => f.cause.lane).getD 0
  let fgroup := (e.fault.map fun f => f.cause.group).getD 0
  (0 : BitVec 14) ++ fgroup ++ flane ++ (0 : BitVec 1) ++ BitVec.ofBool halted ++ BitVec.ofBool e.idle
    ++ BitVec.ofBool e.waiting ++ fcause ++ (0 : BitVec 2) ++ BitVec.ofBool e.fault.isSome ++ BitVec.ofBool e.busy

/-- VALID[l] (R34): bit 0 HV, 1 WLV, 2 WEV, 3 VV. -/
def Lane.valid (x : Lane) : Word :=
  (0 : BitVec 28) ++ BitVec.ofBool x.vv ++ BitVec.ofBool x.wev ++ BitVec.ofBool x.wlv ++ BitVec.ofBool x.hv

/-- SHARED_STATUS (R34): bit 0 AV, bit 1 GHALT. -/
def State.sharedStatus (s : State) : Word :=
  (0 : BitVec 30) ++ BitVec.ofBool s.ghalt ++ BitVec.ofBool s.av

end Sys2Proof.Machine
end

