-- ==== Sys2Proof/Machine/Operands.lean ====
section
/-! DEFINITION. The operand forms: the one addressing form (R105), the choice of a waiting element (R69), word indices in
ascending order (R15), and where a register of the host's window stands (R34). -/

namespace Sys2Proof.Machine

/-- `blkaddr(l, b, j) = IN_PTR[l] +A 64·b +A 4·j` (R105). -/
def Lane.blkaddr (x : Lane) (b j : Nat) : Addr := x.inPtr + BitVec.ofNat 32 (64 * b) + BitVec.ofNat 32 (4 * j)

/-- `digaddr(l, j) = OUT_PTR[l] +A 4·j` (R105). -/
def Lane.digaddr (x : Lane) (j : Nat) : Addr := x.outPtr + BitVec.ofNat 32 (4 * j)

/-- Lanes 0..15. -/
def allLanes : List LaneNo := List.finRange 16

/-- The waiting element a draw picks: some member of a nonempty list, and every member is some draw's (R69). -/
def pickLane (todo : List LaneNo) (d : Draw) : Option LaneNo := todo[d.lane.val % todo.length]?

/-- The next word index below `n`, none after the last (R15). -/
def nextIndex {n : Nat} (j : Fin n) : Option (Fin n) :=
  if h : j.val + 1 < n then some ⟨j.val + 1, h⟩ else none

/-- A register of an engine's window (R34). -/
inductive Reg where
  | cmd
  | status
  | finfo
  | ctxId
  | inPtr (l : LaneNo)
  | outPtr (l : LaneNo)
  | hash (l : LaneNo) (j : Fin 8)
  | sched (l : LaneNo) (i : Fin 64)
  | work (l : LaneNo) (j : Fin 8)
  | valid (l : LaneNo)
  | reserved
deriving DecidableEq, Repr

/-- The register at word number `r`, byte offset 4·r, of an engine's window (R34). -/
def regAt (r : Nat) : Reg :=
  if r = 0 then .cmd
  else if r = 1 then .status
  else if r = 2 then .finfo
  else if r = 3 then .ctxId
  else if r < 16 then .reserved
  else if r < 32 then .inPtr (Fin.ofNat 16 (r - 16))
  else if r < 48 then .outPtr (Fin.ofNat 16 (r - 32))
  else if r < 64 then .reserved
  else if r < 192 then .hash (Fin.ofNat 16 ((r - 64) / 8)) (Fin.ofNat 8 (r - 64))
  else if r < 256 then .reserved
  else if r < 1280 then .sched (Fin.ofNat 16 ((r - 256) / 64)) (Fin.ofNat 64 (r - 256))
  else if r < 1408 then .work (Fin.ofNat 16 ((r - 1280) / 8)) (Fin.ofNat 8 (r - 1280))
  else if r < 1424 then .valid (Fin.ofNat 16 (r - 1408))
  else .reserved

/-- Where the host's bus sees word number `r` of engine c's window: REG_BASE(c) + 4·r (R34). -/
def regAddr (cfg : Config) (c r : Nat) : Option Addr := cfg.regBase[c]?.map (· + BitVec.ofNat 32 (4 * r))

/-- Where the host's bus sees word number `r` of the shared window: SHARED_BASE + 4·r (R34). -/
def sharedAddr (cfg : Config) (r : Nat) : Addr := cfg.sharedBase + BitVec.ofNat 32 (4 * r)

end Sys2Proof.Machine
end

