-- ==== Sys2Proof/Machine/Rounds.lean ====
section
/-! DEFINITION. The pure functions of the Compression Core and the Block Feeder: rotations and sigma functions (R10, R85
to R88, R103), the constant ROMs (R89, R100), the round and the compression function (R90, R91), the schedule
(R104) and the fold over blocks (R112). -/

namespace Sys2Proof.Machine

/-- `rotr(x, n) = (x >> n) | (x << (32 − n))` for 0 < n < 32 (R10). -/
def rotr (x : Word) (n : Nat) : Word := (x >>> n) ||| (x <<< (32 - n))

/-- Choose (R85). -/
def ch (e f g : Word) : Word := (e &&& f) ^^^ (~~~e &&& g)

/-- Majority (R86). -/
def maj (a b c : Word) : Word := (a &&& b) ^^^ (a &&& c) ^^^ (b &&& c)

/-- Σ0 (R87). -/
def bigSigma0 (a : Word) : Word := rotr a 2 ^^^ rotr a 13 ^^^ rotr a 22

/-- Σ1 (R88). -/
def bigSigma1 (e : Word) : Word := rotr e 6 ^^^ rotr e 11 ^^^ rotr e 25

/-- σ0, the FIPS variant's (R103). -/
def smallSigma0 (x : Word) : Word := rotr x 7 ^^^ rotr x 18 ^^^ (x >>> 3)

/-- σ1, the FIPS variant's (R103). -/
def smallSigma1 (x : Word) : Word := rotr x 17 ^^^ rotr x 19 ^^^ (x >>> 10)

/-- Word `i` (0..7) of a ROM row of eight words side by side, the first on the left. -/
def romWord (row : BitVec 256) (i : Nat) : Word := row.extractLsb' (32 * (7 - i)) 32

/-- The table of R89, row by row: row k holds K[8·k] .. K[8·k+7]. -/
def roundConstantRows : Vector (BitVec 256) 8 := #v[
   0x428a2f98_71374491_b5c0fbcf_e9b5dba5_3956c25b_59f111f1_923f82a4_ab1c5ed5,
   0xd807aa98_12835b01_243185be_550c7dc3_72be5d74_80deb1fe_9bdc06a7_c19bf174,
   0xe49b69c1_efbe4786_0fc19dc6_240ca1cc_2de92c6f_4a7484aa_5cb0a9dc_76f988da,
   0x983e5152_a831c66d_b00327c8_bf597fc7_c6e00bf3_d5a79147_06ca6351_14292967,
   0x27b70a85_2e1b2138_4d2c6dfc_53380d13_650a7354_766a0abb_81c2c92e_92722c85,
   0xa2bfe8a1_a81a664b_c24b8b70_c76c51a3_d192e819_d6990624_f40e3585_106aa070,
   0x19a4c116_1e376c08_2748774c_34b0bcb5_391c0cb3_4ed8aa4a_5b9cca4f_682e6ff3,
   0x748f82ee_78a5636f_84c87814_8cc70208_90befffa_a4506ceb_bef9a3f7_c67178f2]

/-- The ROM K (R28, R89): K[i] is word i mod 8 of row i / 8 of the table. -/
def roundConstants : Vector Word 64 := Vector.ofFn fun i => romWord roundConstantRows[i.val / 8] (i.val % 8)

/-- The ROM IV (R29, R100), one row. -/
def initialHash : Vector Word 8 :=
  Vector.ofFn fun i => romWord 0x6a09e667_bb67ae85_3c6ef372_a54ff53a_510e527f_9b05688c_1f83d9ab_5be0cd19 i

/-- One round on the window (a, b, c, d, e, f, g, h) = (x[0], …, x[7]) with the round's constant and schedule word
(R90). All right-hand sides read the window before the round. -/
def roundStep (k w : Word) (x : Vector Word 8) : Vector Word 8 :=
  let t1 := x[7] + bigSigma1 x[4] + ch x[4] x[5] x[6] + k + w
  let t2 := bigSigma0 x[0] + maj x[0] x[1] x[2]
  #v[t1 + t2, x[0], x[1], x[2], x[3] + t1, x[4], x[5], x[6]]

/-- Rounds in ascending order, each with its (constant, schedule word) pair (R91). -/
def runRounds : List (Word × Word) → Vector Word 8 → Vector Word 8
  | [], x => x
  | kw :: rest, x => runRounds rest (roundStep kw.1 kw.2 x)

/-- The state after round 64, before the feed-forward: `Vout` of R91. -/
def afterRounds (h : Vector Word 8) (ws : Vector Word 64) : Vector Word 8 :=
  runRounds (roundConstants.toList.zip ws.toList) h

/-- The feed-forward: `Hin[j] + Vout[j]` (R91). -/
def feedForward (h v : Vector Word 8) : Vector Word 8 := Vector.ofFn fun j => h[j] + v[j]

/-- `Hout` of the compression function (R91). -/
def compressed (h : Vector Word 8) (ws : Vector Word 64) : Vector Word 8 := feedForward h (afterRounds h ws)

/-- The schedule recurrence's word from Ws[i−2], Ws[i−7], Ws[i−15] and Ws[i−16] (R104; 90_conflicts C1). -/
def scheduleWord (v : SchedVariant) (w2 w7 w15 w16 : Word) : Word :=
  match v with
  | .source => bigSigma1 w2 + w7 + bigSigma0 w15 + w16
  | .fips => smallSigma1 w2 + w7 + smallSigma0 w15 + w16

/-- `n` further schedule words; the list holds the words so far, the newest first. -/
def extendSchedule (v : SchedVariant) : Nat → List Word → List Word
  | 0, ws => ws
  | n + 1, ws =>
    extendSchedule v n (scheduleWord v (ws.getD 1 0) (ws.getD 6 0) (ws.getD 14 0) (ws.getD 15 0) :: ws)

/-- `Expand(w[0..15])`: the 64-word schedule from the first 16 words of `w` (R104). -/
def expand (v : SchedVariant) (w : Vector Word 64) : Vector Word 64 :=
  let ws := (extendSchedule v 48 (w.toList.take 16).reverse).reverse
  Vector.ofFn fun i => ws.getD i 0

/-- A block of 16 words at the head of a schedule file. -/
def blockFile (block : Vector Word 16) : Vector Word 64 := Vector.ofFn fun i => block.toList.getD i 0

/-- The fold of blocks from a state: `S(k+1) = Hout of Compress(Sk, Expand(Bk))` (R112). -/
def foldBlocks (v : SchedVariant) : List (Vector Word 16) → Vector Word 8 → Vector Word 8
  | [], h => h
  | b :: rest, h => foldBlocks v rest (compressed h (expand v (blockFile b)))

/-- `HashBlocks` (R112): the fold from IV. -/
def hashBlocks (v : SchedVariant) (blocks : List (Vector Word 16)) : Vector Word 8 := foldBlocks v blocks initialHash

end Sys2Proof.Machine
end

