-- ==== Sys2Proof/Machine/Ops.lean ====
section
/-! DEFINITION. The named operations over memory (R13, R52 to R57), over an engine's registers, the one operation that
raises a fault (R150), the one wrapper every command's micro-step runs in, and the choice of the next move (R18, R60). -/

namespace Sys2Proof.Machine

/-! ### Memory: bytes -/

/-- The byte at `a`; `bg` is what an unlisted address reads as. -/
def Mem.readByte (bg : Byte) : List Host.Cell → Nat → Byte
  | [], _ => bg
  | (k, v) :: rest, a => if a = k then v else Mem.readByte bg rest a

/-- Stores a byte, keeping the canonical form: keys rise, and no cell holds what an unlisted address reads as. -/
def Mem.writeByte (bg : Byte) : List Host.Cell → Nat → Byte → List Host.Cell
  | [], a, v => if v = bg then [] else [(a, v)]
  | (k, u) :: rest, a, v =>
    if a < k then if v = bg then (k, u) :: rest else (a, v) :: (k, u) :: rest
    else if a = k then if v = bg then rest else (a, v) :: rest
    else (k, u) :: Mem.writeByte bg rest a v

/-- The canonical form from key `lo` up. -/
def Mem.wfFrom (bg : Byte) : Nat → List Host.Cell → Bool
  | _, [] => true
  | lo, (k, v) :: rest => decide (lo ≤ k) && decide (k < 2 ^ 32) && decide (v ≠ bg) && Mem.wfFrom bg (k + 1) rest

/-- The canonical form: keys strictly rising and below 2^32, no cell equal to what an unlisted address reads as. -/
def Mem.wf (bg : Byte) (m : List Host.Cell) : Bool := Mem.wfFrom bg 0 m

/-! ### Memory: words -/

/-- Byte `k` (0..3) of a word in memory (R52). -/
def byteOf (en : Endian) (v : Word) (k : Nat) : Byte :=
  match en with
  | .little => v.extractLsb' (8 * k) 8
  | .big => v.extractLsb' (8 * (3 - k)) 8

/-- The word of four bytes, the one at the lowest address first (R52). -/
def wordOfBytes (en : Endian) (b0 b1 b2 b3 : Byte) : Word :=
  match en with
  | .little => b3 ++ b2 ++ b1 ++ b0
  | .big => b0 ++ b1 ++ b2 ++ b3

/-- The word at byte address `a` (R13, R52). -/
def Mem.readWord (en : Endian) (bg : Byte) (m : List Host.Cell) (a : Nat) : Word :=
  wordOfBytes en (Mem.readByte bg m a) (Mem.readByte bg m (a + 1)) (Mem.readByte bg m (a + 2)) (Mem.readByte bg m (a + 3))

/-- Stores the word at byte address `a` (R13, R52). -/
def Mem.writeWord (en : Endian) (bg : Byte) (m : List Host.Cell) (a : Nat) (v : Word) : List Host.Cell :=
  let put := fun m k => Mem.writeByte bg m (a + k) (byteOf en v k)
  put (put (put (put m 0) 1) 2) 3

/-- The platform provides the byte at `a` (R55, R172). -/
def State.provides (s : State) (a : Nat) : Bool :=
  s.cfg.regions.any fun r => decide (r.base ≤ a) && decide (a < r.base + r.size)

/-- The memory admits a word access at `a`: it is a multiple of 4 and the platform provides the word (R54, R55). -/
def State.admits (s : State) (a : Addr) : Bool :=
  decide (a.toNat % 4 = 0) && s.provides a.toNat && s.provides (a.toNat + 1) && s.provides (a.toNat + 2)
    && s.provides (a.toNat + 3)

/-- What the byte at `a` reads as. -/
def State.readByte (s : State) (a : Nat) : Byte := Mem.readByte s.cfg.background s.mem a

/-- The word at `a`, admitted or not. -/
def State.wordAt (s : State) (a : Addr) : Word := Mem.readWord s.cfg.memEndian s.cfg.background s.mem a.toNat

/-- The memory with the word at `a` stored. -/
def State.setWord (s : State) (a : Addr) (v : Word) : State :=
  { s with mem := Mem.writeWord s.cfg.memEndian s.cfg.background s.mem a.toNat v }

/-- The memory with the byte at `a` stored. -/
def State.setByte (s : State) (a : Addr) (v : Byte) : State :=
  { s with mem := Mem.writeByte s.cfg.background s.mem a.toNat v }

/-- `MemRead(a, 4)` (R13): none where the memory admits no access, and the agent then has no step (R55). -/
def State.loadWord (s : State) (a : Addr) : Option Word := if s.admits a then some (s.wordAt a) else none

/-- A write to HALT_ADDR other than HALT's: what it does is a platform parameter (R57), so whether it stores, and whether
it halts, are free (log 9). `store` is the state with the value stored. -/
def State.portWrite (s store : State) (d : Draw) : State :=
  let t := if d.portStores then store else s
  if d.portHalts then { t with ghalt := true } else t

/-- `MemWrite(a, 4, v)` by anyone but HALT (R13, R57): none where the memory admits no access. -/
def State.storeWord (s : State) (a : Addr) (v : Word) (d : Draw) : Option State :=
  if s.admits a then
    some (if a = s.cfg.haltAddr then s.portWrite (s.setWord a v) d else s.setWord a v)
  else none

/-! ### One lane's registers (R21 to R27) -/

/-- HINIT on one lane (R101). -/
def Lane.hinit (x : Lane) : Lane := { x with h := initialHash, hv := true }

/-- WLOAD's first effect: WEV <- 0 (R106). -/
def Lane.clearWev (x : Lane) : Lane := { x with wev := false }

/-- WLOAD's read of word j (R106). -/
def Lane.loadWord (x : Lane) (j : Fin 16) (v : Word) : Lane := { x with w := x.w.set j v (by omega) }

/-- WLOAD's last effect: WLV <- 1 (R106). -/
def Lane.markLoaded (x : Lane) : Lane := { x with wlv := true }

/-- WEXPAND's effect (R108). -/
def Lane.expandSchedule (v : SchedVariant) (x : Lane) : Lane := { x with w := expand v x.w, wev := true }

/-- COMPRESS's effect (R92): V and H are both computed from the H before. -/
def Lane.compressBlock (x : Lane) : Lane :=
  { x with v := afterRounds x.h x.w, vv := true, h := compressed x.h x.w }

/-- WEXPAND's check (R108). -/
def Lane.expandCheck (x : Lane) : Option Group := if x.wlv then none else some .block

/-- COMPRESS's checks, in the order of R92. -/
def Lane.compressCheck (x : Lane) : Option Group :=
  if !x.hv then some .hash else if !x.wlv then some .block else if !x.wev then some .schedule else none

/-- HSTORE's check (R110). -/
def Lane.storeCheck (x : Lane) : Option Group := if x.hv then none else some .hash

/-! ### An engine's registers -/

/-- Lane `l` of the engine. -/
def Engine.lane (e : Engine) (l : LaneNo) : Lane := e.lanes[l]

/-- The engine with lane `l` changed by `f`. -/
def Engine.updLane (e : Engine) (l : LaneNo) (f : Lane → Lane) : Engine :=
  { e with lanes := e.lanes.set l (f (e.lane l)) }

/-- The engine with lane `l` changed by `f l`, for every `l`. -/
def Engine.mapLanes (e : Engine) (f : LaneNo → Lane → Lane) : Engine :=
  { e with lanes := Vector.ofFn fun l => f l (e.lane l) }

/-- The lowest lane that fails a check, with the group it fails on (R93, R109, R111, R156). -/
def Engine.firstFailing (e : Engine) (check : Lane → Option Group) : Option (Group × LaneNo) :=
  allLanes.findSome? fun l => (check (e.lane l)).map fun g => (g, l)

/-- The engine at position `p` of its command. -/
def Engine.moveTo (e : Engine) (q : Seq) (p : Pos) : Engine := { e with seq := some { q with pos := p } }

/-- The command completes: BUSY <- 0, SEQ discarded (R36). -/
def Engine.complete (e : Engine) : Engine := { e with seq := none }

/-- `raise Fault(cause, group, lane)` with the command word being executed (R150): FAULT and its fields, FINFO, BUSY <- 0,
WAITING <- 0. -/
def Engine.raise (e : Engine) (cause : FaultCause) (cmd : Word) : Engine :=
  { e with fault := some { cause, info := cmd }, seq := none, waiting := false }

/-- The engine accepts a legal command word: BUSY <- 1, recorded as the last accepted command (R76). -/
def Engine.accept (e : Engine) (cmd : Word) : Engine :=
  { e with lastCmd := cmd, seq := some { cmd, pos := .start } }

/-- A CMD write decoded by a ready engine: a legal word is accepted (R76), an illegal one raises ILLEGAL_CMD and does
nothing else (R77, R151). -/
def Engine.issue (e : Engine) (cmd : Word) : Engine :=
  match decode cmd with
  | .command _ => e.accept cmd
  | .illegal _ => e.raise .illegalCmd cmd

/-! ### The engine whose turn it is -/

/-- Its number, which is its CTX_ID (R33). The turn's number is counted round the engines (log 2). -/
def State.curIdx (s : State) : Nat := s.turn.engine % s.engines.length

/-- The engine itself; none only where the block has no engine. -/
def State.cur (s : State) : Option Engine := s.engines[s.curIdx]?

/-- The state with that engine replaced. -/
def State.putCur (s : State) (e : Engine) : State := { s with engines := s.engines.set s.curIdx e }

/-- The engine may step: it is neither faulted (R150) nor halted (R39). -/
def State.mayStep (s : State) (e : Engine) : Bool := !s.ghalt && e.fault.isNone

/-- The wrapper of every micro-step. `f` gives the step of the engine with its sequencer; none is "has no step" (stuck,
R55, or holding, R155), and the state then stays as it is, other agents moving on. An engine that is ready, faulted
(R150) or halted (R39) takes no step. -/
def State.act (s : State) (f : Engine → Seq → Option State) : Host.Outcome State Fault Refusal :=
  match s.cur with
  | none => .fault .noEngine
  | some e =>
    .next <|
      match e.seq with
      | none => s
      | some q => if s.mayStep e then (f e q).getD s else s

/-- The command word the engine whose turn it is is executing, where it may step. -/
def State.fetch (s : State) : Option Word :=
  match s.cur with
  | none => none
  | some e => if s.mayStep e then e.seq.map Seq.cmd else none

/-- The step of an engine that holds an illegal command word: ILLEGAL_CMD (R151). -/
def State.actIllegal (s : State) : Host.Outcome State Fault Refusal :=
  s.act fun e q => some (s.putCur (e.raise .illegalCmd q.cmd))

/-- The step of an engine with nothing to do. -/
def State.actNothing (s : State) : Host.Outcome State Fault Refusal := s.act fun _ _ => none

/-- A check before any write (R156): the fault where it fails, else the step `f`. -/
def State.checked (s : State) (e : Engine) (q : Seq) (failing : Option (Group × LaneNo)) (f : Option State) :
    Option State :=
  match failing with
  | some (g, l) => some (s.putCur (e.raise (.uninitRead g l) q.cmd))
  | none => f

/-! ### Reset and the order of moves -/

/-- The reset event (R170): every engine and the completion unit at their reset values, memory unchanged. -/
def State.resetBlock (s : State) : State :=
  { s with engines := s.engines.map fun _ => Engine.reset, active := 0, av := false, ghalt := false }

/-- The next move of the total order (R18, R60): the first of the script, and a free one where the script is empty. -/
def State.nextMove (s : State) : Move × State :=
  match s.script with
  | m :: rest => (m, { s with script := rest })
  | [] => (Config.freeMove s.tick, { s with tick := s.tick + 1 })

/-- The state with the turn given to engine number `c`, drawing `d`. -/
def State.withTurn (s : State) (c : Nat) (d : Draw) : State := { s with turn := { engine := c, draw := d } }

end Sys2Proof.Machine
end

