-- ==== Sys2Proof/Machine/Batch.lean ====
section
/-! DEFINITION. The Batch Strategies: the micro-steps of LaneSeq (R121), of the vector sequence (R123) and of the 16 lane
agents (R124), shared by PROCESS (R122 to R124) and by RUN's passes (R132). They run without decoding, so without the
primitives' checks (R121). -/

namespace Sys2Proof.Machine

/-- What one micro-step of a sequence leaves: the state (memory), the engine (registers) and the next position. -/
structure Micro (α : Type) where
  state : State
  engine : Engine
  pos : α

/-- The position once `b` blocks of `n` are folded (R121). -/
def LanePos.afterBlocks (n b : Nat) : LanePos := if b < n then .clear b else .store 0

/-- The next micro-step of LaneSeq(l, n) (R121): none where the lane has finished or is stuck (R55). -/
def State.laneMicro (s : State) (e : Engine) (n : Nat) (l : LaneNo) : LanePos → Option (Micro LanePos)
  | .init => some ⟨s, e.updLane l Lane.hinit, .afterBlocks n 0⟩
  | .clear b => some ⟨s, e.updLane l Lane.clearWev, .load b 0⟩
  | .load b j =>
    (s.loadWord ((e.lane l).blkaddr b j)).map fun v =>
      ⟨s, e.updLane l (·.loadWord j v), ((nextIndex j).map (LanePos.load b)).getD (.mark b)⟩
  | .mark b => some ⟨s, e.updLane l Lane.markLoaded, .expand b⟩
  | .expand b => some ⟨s, e.updLane l (Lane.expandSchedule s.cfg.schedVariant), .compress b⟩
  | .compress b => some ⟨s, e.updLane l Lane.compressBlock, .afterBlocks n (b + 1)⟩
  | .store j =>
    (s.storeWord ((e.lane l).digaddr j) (e.lane l).h[j] s.turn.draw).map fun t =>
      ⟨t, e, ((nextIndex j).map LanePos.store).getD .done⟩
  | .done => none

/-- The position of the vector sequence once `b` blocks of `n` are folded (R123). -/
def VecPos.afterBlocks (n b : Nat) : VecPos := if b < n then .clear b else .scatter 0 allLanes

/-- The position after an element of gather step j of block b is read (R107, R123). -/
def VecPos.gatherNext (b : Nat) (j : Fin 16) (todo : List LaneNo) : VecPos :=
  if todo = [] then ((nextIndex j).map fun j => VecPos.gather b j allLanes).getD (.mark b) else .gather b j todo

/-- The position after an element of scatter step j is written (R111, R123). -/
def VecPos.scatterNext (j : Fin 8) (todo : List LaneNo) : VecPos :=
  if todo = [] then ((nextIndex j).map fun j => VecPos.scatter j allLanes).getD .done else .scatter j todo

/-- The next micro-step of PROCESS.VECTOR's sequence (R123). -/
def State.vecMicro (s : State) (e : Engine) (n : Nat) : VecPos → Option (Micro VecPos)
  | .init => some ⟨s, e.mapLanes fun _ => Lane.hinit, .afterBlocks n 0⟩
  | .clear b => some ⟨s, e.mapLanes fun _ => Lane.clearWev, .gather b 0 allLanes⟩
  | .gather b j todo =>
    (pickLane todo s.turn.draw).bind fun l =>
      (s.loadWord ((e.lane l).blkaddr b j)).map fun v =>
        ⟨s, e.updLane l (·.loadWord j v), .gatherNext b j (todo.erase l)⟩
  | .mark b => some ⟨s, e.mapLanes fun _ => Lane.markLoaded, .expand b⟩
  | .expand b => some ⟨s, e.mapLanes fun _ => Lane.expandSchedule s.cfg.schedVariant, .compress b⟩
  | .compress b => some ⟨s, e.mapLanes fun _ => Lane.compressBlock, .afterBlocks n (b + 1)⟩
  | .scatter j todo =>
    (pickLane todo s.turn.draw).bind fun l =>
      (s.storeWord ((e.lane l).digaddr j) (e.lane l).h[j] s.turn.draw).map fun t =>
        ⟨t, e, .scatterNext j (todo.erase l)⟩
  | .done => none

/-- The first position of a body (R122 to R124). -/
def BodyPos.start : Strategy → BodyPos
  | .scalar => .scalar 0 .init
  | .vector => .vector .init
  | .spmd => .spmd (Vector.replicate 16 .init)

/-- After a micro-step of lane `l` of PROCESS.SCALAR: lane l+1 starts after lane l's last write (R122). -/
def BodyPos.afterScalar (l : LaneNo) (p : LanePos) : BodyPos :=
  if p = .done then ((nextIndex l).map fun l => BodyPos.scalar l .init).getD .finished else .scalar l p

/-- After a micro-step of the vector sequence (R123). -/
def BodyPos.afterVector (p : VecPos) : BodyPos := if p = .done then .finished else .vector p

/-- Every lane agent has finished (R124). -/
def allDone (ps : Vector LanePos 16) : Bool := allLanes.all fun l => decide (ps[l] = .done)

/-- The next micro-step of a body. Under SPMD it is the drawn lane agent's, which has none where it has finished or is
stuck, until the join (R124). -/
def State.bodyMicro (s : State) (e : Engine) (n : Nat) : BodyPos → Option (Micro BodyPos)
  | .scalar l p => (s.laneMicro e n l p).map fun m => ⟨m.state, m.engine, .afterScalar l m.pos⟩
  | .vector p => (s.vecMicro e n p).map fun m => ⟨m.state, m.engine, .afterVector m.pos⟩
  | .spmd ps =>
    if allDone ps then some ⟨s, e, .finished⟩
    else
      let l := s.turn.draw.lane
      (s.laneMicro e n l ps[l]).map fun m => ⟨m.state, m.engine, .spmd (ps.set l m.pos)⟩
  | .finished => none

/-- The position in a PROCESS's body; none where the position is none of a PROCESS's. -/
def Pos.bodyPos (st : Strategy) : Pos → Option BodyPos
  | .start => some (.start st)
  | .body b => some b
  | _ => none

/-- A PROCESS's next micro-step (R120 to R124): the body's, and once the body has finished BUSY <- 0. -/
def State.processStep (s : State) (st : Strategy) (n : Nat) (e : Engine) (q : Seq) : Option State :=
  (q.pos.bodyPos st).bind fun b =>
    if b = .finished then some (s.putCur e.complete)
    else (s.bodyMicro e n b).map fun m => m.state.putCur (m.engine.moveTo q (.body m.pos))

/-- PROCESS.SCALAR (R122). -/
def execProcessScalar (n : BitVec 16) (s : State) : Host.Outcome State Fault Refusal :=
  s.act (s.processStep .scalar n.toNat)

/-- PROCESS.VECTOR (R123). -/
def execProcessVector (n : BitVec 16) (s : State) : Host.Outcome State Fault Refusal :=
  s.act (s.processStep .vector n.toNat)

/-- PROCESS.SPMD (R124). -/
def execProcessSpmd (n : BitVec 16) (s : State) : Host.Outcome State Fault Refusal :=
  s.act (s.processStep .spmd n.toNat)

end Sys2Proof.Machine
end

