-- ==== Sys2Proof/Machine/Compress.lean ====
section
/-! DEFINITION. The Compression Core's commands: COMPRESS.L (R92) and COMPRESS.V (R93). -/

namespace Sys2Proof.Machine

/-- COMPRESS.L (R92): the checks in order, then the whole register effect in one micro-step. -/
def execCompressL (l : LaneNo) (s : State) : Host.Outcome State Fault Refusal :=
  s.act fun e q =>
    s.checked e q ((e.lane l).compressCheck.map (·, l)) <|
      some (s.putCur (e.updLane l Lane.compressBlock).complete)

/-- COMPRESS.V (R93): the checks, lowest lane first and in COMPRESS.L's order within it, then one micro-step. -/
def execCompressV (s : State) : Host.Outcome State Fault Refusal :=
  s.act fun e q =>
    s.checked e q (e.firstFailing Lane.compressCheck) <|
      some (s.putCur (e.mapLanes fun _ => Lane.compressBlock).complete)

end Sys2Proof.Machine
end

