-- ==== Sys2Proof/Machine/Feeder.lean ====
section
/-! DEFINITION. The Block Feeder's commands: HINIT (R101, R102), WLOAD (R106, R107), WEXPAND (R108, R109), HSTORE (R110,
R111). A meaning is the command's next micro-step at the position its engine's sequencer holds; a position that is none
of the command's has no step; a command of one micro-step has only its start. -/

namespace Sys2Proof.Machine

/-- HINIT.L (R101): one micro-step. -/
def execHinitL (l : LaneNo) (s : State) : Host.Outcome State Fault Refusal :=
  s.act fun e _ => some (s.putCur (e.updLane l Lane.hinit).complete)

/-- HINIT.V (R102): one micro-step. -/
def execHinitV (s : State) : Host.Outcome State Fault Refusal :=
  s.act fun e _ => some (s.putCur (e.mapLanes fun _ => Lane.hinit).complete)

/-- WLOAD.L (R106): WEV <- 0, then the 16 reads in ascending order, then WLV <- 1. -/
def execWloadL (l : LaneNo) (b : BitVec 16) (s : State) : Host.Outcome State Fault Refusal :=
  s.act fun e q =>
    match q.pos with
    | .start => some (s.putCur ((e.updLane l Lane.clearWev).moveTo q (.load 0)))
    | .load j =>
      (s.loadWord ((e.lane l).blkaddr b.toNat j)).map fun v =>
        s.putCur ((e.updLane l (·.loadWord j v)).moveTo q (((nextIndex j).map Pos.load).getD .mark))
    | .mark => some (s.putCur (e.updLane l Lane.markLoaded).complete)
    | _ => none

/-- The position after an element of gather step j of WLOAD.V is read (R107). -/
def gatherNext (j : Fin 16) (todo : List LaneNo) : Pos :=
  if todo = [] then ((nextIndex j).map fun j => Pos.gather j allLanes).getD .mark else .gather j todo

/-- WLOAD.V (R107): WEV <- 0 in every lane, then 16 gather steps in ascending order, the 16 reads of a step in any order
(R69), then WLV <- 1 in every lane. -/
def execWloadV (b : BitVec 16) (s : State) : Host.Outcome State Fault Refusal :=
  s.act fun e q =>
    match q.pos with
    | .start => some (s.putCur ((e.mapLanes fun _ => Lane.clearWev).moveTo q (.gather 0 allLanes)))
    | .gather j todo =>
      (pickLane todo s.turn.draw).bind fun l =>
        (s.loadWord ((e.lane l).blkaddr b.toNat j)).map fun v =>
          s.putCur ((e.updLane l (·.loadWord j v)).moveTo q (gatherNext j (todo.erase l)))
    | .mark => some (s.putCur (e.mapLanes fun _ => Lane.markLoaded).complete)
    | _ => none

/-- WEXPAND.L (R108): the check, then one micro-step. -/
def execWexpandL (l : LaneNo) (s : State) : Host.Outcome State Fault Refusal :=
  s.act fun e q =>
    s.checked e q ((e.lane l).expandCheck.map (·, l)) <|
      some (s.putCur (e.updLane l (Lane.expandSchedule s.cfg.schedVariant)).complete)

/-- WEXPAND.V (R109): the checks, lowest lane first, then one micro-step. -/
def execWexpandV (s : State) : Host.Outcome State Fault Refusal :=
  s.act fun e q =>
    s.checked e q (e.firstFailing Lane.expandCheck) <|
      some (s.putCur (e.mapLanes fun _ => Lane.expandSchedule s.cfg.schedVariant).complete)

/-- HSTORE.L (R110): the check, then the 8 writes in ascending order, then BUSY <- 0. -/
def execHstoreL (l : LaneNo) (s : State) : Host.Outcome State Fault Refusal :=
  s.act fun e q =>
    match q.pos with
    | .start => s.checked e q ((e.lane l).storeCheck.map (·, l)) (some (s.putCur (e.moveTo q (.store 0))))
    | .store j =>
      (s.storeWord ((e.lane l).digaddr j) (e.lane l).h[j] s.turn.draw).map fun t =>
        t.putCur (e.moveTo q (((nextIndex j).map Pos.store).getD .finish))
    | .finish => some (s.putCur e.complete)
    | _ => none

/-- The position after an element of scatter step j of HSTORE.V is written (R111). -/
def scatterNext (j : Fin 8) (todo : List LaneNo) : Pos :=
  if todo = [] then ((nextIndex j).map fun j => Pos.scatter j allLanes).getD .finish else .scatter j todo

/-- HSTORE.V (R111): the checks, lowest lane first, then 8 scatter steps in ascending order, the 16 writes of a step in
any order (R69), then BUSY <- 0. -/
def execHstoreV (s : State) : Host.Outcome State Fault Refusal :=
  s.act fun e q =>
    match q.pos with
    | .start => s.checked e q (e.firstFailing Lane.storeCheck) (some (s.putCur (e.moveTo q (.scatter 0 allLanes))))
    | .scatter j todo =>
      (pickLane todo s.turn.draw).bind fun l =>
        (s.storeWord ((e.lane l).digaddr j) (e.lane l).h[j] s.turn.draw).map fun t =>
          t.putCur (e.moveTo q (scatterNext j (todo.erase l)))
    | .finish => some (s.putCur e.complete)
    | _ => none

end Sys2Proof.Machine
end

