-- ==== Sys2Proof/Machine/Pipeline.lean ====
section
/-! DEFINITION. The Pipeline Driver and the completion protocol: the address derivation (R130, R131), RUN (R132 to R136),
SYNC.DEC (R141), SYNC.WAIT (R142), HALT (R143), IDLE (R144). -/

namespace Sys2Proof.Machine

/-! ### Layout constants (R7) and derived addresses (R130, R131) -/

/-- HASH_SIZE: the lane stride, in bytes. -/
def hashSize : Nat := 32

/-- REGION_SIZE = HASH_SIZE · LANES · BUFFERING, in bytes (90_conflicts C5). -/
def regionSize : Nat := hashSize * 16 * 2

/-- FOOTPRINT = 4 · REGION_SIZE, in bytes. -/
def footprint : Nat := 4 * regionSize

/-- SRC_BLOCKS = SOURCE_BLOCK / HASH_SIZE, the blocks of the first pass (90_conflicts C2). -/
def srcBlocks : Nat := 128 / hashSize

/-- Region `k` of context `c`: 0 input, 1 scratch, 2 final output, 3 buffer index (R130). -/
def regionAddr (cfg : Config) (c k : Nat) : Addr :=
  cfg.base + BitVec.ofNat 32 (c * footprint) + BitVec.ofNat 32 (k * regionSize)

/-- step[l] = l · HASH_SIZE (R130). -/
def laneStep (l : LaneNo) : Addr := BitVec.ofNat 32 (l.val * hashSize)

/-- IN1 and IN2 (R131): the input region, then the scratch region. -/
def inTable (cfg : Config) (c : Nat) (p : Pass) (l : LaneNo) : Addr :=
  match p with
  | .first => regionAddr cfg c 0 + laneStep l
  | .second => regionAddr cfg c 1 + laneStep l

/-- OUT1 and OUT2 (R131): the scratch region, then the output region. -/
def outTable (cfg : Config) (c : Nat) (p : Pass) (l : LaneNo) : Addr :=
  match p with
  | .first => regionAddr cfg c 1 + laneStep l
  | .second => regionAddr cfg c 2 + laneStep l

/-- The blocks a pass folds (R131, R132). -/
def passBlocks : Pass → Nat
  | .first => srcBlocks
  | .second => 1

/-! ### The completion unit's operations -/

/-- SYNC.DEC (R141, R65): one event, the check and the decrement; `k` is what the engine does then. -/
def State.decActive (s : State) (e : Engine) (q : Seq) (k : Engine) : Option State :=
  s.checked e q (if s.av then none else some (.active, 0)) (some ({ s with active := s.active - 1 }.putCur k))

/-- SYNC.WAIT's beginning (R142): the check, WAITING <- 1. -/
def State.enterWait (s : State) (e : Engine) (q : Seq) : Option State :=
  s.checked e q (if s.av then none else some (.active, 0)) (some (s.putCur ({ e with waiting := true }.moveTo q .polling)))

/-- SYNC.WAIT's hold (R142): a read of ACTIVE; while it is not 0 the engine has no step. `k` is what the engine does once
it reads 0. -/
def State.pollActive (s : State) (k : Engine) : Option State :=
  if s.active = 0 then some (s.putCur { k with waiting := false }) else none

/-- HALT (R143): one event, the write of HALT_VALUE to HALT_ADDR and GHALT <- 1; stuck where HALT_ADDR is not admitted. -/
def State.haltAll (s : State) : Option State :=
  if s.admits s.cfg.haltAddr then some { s.setWord s.cfg.haltAddr s.cfg.haltValue with ghalt := true } else none

/-- IDLE's beginning (R144): IDLE <- 1. -/
def State.enterIdle (s : State) (e : Engine) (q : Seq) : State := s.putCur ({ e with idle := true }.moveTo q .idling)

/-! ### RUN -/

/-- The position after the passes of RUN (R136): context 0 waits and halts, every other one decrements and idles. -/
def completionPos (c : Nat) : Pos := if c = 0 then .enterWait else .decrement

/-- The position after a pass has finished (R132). -/
def afterPass (c : Nat) (it : Fin 4) : Pass → Pos
  | .first => .tableIn it .second
  | .second => ((nextIndex it).map fun it => Pos.tableIn it .first).getD (completionPos c)

/-- RUN begins with the first pass's input table (R132). -/
def Pos.runPos : Pos → Pos
  | .start => .tableIn 0 .first
  | p => p

/-- RUN's next micro-step (R132, R136) in the engine of context `c`. -/
def State.runStep (s : State) (st : Strategy) (c : Nat) (e : Engine) (q : Seq) : Option State :=
  match q.pos.runPos with
  | .tableIn it p =>
    some (s.putCur ((e.mapLanes fun l x => { x with inPtr := inTable s.cfg c p l }).moveTo q (.tableOut it p)))
  | .tableOut it p =>
    some (s.putCur ((e.mapLanes fun l x => { x with outPtr := outTable s.cfg c p l }).moveTo q (.pass it p (.start st))))
  | .pass it p b =>
    if b = .finished then some (s.putCur (e.moveTo q (afterPass c it p)))
    else (s.bodyMicro e (passBlocks p) b).map fun m => m.state.putCur (m.engine.moveTo q (.pass it p m.pos))
  | .decrement => s.decActive e q (e.moveTo q .enterIdle)
  | .enterIdle => some (s.enterIdle e q)
  | .enterWait => s.enterWait e q
  | .polling => s.pollActive (e.moveTo q .halting)
  | .halting => s.haltAll
  | _ => none

/-- RUN.SCALAR (R133). -/
def execRunScalar (s : State) : Host.Outcome State Fault Refusal := s.act (s.runStep .scalar s.curIdx)

/-- RUN.VECTOR (R134). -/
def execRunVector (s : State) : Host.Outcome State Fault Refusal := s.act (s.runStep .vector s.curIdx)

/-- RUN.SPMD (R135). -/
def execRunSpmd (s : State) : Host.Outcome State Fault Refusal := s.act (s.runStep .spmd s.curIdx)

/-! ### The completion commands -/

/-- SYNC.DEC (R141): completes in its one event (R65). -/
def execSyncDec (s : State) : Host.Outcome State Fault Refusal :=
  s.act fun e q => s.decActive e q e.complete

/-- SYNC.WAIT (R142): the check and WAITING <- 1, then reads of ACTIVE until one returns 0. -/
def execSyncWait (s : State) : Host.Outcome State Fault Refusal :=
  s.act fun e q =>
    match q.pos with
    | .start => s.enterWait e q
    | .polling => s.pollActive e.complete
    | _ => none

/-- HALT (R143): BUSY stays 1, since the engine takes no further step. -/
def execHalt (s : State) : Host.Outcome State Fault Refusal := s.act fun _ _ => s.haltAll

/-- IDLE (R144): IDLE <- 1, then a hold with no step. -/
def execIdle (s : State) : Host.Outcome State Fault Refusal :=
  s.act fun e q =>
    match q.pos with
    | .start => some (s.enterIdle e q)
    | _ => none

end Sys2Proof.Machine
end

