-- ==== Sys2Proof/Machine/Dispatch.lean ====
section
/-! DEFINITION. One arm per command of spec/opcode_table.json, each a direct call of its meaning. -/

namespace Sys2Proof.Machine

def exec (i : Instr) (s : State) : Host.Outcome State Fault Refusal :=
  match i with
  | .hinitL l => Sys2Proof.Machine.execHinitL l s
  | .hinitV => Sys2Proof.Machine.execHinitV s
  | .wloadL l b => Sys2Proof.Machine.execWloadL l b s
  | .wloadV b => Sys2Proof.Machine.execWloadV b s
  | .wexpandL l => Sys2Proof.Machine.execWexpandL l s
  | .wexpandV => Sys2Proof.Machine.execWexpandV s
  | .compressL l => Sys2Proof.Machine.execCompressL l s
  | .compressV => Sys2Proof.Machine.execCompressV s
  | .hstoreL l => Sys2Proof.Machine.execHstoreL l s
  | .hstoreV => Sys2Proof.Machine.execHstoreV s
  | .processScalar n => Sys2Proof.Machine.execProcessScalar n s
  | .processVector n => Sys2Proof.Machine.execProcessVector n s
  | .processSpmd n => Sys2Proof.Machine.execProcessSpmd n s
  | .runScalar => Sys2Proof.Machine.execRunScalar s
  | .runVector => Sys2Proof.Machine.execRunVector s
  | .runSpmd => Sys2Proof.Machine.execRunSpmd s
  | .syncDec => Sys2Proof.Machine.execSyncDec s
  | .syncWait => Sys2Proof.Machine.execSyncWait s
  | .halt => Sys2Proof.Machine.execHalt s
  | .idle => Sys2Proof.Machine.execIdle s

end Sys2Proof.Machine
end

