-- ==== Sys2Proof/Machine/HostPort.lean ====
section
/-! DEFINITION. What the host's moves do (R173): the register window and its access rules (R34, R35, R41), memory (R53,
R57, R68) and reset (R170). -/

namespace Sys2Proof.Machine

/-- Engine `c`'s answer to a host read (R34): none where the register is unwritten (R41). -/
def Engine.regValue (e : Engine) (halted : Bool) (c : Nat) : Reg → Option Word
  | .cmd => some e.lastCmd
  | .status => some (e.status halted)
  | .finfo => some e.finfo
  | .ctxId => some (BitVec.ofNat 32 c)
  | .inPtr l => some (e.lane l).inPtr
  | .outPtr l => some (e.lane l).outPtr
  | .hash l j => if (e.lane l).hv then some (e.lane l).h[j] else none
  | .sched l i => if (if i.val < 16 then (e.lane l).wlv else (e.lane l).wev) then some (e.lane l).w[i] else none
  | .work l j => if (e.lane l).vv then some (e.lane l).v[j] else none
  | .valid l => some (e.lane l).valid
  | .reserved => some 0

/-- A host read of word number `r` of engine c's window: an unwritten register returns a free draw (R41), and so does a
window no engine has (log 16). -/
def State.hostReadReg (s : State) (c r : Nat) (d : Draw) : State :=
  { s with readData := ((s.engines[c]?).bind fun e => e.regValue s.ghalt c (regAt r)).getD d.word }

/-- The engine takes host writes (R35 b): BUSY, FAULT and HALTED are all 0. -/
def Engine.takesWrites (e : Engine) (halted : Bool) : Bool := !e.busy && e.fault.isNone && !halted

/-- A write of `v` to a register of an engine that takes writes (R35 a, c): CMD issues a command (R76), the lane tables
take any value, every other register ignores the write. -/
def Engine.writeReg (e : Engine) (v : Word) : Reg → Engine
  | .cmd => e.issue v
  | .inPtr l => e.updLane l fun x => { x with inPtr := v }
  | .outPtr l => e.updLane l fun x => { x with outPtr := v }
  | _ => e

/-- A host write to word number `r` of engine c's window; a window no engine has takes nothing (log 16). -/
def State.hostWriteReg (s : State) (c r : Nat) (v : Word) : State :=
  match s.engines[c]? with
  | none => s
  | some e => if e.takesWrites s.ghalt then { s with engines := s.engines.set c (e.writeReg v (regAt r)) } else s

/-- A host read of the shared window (R34): ACTIVE at word 0, a free draw while AV = 0 (R41), SHARED_STATUS at word 1,
0 elsewhere. -/
def State.hostReadShared (s : State) (r : Nat) (d : Draw) : State :=
  { s with
    readData :=
      if r = 0 then (if s.av then s.active else d.word) else if r = 1 then s.sharedStatus else 0 }

/-- A host write to the shared window (R35 a, d): ACTIVE takes the value and AV <- 1, unless GHALT = 1. -/
def State.hostWriteShared (s : State) (r : Nat) (v : Word) : State :=
  if r = 0 ∧ s.ghalt = false then { s with active := v, av := true } else s

/-- A host write of one byte (R53); where it falls in the word at HALT_ADDR it is a platform matter (R57). -/
def State.hostWriteByte (s : State) (a : Addr) (v : Byte) (d : Draw) : State :=
  if s.provides a.toNat then
    if s.cfg.haltAddr.toNat ≤ a.toNat ∧ a.toNat < s.cfg.haltAddr.toNat + 4 then s.portWrite (s.setByte a v) d
    else s.setByte a v
  else s

/-- A host read of one byte, zero-extended (R53); a byte the platform does not provide gives nothing. -/
def State.hostReadByte (s : State) (a : Addr) : State :=
  if s.provides a.toNat then { s with readData := (s.readByte a.toNat).setWidth 32 } else s

/-- A host move (R173). An access the memory does not admit has no effect. -/
def State.hostMove (s : State) (m : HostMove) (d : Draw) : State :=
  match m with
  | .writeReg c r v => s.hostWriteReg c r v
  | .readReg c r => s.hostReadReg c r d
  | .writeShared r v => s.hostWriteShared r v
  | .readShared r => s.hostReadShared r d
  | .writeWord a v => (s.storeWord a v d).getD s
  | .readWord a => ((s.loadWord a).map fun v => { s with readData := v }).getD s
  | .writeByte a v => s.hostWriteByte a v d
  | .readByte a => s.hostReadByte a
  | .reset => s.resetBlock

end Sys2Proof.Machine
end

