-- ==== Sys2Proof/Machine/Step.lean ====
section
/-! DEFINITION. One step of the block: one micro-step of one agent, in the total order of R60. -/

namespace Sys2Proof.Machine

/-- The micro-step of the engine whose turn it is: it runs the command word its sequencer holds. -/
def State.engineStep (s : State) : Host.Outcome State Fault Refusal :=
  match s.fetch with
  | none => s.actNothing
  | some w =>
    match decode w with
    | .command i => exec i s
    | .illegal _ => s.actIllegal

/-- One step: the next move of the order is made. -/
def step (s : State) : Host.Outcome State Fault Refusal :=
  match s.nextMove with
  | (.host m d, t) => .next (t.hostMove m d)
  | (.engine c d, t) => (t.withTurn c d).engineStep

/-- The engine that holds the placed command: engine 0 of the list, a fresh one where there is none. -/
def State.placed (engines : List Engine) (w : Word) : List Engine :=
  match engines with
  | [] => [Engine.reset.accept w]
  | e :: rest => { e with fault := none }.accept w :: rest

/-- `s` with the command word placed where the next step fetches: engine 0 has accepted it (R76), may step (no fault, no
halt), and the next move is engine 0's. This stands for the host's CMD write (log 4). -/
def State.withFetchWord (s : State) (nbits w : Nat) : State :=
  { s with
    engines := State.placed s.engines (tableWord nbits w)
    ghalt := false
    script := .engine 0 Draw.zero :: s.script }

end Sys2Proof.Machine
end

