-- ==== Sys2Proof/Safety.lean ====
section
/-! DEFINITION. The terms claims are stated in: an engine that may step, what a step keeps, a run of one engine alone, the
windows and blocks of a PROCESS (R125), the end of a run (R186), the invariant of the block and the completion barrier
(R145). -/

namespace Sys2Proof.Machine

/-! ### Situations -/

/-- Engine `e` has the turn, executes the command of sequencer `q`, and is neither faulted (R150) nor halted (R39). -/
abbrev State.running (s : State) (e : Engine) (q : Seq) : Prop :=
  s.cur = some e ∧ e.seq = some q ∧ s.ghalt = false ∧ e.fault = none

/-- Memory is in its canonical form. -/
abbrev State.memWf (s : State) : Prop := Mem.wf s.cfg.background s.mem = true

/-- Everything outside the engines and memory is as before. -/
def State.sharedKept (s t : State) : Prop :=
  t.cfg = s.cfg ∧ t.active = s.active ∧ t.av = s.av ∧ t.ghalt = s.ghalt ∧ t.turn = s.turn ∧ t.script = s.script ∧
    t.tick = s.tick ∧ t.readData = s.readData

/-- Everything outside the engines, memory and GHALT is as before. -/
def State.sharedKeptButHalt (s t : State) : Prop :=
  t.cfg = s.cfg ∧ t.active = s.active ∧ t.av = s.av ∧ t.turn = s.turn ∧ t.script = s.script ∧ t.tick = s.tick ∧
    t.readData = s.readData

/-- Every byte of memory reads as before. -/
def State.memKept (s t : State) : Prop := ∀ a, t.readByte a = s.readByte a

/-- Every byte of memory outside the word at `a` reads as before. -/
def State.memKeptOutside (s t : State) (a : Addr) : Prop :=
  ∀ b, b < a.toNat ∨ a.toNat + 4 ≤ b → t.readByte b = s.readByte b

/-- Every engine but the one whose turn it is is as before. -/
def State.othersKept (s t : State) : Prop :=
  t.engines.length = s.engines.length ∧ ∀ k, k ≠ s.curIdx → t.engines[k]? = s.engines[k]?

/-- CMD, the fault record, WAITING and IDLE are as before. -/
def Engine.controlKept (e e' : Engine) : Prop :=
  e'.lastCmd = e.lastCmd ∧ e'.fault = e.fault ∧ e'.waiting = e.waiting ∧ e'.idle = e.idle

/-- Every lane's registers are as before. -/
def Engine.lanesKept (e e' : Engine) : Prop := ∀ k, e'.lane k = e.lane k

/-- Every other lane's registers are as before. -/
def Engine.lanesKeptBut (e e' : Engine) (l : LaneNo) : Prop := ∀ k, k ≠ l → e'.lane k = e.lane k

/-! ### One engine alone -/

/-- The engine whose turn it is makes one micro-step of command `i` per draw, and no other agent moves. -/
def turns (i : Instr) : List Draw → State → Host.Outcome State Fault Refusal
  | [], s => .next s
  | d :: ds, s =>
    match exec i { s with turn := { s.turn with draw := d } } with
    | .next t => turns i ds t
    | .fault r => .fault r
    | .refused r => .refused r

/-- The PROCESS command of a strategy (R75). -/
def processInstr (st : Strategy) (n : BitVec 16) : Instr :=
  match st with
  | .scalar => .processScalar n
  | .vector => .processVector n
  | .spmd => .processSpmd n

/-- The RUN command of a strategy (R75). -/
def runInstr : Strategy → Instr
  | .scalar => .runScalar
  | .vector => .runVector
  | .spmd => .runSpmd

/-! ### Blocks and windows (R105, R125) -/

/-- Block `b` of a lane as memory holds it. -/
def State.blockAt (s : State) (x : Lane) (b : Nat) : Vector Word 16 := Vector.ofFn fun j => s.wordAt (x.blkaddr b j)

/-- The first `n` blocks of a lane as memory holds them. -/
def State.blocksAt (s : State) (x : Lane) (n : Nat) : List (Vector Word 16) := (List.range n).map (s.blockAt x)

/-- The digest of a lane's first `n` blocks as memory holds them (R112). -/
def State.digestOf (s : State) (x : Lane) (n : Nat) : Vector Word 8 := hashBlocks s.cfg.schedVariant (s.blocksAt x n)

/-- `a` lies in the lane's input window InWin(l, n) (R125). -/
def Lane.inWindow (x : Lane) (n : Nat) (a : Addr) : Prop := ∃ b k, b < n ∧ k < 64 ∧ a = x.blkaddr b 0 + BitVec.ofNat 32 k

/-- `a` lies in the lane's output window OutWin(l) (R125). -/
def Lane.outWindow (x : Lane) (a : Addr) : Prop := ∃ k, k < 32 ∧ a = x.outPtr + BitVec.ofNat 32 k

/-- Premises (i) and (ii) of R125: no lane's output window meets another lane's output or input window. -/
def Engine.windowsApart (e : Engine) (n : Nat) : Prop :=
  ∀ l k, l ≠ k → ∀ a, (e.lane l).outWindow a → ¬ (e.lane k).outWindow a ∧ ¬ (e.lane k).inWindow n a

/-- No digest word stands at HALT_ADDR. -/
def State.haltPortApart (s : State) (e : Engine) : Prop := ∀ (l : LaneNo) (j : Fin 8), (e.lane l).digaddr j ≠ s.cfg.haltAddr

/-- Memory admits every access of a PROCESS of `n` blocks (R54, R55). -/
def State.admitsProcess (s : State) (e : Engine) (n : Nat) : Prop :=
  ∀ l : LaneNo, (∀ b (j : Fin 16), b < n → s.admits ((e.lane l).blkaddr b j) = true) ∧
    ∀ j : Fin 8, s.admits ((e.lane l).digaddr j) = true

/-- The address the next micro-step of a body stores to, where it stores (R110, R111, R124). -/
def BodyPos.storeAddr (e : Engine) (d : Draw) : BodyPos → Option Addr
  | .scalar l (.store j) => some ((e.lane l).digaddr j)
  | .vector (.scatter j todo) => (pickLane todo d).map fun l => (e.lane l).digaddr j
  | .spmd ps =>
    match ps[d.lane] with
    | .store j => some ((e.lane d.lane).digaddr j)
    | _ => none
  | _ => none

/-- The address the next micro-step of a command at this position stores to, where it stores: the digest word of an
HSTORE or of a body (R110, R111), HALT_ADDR in HALT (R143). -/
def Pos.storeAddr (cfg : Config) (e : Engine) (d : Draw) (i : Instr) (p : Pos) : Option Addr :=
  match i, p with
  | .hstoreL l, .store j => some ((e.lane l).digaddr j)
  | .hstoreV, .scatter j todo => (pickLane todo d).map fun l => (e.lane l).digaddr j
  | .halt, _ => some cfg.haltAddr
  | _, .body b => b.storeAddr e d
  | _, .pass _ _ b => b.storeAddr e d
  | _, .halting => some cfg.haltAddr
  | _, _ => none

/-! ### The end of a run (R186) -/

/-- What is observed of a run (R19, R186): the memory and the registers. -/
structure Observation where
  mem : List Host.Cell
  engines : List Engine
  active : Word
  av : Bool
  ghalt : Bool
deriving DecidableEq, Repr

/-- The memory and the registers as they are (R19). -/
def State.observe (s : State) : Observation :=
  { mem := s.mem, engines := s.engines, active := s.active, av := s.av, ghalt := s.ghalt }

/-- No engine is faulted: what a successful end asks (R186, R150). -/
def State.noFault (s : State) : Prop := ∀ e ∈ s.engines, e.fault = none

/-- The engine was given RUN since reset: RUN is its last accepted command, and an engine that has accepted it accepts
nothing until reset (R174; log 22). -/
def Engine.gotRun (e : Engine) : Prop := ∃ st, decode e.lastCmd = .command (runInstr st)

/-- The step from `s` to `t` is the event that ends a pipeline run (R186): engines were given RUN, and this event, no
earlier one, sets GHALT = 1 (R143). -/
structure State.PipelineEnds (s t : State) : Prop where
  given : ∃ e ∈ s.engines, e.gotRun
  event : step s = .next t
  before : s.ghalt = false
  after : t.ghalt = true

/-- A pipeline run ends with the observation `o`: the memory and the registers at the event that ends it, whatever happens
later (R186). -/
def State.PipelineEndsWith (s : State) (o : Observation) : Prop := ∃ t, s.PipelineEnds t ∧ o = t.observe

/-- A pipeline run ends successfully with the observation `o`: no engine is faulted at the event (R186). -/
def State.PipelineSucceeds (s : State) (o : Observation) : Prop := ∃ t, s.PipelineEnds t ∧ t.noFault ∧ o = t.observe

/-- Neither engine `c` nor a lane agent of it has a step, whichever of them moves. -/
def State.noStep (s : State) (c : Nat) : Prop := ∀ d, (s.withTurn c d).engineStep = .next (s.withTurn c d)

/-- A deadlock (R186): some engine is busy, stuck (R154) or holding (R155), and no engine and no lane agent has a step.
The host, whose program is over, is not counted (log 22). This is not an end of a run. -/
structure State.Deadlocked (s : State) : Prop where
  running : s.ghalt = false
  held : ∃ e ∈ s.engines, e.busy = true ∧ e.fault = none
  noStep : ∀ c, c < s.engines.length → s.noStep c

/-- From `s` the moves `ms` are made, in this order, and lead to `t`. -/
def State.makes (s : State) : List Move → State → Prop
  | [], t => t = s
  | m :: ms, t => s.nextMove.1 = m ∧ ∃ u, step s = .next u ∧ u.makes ms t

/-- The command a move gives, where it is the host's write to a CMD register: the engine's number and the word. -/
def givenBy : Move → Option (Nat × Word)
  | .host (.writeReg c 0 w) _ => some (c, w)
  | _ => none

/-- The commands the host has given in some moves, in order. -/
def commandsGiven (ms : List Move) : List (Nat × Word) := ms.filterMap givenBy

/-- The commands of a command run: PROCESS and the primitive commands (R17, R186). -/
def inCommandRun : Instr → Bool
  | .hinitL _ | .hinitV | .wloadL _ _ | .wloadV _ | .wexpandL _ | .wexpandV | .compressL _ | .compressV | .hstoreL _
  | .hstoreV | .processScalar _ | .processVector _ | .processSpmd _ => true
  | .runScalar | .runVector | .runSpmd | .syncDec | .syncWait | .halt | .idle => false

/-- A host program of a command run: the words the host writes to CMD, each with its engine, in order. There is one, and
every word is a PROCESS or a primitive command (R186). -/
def isCommandProgram (p : List (Nat × Word)) : Prop :=
  p ≠ [] ∧ ∀ cw ∈ p, ∃ i, decode cw.2 = .command i ∧ inCommandRun i = true

/-- The command run of the program `p`, begun in `s`, is over after the moves `ms`, in `t`: the host has given all of `p`,
so the last command of every engine among it, every engine it gave commands to has BUSY = 0, and `t` is no deadlock
(R186). DESIGN CHOICE: a reset of the block may stand among the moves, and BUSY = 0 by that reset counts (log 23); `s`
is any state (log 24). -/
structure State.CommandRunOver (s : State) (p : List (Nat × Word)) (ms : List Move) (t : State) : Prop where
  program : isCommandProgram p
  run : s.makes ms t
  given : commandsGiven ms = p
  ready : ∀ cw ∈ p, ∀ e, t.engines[cw.1]? = some e → e.busy = false
  live : ¬ t.Deadlocked

/-- The command run of `p` ends with the last of the moves `ms`: it is over then, and was not before (R186). DESIGN CHOICE:
it may begin in any state, also one with GHALT = 1 or with an engine outside `p` stuck or faulted (log 24); it may hold a
reset (log 23). -/
def State.CommandRunEnds (s : State) (p : List (Nat × Word)) (ms : List Move) (t : State) : Prop :=
  s.CommandRunOver p ms t ∧ ∀ k, k < ms.length → ∀ u, ¬ s.CommandRunOver p (ms.take k) u

/-- The command run of `p` ends successfully: no engine of the block is faulted at its end, "a faulted state is never a
successful end" (R186), nor was one at any earlier state of the run, so that no reset passes over a fault (D14; log 23).
DESIGN CHOICE: a reset that clears no fault may stand in the run (log 23), and the run may begin in any state without a
fault (log 24). -/
def State.CommandRunSucceeds (s : State) (p : List (Nat × Word)) (ms : List Move) (t : State) : Prop :=
  s.CommandRunEnds p ms t ∧ ∀ k u, s.makes (ms.take k) u → u.noFault

/-! ### The invariant of the block -/

/-- A lane position is one of LaneSeq(l, n)'s (R121). -/
def LanePos.fits (n : Nat) : LanePos → Bool
  | .clear b | .load b _ | .mark b | .expand b | .compress b => decide (b < n)
  | .init | .store _ | .done => true

/-- The waiting lanes of a gather or scatter step: some, and none twice. -/
def todoFits (todo : List LaneNo) : Bool := decide (todo ≠ []) && decide todo.Nodup

/-- A vector position is one of PROCESS.VECTOR n's (R123). -/
def VecPos.fits (n : Nat) : VecPos → Bool
  | .clear b | .mark b | .expand b | .compress b => decide (b < n)
  | .gather b _ todo => decide (b < n) && todoFits todo
  | .scatter _ todo => todoFits todo
  | .init | .done => true

/-- A body position is one of the strategy's with `n` blocks (R122 to R124). -/
def BodyPos.fits (st : Strategy) (n : Nat) : BodyPos → Bool
  | .scalar _ p => decide (st = .scalar) && p.fits n && decide (p ≠ .done)
  | .vector p => decide (st = .vector) && p.fits n && decide (p ≠ .done)
  | .spmd ps => decide (st = .spmd) && allLanes.all fun l => ps[l].fits n
  | .finished => true

/-- A position is one of a RUN's of the strategy in context `c` (R132, R136). -/
def Pos.fitsRun (st : Strategy) (c : Nat) : Pos → Bool
  | .start | .tableIn _ _ | .tableOut _ _ => true
  | .pass _ p b => b.fits st (passBlocks p)
  | .decrement | .enterIdle | .idling => decide (c ≠ 0)
  | .enterWait | .polling | .halting => decide (c = 0)
  | _ => false

/-- A position is one of a PROCESS's (R122 to R124). -/
def Pos.fitsProcess (st : Strategy) (n : Nat) : Pos → Bool
  | .start => true
  | .body b => b.fits st n
  | _ => false

/-- A position is one of the command's in context `c` (R36). -/
def Pos.fits (c : Nat) (i : Instr) (p : Pos) : Bool :=
  match i, p with
  | .processScalar n, p => p.fitsProcess .scalar n.toNat
  | .processVector n, p => p.fitsProcess .vector n.toNat
  | .processSpmd n, p => p.fitsProcess .spmd n.toNat
  | .runScalar, p => p.fitsRun .scalar c
  | .runVector, p => p.fitsRun .vector c
  | .runSpmd, p => p.fitsRun .spmd c
  | _, .start => true
  | .wloadL _ _, .load _ => true
  | .wloadL _ _, .mark => true
  | .wloadV _, .gather _ todo => todoFits todo
  | .wloadV _, .mark => true
  | .hstoreL _, .store _ => true
  | .hstoreL _, .finish => true
  | .hstoreV, .scatter _ todo => todoFits todo
  | .hstoreV, .finish => true
  | .syncWait, .polling => true
  | .idle, .idling => true
  | _, _ => false

/-- The lane's registers that its next micro-step at this position of LaneSeq reads are written (R121: in a sequence the
primitives' checks hold by construction). -/
def LanePos.ready (x : Lane) : LanePos → Bool
  | .init | .done => true
  | .clear _ | .load _ _ | .mark _ | .store _ => x.hv
  | .expand _ => x.hv && x.wlv
  | .compress _ => x.hv && x.wlv && x.wev

/-- The same of one lane in the vector sequence (R123). -/
def VecPos.ready (x : Lane) : VecPos → Bool
  | .init | .done => true
  | .clear _ | .gather _ _ _ | .mark _ | .scatter _ _ => x.hv
  | .expand _ => x.hv && x.wlv
  | .compress _ => x.hv && x.wlv && x.wev

/-- The same of every lane a body's next micro-step may be of (R122 to R124). -/
def BodyPos.ready (e : Engine) : BodyPos → Bool
  | .scalar l p => p.ready (e.lane l)
  | .vector p => allLanes.all fun l => p.ready (e.lane l)
  | .spmd ps => allLanes.all fun l => ps[l].ready (e.lane l)
  | .finished => true

/-- No micro-step of a PROCESS or of a RUN's pass reads an unwritten register (R121). -/
def Pos.ready (e : Engine) : Pos → Bool
  | .body b | .pass _ _ b => b.ready e
  | _ => true

/-- The position of the command in progress, if any. -/
def Engine.pos? (e : Engine) : Option Pos := e.seq.map Seq.pos

/-- What holds of every lane (R27, R92, R108): an expanded schedule is of a loaded block, and a lane whose V is written
has a hash state. -/
def Lane.ok (x : Lane) : Prop := (x.wev = true → x.wlv = true) ∧ (x.vv = true → x.hv = true)

/-- What holds of engine `c` (R30 to R36, R150): CMD holds 0 or a legal word; a command in progress is the last accepted
one, legal, and at one of its positions; no micro-step of a sequence reads an unwritten register (R121); WAITING and
IDLE are 1 exactly in their holds; a faulted engine is not busy. -/
structure Engine.Ok (c : Nat) (e : Engine) : Prop where
  cmd : e.lastCmd = 0 ∨ ∃ i, decode e.lastCmd = .command i
  seq : ∀ q, e.seq = some q → q.cmd = e.lastCmd ∧ ∃ i, decode q.cmd = .command i ∧ q.pos.fits c i = true
  ready : ∀ q, e.seq = some q → q.pos.ready e = true
  waiting : e.waiting = true ↔ e.pos? = some .polling
  idle : e.idle = true ↔ e.pos? = some .idling
  fault : e.fault.isSome = true → e.seq = none
  lanes : ∀ l, (e.lane l).ok

/-- The invariant of the block: there is an engine, memory is canonical, and every engine is as it should be. -/
structure State.Inv (s : State) : Prop where
  engines : s.engines ≠ []
  mem : s.memWf
  ok : ∀ (c : Nat) (e : Engine), s.engines[c]? = some e → e.Ok c

/-! ### The completion barrier (R145) -/

/-- A RUN that has not yet made its completion's SYNC.DEC or reached its HALT's end: the position of engine `c`. -/
def Pos.inRun (c : Nat) : Pos → Bool
  | .start | .tableIn _ _ | .tableOut _ _ | .pass _ _ _ => true
  | .decrement | .enterIdle | .idling => decide (c ≠ 0)
  | .enterWait | .polling | .halting => decide (c = 0)
  | _ => false

/-- The worker has made its SYNC.DEC (R136). -/
def Engine.hasDecremented (e : Engine) : Bool :=
  decide (e.pos? = some .enterIdle) || decide (e.pos? = some .idling)

/-- The workers that have still to make their SYNC.DEC. -/
def State.pendingWorkers (s : State) : Nat := s.engines.tail.countP fun e => !e.hasDecremented

/-- Engine `c` executes a RUN and has not faulted. -/
def Engine.inRun (c : Nat) (e : Engine) : Prop :=
  e.fault = none ∧ ∃ q st, e.seq = some q ∧ decode q.cmd = .command (runInstr st) ∧ q.pos.inRun c = true

/-- A pipeline run in progress (R145): every engine executes its RUN, ACTIVE counts the workers that have still to
decrement, and context 0 is past SYNC.WAIT only if ACTIVE is 0. -/
structure State.Barrier (s : State) : Prop where
  size : s.engines.length ≤ 2 ^ 32
  written : s.av = true
  running : ∀ (c : Nat) (e : Engine), s.engines[c]? = some e → e.inRun c
  count : s.active.toNat = s.pendingWorkers
  terminator : ∀ e : Engine, s.engines[0]? = some e → e.pos? = some .halting → s.active = 0

end Sys2Proof.Machine
end

