-- ==== Sys2Proof/Certificates/Slice0/Obligations.lean ====
section
/-! DEFINITION. The statements for the provers. In all of them `s.running e q` says that engine `e` has the turn and
executes, at the position in `q`, the command named; an answer is one micro-step of it (R17). -/

open Sys2Proof Sys2Proof.Machine

/-! ### Encoding and decoding -/

/-- Decoding the word of any command gives the command back (R71, R75, R80). -/
def Obligations.EncodedCommandsDecodeBack : Prop :=
  ∀ i : Instr, decode (encode i) = .command i

/-- A word is legal exactly when a row of spec/opcode_table.json matches it, and it then stands for that row's command
(R76). -/
def Obligations.LegalWordsAreTheTableRows : Prop :=
  ∀ w : Word,
    (∀ i, decode w = .command i → ∃ r ∈ opcodeRows, r.mnemonic = i.mnemonic ∧ r.matches w = true) ∧
    (∀ r ∈ opcodeRows, r.matches w = true → ∃ i, decode w = .command i ∧ i.mnemonic = r.mnemonic)

/-- A legal word is the encoding of the command it stands for: no bit of it is dropped (R76, R79). -/
def Obligations.DecodedWordsEncodeBack : Prop :=
  ∀ (w : Word) (i : Instr), decode w = .command i → encode i = w

/-- The worked decodes of R82, and one word of each family from R80 and vector V-E1. -/
def Obligations.WorkedDecodesOfTheSpec : Prop :=
  decode 0x00040110 = .command (.processVector 4) ∧
  decode 0x00000311 = .illegal .unknownOp ∧
  decode 0x00001401 = .illegal .laneNotZero ∧
  decode 0x00000330 = .illegal .strategyNotZero ∧
  decode 0x00023002 = .command (.wloadL 3 2) ∧
  decode 0x00007004 = .command (.compressL 7) ∧
  decode 0x00000220 = .command .runSpmd ∧
  decode 0x00000031 = .command .syncWait

/-! ### A step -/

/-- A step in which an engine moves runs the command its sequencer holds, after giving it the turn; an engine with no
command, or faulted or halted, leaves the state as it is; and a word placed by `withFetchWord` runs next. The order of
moves and the placed word are the model's (log 2, log 4). -/
def Obligations.StepRunsTheDecodedCommand : Prop :=
  (∀ (s t : State) (c : Nat) (d : Draw) (w : Word) (i : Instr),
    s.nextMove = (.engine c d, t) → (t.withTurn c d).fetch = some w → decode w = .command i →
      step s = exec i (t.withTurn c d)) ∧
  (∀ (s t : State) (c : Nat) (d : Draw),
    s.nextMove = (.engine c d, t) → t.engines ≠ [] → (t.withTurn c d).fetch = none →
      step s = .next (t.withTurn c d)) ∧
  (∀ (s : State) (w : Nat) (i : Instr), decode (tableWord 32 w) = .command i →
      step (s.withFetchWord 32 w) =
        exec i ({ s.withFetchWord 32 w with script := s.script }.withTurn 0 Draw.zero))

/-! ### The host's window -/

/-- A word written to CMD of a ready engine: a legal one sets BUSY and is recorded as the last accepted command (R76); an
illegal one raises ILLEGAL_CMD with FINFO the word and does nothing else (R77, R151). -/
def Obligations.CmdWriteIssuesTheCommand : Prop :=
  ∀ (s : State) (c : Nat) (e : Engine) (w : Word) (d : Draw),
    s.engines[c]? = some e → e.seq = none → e.fault = none → s.ghalt = false →
    (∀ i, decode w = .command i →
      s.hostMove (.writeReg c 0 w) d =
        { s with engines := s.engines.set c { e with lastCmd := w, seq := some { cmd := w, pos := .start } } }) ∧
    (∀ r, decode w = .illegal r →
      let e' := { e with fault := some { cause := .illegalCmd, info := w }, seq := none, waiting := false }
      s.hostMove (.writeReg c 0 w) d = { s with engines := s.engines.set c e' })

/-- A host write to any register of an engine with BUSY, FAULT or HALTED has no effect (R35 b, R174). -/
def Obligations.WritesToUnreadyEnginesAreDropped : Prop :=
  ∀ (s : State) (c r : Nat) (e : Engine) (v : Word) (d : Draw),
    s.engines[c]? = some e → e.seq.isSome = true ∨ e.fault.isSome = true ∨ s.ghalt = true →
      s.hostMove (.writeReg c r v) d = s

/-- A host write to a ready engine reaches IN_PTR and OUT_PTR with any value and no other register but CMD (R34, R35 a,
c); ACTIVE takes a write and is then valid, unless GHALT = 1 (R35 d); SHARED_STATUS takes none. -/
def Obligations.HostWritesReachTheirRegisters : Prop :=
  (∀ (s : State) (c : Nat) (e : Engine) (v : Word) (d : Draw) (l : LaneNo),
    s.engines[c]? = some e → e.seq = none → e.fault = none → s.ghalt = false →
      s.hostMove (.writeReg c (16 + l.val) v) d =
        { s with engines := s.engines.set c { e with lanes := e.lanes.set l { e.lane l with inPtr := v } } } ∧
      s.hostMove (.writeReg c (32 + l.val) v) d =
        { s with engines := s.engines.set c { e with lanes := e.lanes.set l { e.lane l with outPtr := v } } } ∧
      ∀ r, (1 ≤ r ∧ r ≤ 15) ∨ 48 ≤ r → s.hostMove (.writeReg c r v) d = s) ∧
  (∀ (s : State) (v : Word) (d : Draw),
    (s.ghalt = false → s.hostMove (.writeShared 0 v) d = { s with active := v, av := true }) ∧
    (s.ghalt = true → s.hostMove (.writeShared 0 v) d = s) ∧
    s.hostMove (.writeShared 1 v) d = s)

/-- What the host reads at every offset of an engine's window and of the shared window (R30, R33, R34): a register's
word number is its byte offset divided by 4, and a group whose valid bit is 0 is left to another statement. CTX_ID as
the place in the engine list is the model's (log 14). -/
def Obligations.HostReadsTheRegisterMap : Prop :=
  (∀ (s : State) (c : Nat) (e : Engine) (d : Draw), s.engines[c]? = some e →
    (s.hostMove (.readReg c 0) d).readData = e.lastCmd ∧
    (s.hostMove (.readReg c 1) d).readData = e.status s.ghalt ∧
    (s.hostMove (.readReg c 2) d).readData = (e.fault.map FaultRecord.info).getD 0 ∧
    (s.hostMove (.readReg c 3) d).readData = BitVec.ofNat 32 c ∧
    (∀ r, (4 ≤ r ∧ r ≤ 15) ∨ (48 ≤ r ∧ r ≤ 63) ∨ (192 ≤ r ∧ r ≤ 255) ∨ 1424 ≤ r →
      (s.hostMove (.readReg c r) d).readData = 0) ∧
    ∀ l : LaneNo,
      (s.hostMove (.readReg c (16 + l.val)) d).readData = (e.lane l).inPtr ∧
      (s.hostMove (.readReg c (32 + l.val)) d).readData = (e.lane l).outPtr ∧
      (s.hostMove (.readReg c (1408 + l.val)) d).readData = (e.lane l).valid ∧
      (∀ j : Fin 8, (e.lane l).hv = true →
        (s.hostMove (.readReg c (64 + 8 * l.val + j.val)) d).readData = (e.lane l).h[j]) ∧
      (∀ i : Fin 64, (i.val < 16 → (e.lane l).wlv = true) → (16 ≤ i.val → (e.lane l).wev = true) →
        (s.hostMove (.readReg c (256 + 64 * l.val + i.val)) d).readData = (e.lane l).w[i]) ∧
      (∀ j : Fin 8, (e.lane l).vv = true →
        (s.hostMove (.readReg c (1280 + 8 * l.val + j.val)) d).readData = (e.lane l).v[j])) ∧
  (∀ (s : State) (d : Draw),
    (s.av = true → (s.hostMove (.readShared 0) d).readData = s.active) ∧
    (s.hostMove (.readShared 1) d).readData = s.sharedStatus)

/-- A host read of H, W, V or ACTIVE whose valid bit is 0 returns the free draw, whatever the register file holds (R41). -/
def Obligations.UnwrittenRegistersReadAsTheDraw : Prop :=
  (∀ (s : State) (c : Nat) (e : Engine) (d : Draw) (l : LaneNo), s.engines[c]? = some e →
    (∀ j : Fin 8, (e.lane l).hv = false →
      (s.hostMove (.readReg c (64 + 8 * l.val + j.val)) d).readData = d.word) ∧
    (∀ i : Fin 64, (i.val < 16 ∧ (e.lane l).wlv = false) ∨ (16 ≤ i.val ∧ (e.lane l).wev = false) →
      (s.hostMove (.readReg c (256 + 64 * l.val + i.val)) d).readData = d.word) ∧
    (∀ j : Fin 8, (e.lane l).vv = false →
      (s.hostMove (.readReg c (1280 + 8 * l.val + j.val)) d).readData = d.word)) ∧
  (∀ (s : State) (d : Draw), s.av = false → (s.hostMove (.readShared 0) d).readData = d.word)

/-- The fields of STATUS stand at the bits of R31's table, reserved bits read 0, and SHARED_STATUS and VALID[l] are laid
out as R34 says. -/
def Obligations.StatusFieldsStandWhereTheTableSays : Prop :=
  (∀ (e : Engine) (halted : Bool),
    (e.status halted).getLsbD 0 = e.seq.isSome ∧
    (e.status halted).getLsbD 1 = e.fault.isSome ∧
    (e.status halted).extractLsb' 2 2 = 0 ∧
    (e.fault = none → (e.status halted).extractLsb' 4 4 = 0 ∧ (e.status halted).extractLsb' 12 6 = 0) ∧
    (∀ w, e.fault = some { cause := .illegalCmd, info := w } →
      (e.status halted).extractLsb' 4 4 = 1 ∧ (e.status halted).extractLsb' 12 6 = 0) ∧
    (∀ w g l, e.fault = some { cause := .uninitRead g l, info := w } →
      (e.status halted).extractLsb' 4 4 = 2 ∧ (e.status halted).extractLsb' 12 4 = BitVec.ofNat 4 l.val ∧
        (e.status halted).extractLsb' 16 2 =
          match g with | .hash => 0 | .block => 1 | .schedule => 2 | .active => 3) ∧
    (e.status halted).getLsbD 8 = e.waiting ∧
    (e.status halted).getLsbD 9 = e.idle ∧
    (e.status halted).getLsbD 10 = halted ∧
    (e.status halted).getLsbD 11 = false ∧
    (e.status halted).extractLsb' 18 14 = 0) ∧
  (∀ s : State, s.sharedStatus.getLsbD 0 = s.av ∧ s.sharedStatus.getLsbD 1 = s.ghalt ∧ s.sharedStatus.extractLsb' 2 30 = 0) ∧
  (∀ x : Lane, x.valid.getLsbD 0 = x.hv ∧ x.valid.getLsbD 1 = x.wlv ∧ x.valid.getLsbD 2 = x.wev ∧
    x.valid.getLsbD 3 = x.vv ∧ x.valid.extractLsb' 4 28 = 0)

/-! ### Reset -/

/-- The reset event, a host's move: in one step every engine and the completion unit are at their reset values, and
memory, the parameters and the number of engines are as before (R170, R42). Reset as a move of the host is the model's
(log 17). -/
def Obligations.ResetEventRestoresResetValues : Prop :=
  ∀ (s u : State) (d : Draw), s.nextMove = (.host .reset d, u) →
    ∃ t, step s = .next t ∧
      (∀ e ∈ t.engines, e.lastCmd = 0 ∧ e.status false = 0 ∧ e.finfo = 0 ∧ e.seq = none ∧ e.fault = none ∧
        ∀ l, (e.lane l).valid = 0 ∧ (e.lane l).inPtr = 0 ∧ (e.lane l).outPtr = 0) ∧
      t.av = false ∧ t.ghalt = false ∧ t.sharedStatus = 0 ∧ t.engines.length = s.engines.length ∧
      t.cfg = s.cfg ∧ t.mem = s.mem ∧ s.memKept t

/-- State.reset is at the values R42's table gives, with no cell of memory listed and at least one engine; MEM_ENDIAN
and SCHED_VARIANT have their defaults (R7, R8, R42). That no cell is listed, and the opaque parameters, are the
model's (log 6, log 7). -/
def Obligations.ResetStateIsAsTheTable : Prop :=
  (∀ (c : Nat) (e : Engine), State.reset.engines[c]? = some e →
    e.lastCmd = 0 ∧ e.status State.reset.ghalt = 0 ∧ e.finfo = 0 ∧ e.seq = none ∧
      ∀ l, (e.lane l).valid = 0 ∧ (e.lane l).inPtr = 0 ∧ (e.lane l).outPtr = 0) ∧
  State.reset.engines.length = Config.openWorkers + 1 ∧
  State.reset.sharedStatus = 0 ∧ State.reset.mem = [] ∧
  State.reset.cfg.memEndian = .little ∧ State.reset.cfg.schedVariant = .source

/-! ### The pure functions -/

/-- Each bit of Ch is f's where e's is 1 and g's where it is 0; each bit of Maj is the majority (R85, R86). -/
def Obligations.ChooseAndMajorityAreBitwise : Prop :=
  ∀ (x y z : Word) (k : Nat), k < 32 →
    (ch x y z).getLsbD k = (if x.getLsbD k then y.getLsbD k else z.getLsbD k) ∧
    (maj x y z).getLsbD k = decide (2 ≤ (x.getLsbD k).toNat + (y.getLsbD k).toNat + (z.getLsbD k).toNat)

/-- The compression function is 64 rounds of R90 from the hash state, in ascending order, and the feed-forward (R91). -/
def Obligations.CompressIsSixtyFourRoundsAndFeedForward : Prop :=
  ∀ (h : Vector Word 8) (ws : Vector Word 64),
    ∃ x : Nat → Vector Word 8, x 0 = h ∧
      (∀ r : Fin 64,
        let t1 := (x r)[7] + bigSigma1 (x r)[4] + ch (x r)[4] (x r)[5] (x r)[6] + roundConstants[r] + ws[r]
        let t2 := bigSigma0 (x r)[0] + maj (x r)[0] (x r)[1] (x r)[2]
        x (r + 1) = #v[t1 + t2, (x r)[0], (x r)[1], (x r)[2], (x r)[3] + t1, (x r)[4], (x r)[5], (x r)[6]]) ∧
      afterRounds h ws = x 64 ∧ ∀ j : Fin 8, (compressed h ws)[j] = h[j] + (x 64)[j]

/-- The schedule: words 0 to 15 are the block's, and every later word follows the recurrence of the variant; the default
variant is SOURCE (R104). -/
def Obligations.ScheduleFollowsTheRecurrence : Prop :=
  Config.initial.schedVariant = .source ∧
  ∀ (v : SchedVariant) (w : Vector Word 64) (i : Nat) (hi : i < 64),
    (i < 16 → (expand v w)[i] = w[i]) ∧
    (16 ≤ i →
      (expand v w)[i] =
        match v with
        | .source =>
          bigSigma1 (expand v w)[i - 2] + (expand v w)[i - 7] + bigSigma0 (expand v w)[i - 15] + (expand v w)[i - 16]
        | .fips =>
          smallSigma1 (expand v w)[i - 2] + (expand v w)[i - 7] + smallSigma0 (expand v w)[i - 15] +
            (expand v w)[i - 16])

/-! ### Memory -/

/-- A word stored at an aligned address reads back whole; its bytes stand in the order MEM_ENDIAN says; every other
byte is kept (R13, R52). The canonical list is the model's (log 6). -/
def Obligations.StoredWordReadsBack : Prop :=
  ∀ (s : State) (a : Addr) (v : Word), s.memWf → a.toNat % 4 = 0 →
    (s.setWord a v).wordAt a = v ∧ s.memKeptOutside (s.setWord a v) a ∧ (s.setWord a v).memWf ∧
    ∀ k < 4, (s.setWord a v).readByte (a.toNat + k) =
      match s.cfg.memEndian with
      | .little => v.extractLsb' (8 * k) 8
      | .big => v.extractLsb' (24 - 8 * k) 8

/-- Two canonical memories that read alike at every address are the same data. The canonical list is the model's (log
6). -/
def Obligations.CanonicalMemoriesAreDetermined : Prop :=
  ∀ (bg : Byte) (m m' : List Host.Cell), Mem.wf bg m = true → Mem.wf bg m' = true →
    (∀ a, Mem.readByte bg m a = Mem.readByte bg m' a) → m = m'

/-! ### Block Feeder and Compression Core -/

/-- HINIT.L and HINIT.V complete in one micro-step: H = IV and HV = 1 in the lane or in all lanes, nothing else (R101,
R102); their words are those of the rules. Where BUSY falls is the model's (log 10). -/
def Obligations.HinitLoadsTheInitialHash : Prop :=
  (∀ l : LaneNo, decode (0x00000001 ||| (BitVec.ofNat 32 l.val <<< 12)) = .command (.hinitL l)) ∧
  decode 0x00000401 = .command .hinitV ∧
  ∀ (s : State) (e : Engine) (q : Seq), s.running e q →
    (∀ l, exec (.hinitL l) s = .next (s.putCur
      { e with lanes := e.lanes.set l { e.lane l with h := initialHash, hv := true }, seq := none })) ∧
    exec .hinitV s = .next (s.putCur
      { e with lanes := Vector.ofFn fun l => { e.lane l with h := initialHash, hv := true }, seq := none })

/-- The micro-steps of WLOAD.L (R106): WEV cleared; word j read from blkaddr(l, b, j), j ascending; then WLV set and
the command complete. The micro-step's granularity is the model's (log 1) and where BUSY falls too (log 10). -/
def Obligations.WloadLMakesItsMicroSteps : Prop :=
  ∀ (s : State) (e : Engine) (q : Seq) (l : LaneNo) (b : BitVec 16), s.running e q →
    (q.pos = .start →
      exec (.wloadL l b) s = .next (s.putCur
        { e with lanes := e.lanes.set l { e.lane l with wev := false }, seq := some { q with pos := .load 0 } })) ∧
    (∀ j : Fin 16, q.pos = .load j →
      s.admits ((e.lane l).inPtr + BitVec.ofNat 32 (64 * b.toNat) + BitVec.ofNat 32 (4 * j.val)) = true →
      exec (.wloadL l b) s = .next (s.putCur
        { e with
          lanes := e.lanes.set l { e.lane l with
            w := (e.lane l).w.set j.val
              (s.wordAt ((e.lane l).inPtr + BitVec.ofNat 32 (64 * b.toNat) + BitVec.ofNat 32 (4 * j.val))) }
          seq := some { q with pos := if h : j.val + 1 < 16 then .load ⟨j.val + 1, h⟩ else .mark } })) ∧
    (q.pos = .mark →
      exec (.wloadL l b) s = .next (s.putCur
        { e with lanes := e.lanes.set l { e.lane l with wlv := true }, seq := none }))

/-- WLOAD.L as a whole, no other agent moving: 18 micro-steps load the 16 words of the block, WLV = 1 and WEV = 0, the
command is complete, and memory, the lane's other registers and the other lanes are as before (R106). The micro-step's
granularity is the model's (log 1) and where BUSY falls too (log 10). -/
def Obligations.WloadLLoadsTheWholeBlock : Prop :=
  ∀ (s : State) (e : Engine) (q : Seq) (l : LaneNo) (b : BitVec 16) (ds : List Draw), s.running e q → q.pos = .start →
    (∀ j : Fin 16, s.admits ((e.lane l).blkaddr b.toNat j) = true) → ds.length = 18 →
    ∃ t e', turns (.wloadL l b) ds s = .next t ∧ t.cur = some e' ∧ e'.seq = none ∧ t.mem = s.mem ∧
      (∀ i : Fin 64, (e'.lane l).w[i] =
        if i.val < 16 then s.wordAt ((e.lane l).blkaddr b.toNat i.val) else (e.lane l).w[i]) ∧
      (e'.lane l).wlv = true ∧ (e'.lane l).wev = false ∧
      (e'.lane l).h = (e.lane l).h ∧ (e'.lane l).hv = (e.lane l).hv ∧ (e'.lane l).v = (e.lane l).v ∧
      (e'.lane l).vv = (e.lane l).vv ∧ (e'.lane l).inPtr = (e.lane l).inPtr ∧ (e'.lane l).outPtr = (e.lane l).outPtr ∧
      e.lanesKeptBut e' l ∧ e.controlKept e' ∧ s.othersKept t

/-- The micro-steps of WLOAD.V (R107): WEV cleared in every lane; in gather step j one waiting lane, the drawn one,
reads its word j, and once none waits step j + 1 begins; then WLV set in every lane and the command complete. The
micro-step's granularity is the model's (log 1) and where BUSY falls too (log 10), and the draw of an element (log
12). -/
def Obligations.WloadVMakesItsMicroSteps : Prop :=
  ∀ (s : State) (e : Engine) (q : Seq) (b : BitVec 16), s.running e q →
    (q.pos = .start →
      exec (.wloadV b) s = .next (s.putCur
        { e with
          lanes := Vector.ofFn fun l => { e.lane l with wev := false }
          seq := some { q with pos := .gather 0 (List.finRange 16) } })) ∧
    (∀ (j : Fin 16) (todo : List LaneNo) (l : LaneNo), q.pos = .gather j todo →
      todo[s.turn.draw.lane.val % todo.length]? = some l →
      s.admits ((e.lane l).inPtr + BitVec.ofNat 32 (64 * b.toNat) + BitVec.ofNat 32 (4 * j.val)) = true →
      let p : Pos :=
        if todo.erase l = [] then
          if h : j.val + 1 < 16 then .gather ⟨j.val + 1, h⟩ (List.finRange 16) else .mark
        else .gather j (todo.erase l)
      exec (.wloadV b) s = .next (s.putCur
        { e with
          lanes := e.lanes.set l { e.lane l with
            w := (e.lane l).w.set j.val
              (s.wordAt ((e.lane l).inPtr + BitVec.ofNat 32 (64 * b.toNat) + BitVec.ofNat 32 (4 * j.val))) }
          seq := some { q with pos := p } })) ∧
    (q.pos = .mark →
      exec (.wloadV b) s = .next (s.putCur
        { e with lanes := Vector.ofFn fun l => { e.lane l with wlv := true }, seq := none }))

/-- WLOAD.V as a whole, no other agent moving: whatever the order within each gather step, 258 micro-steps load every
lane's block, and memory is as before (R107, R69). The micro-step's granularity is the model's (log 1) and where BUSY
falls too (log 10), and the draw of an element (log 12). -/
def Obligations.WloadVLoadsEveryLane : Prop :=
  ∀ (s : State) (e : Engine) (q : Seq) (b : BitVec 16) (ds : List Draw), s.running e q → q.pos = .start →
    (∀ (l : LaneNo) (j : Fin 16), s.admits ((e.lane l).blkaddr b.toNat j) = true) → ds.length = 258 →
    ∃ t e', turns (.wloadV b) ds s = .next t ∧ t.cur = some e' ∧ e'.seq = none ∧ t.mem = s.mem ∧ s.othersKept t ∧
      e.controlKept e' ∧
      ∀ l, (∀ i : Fin 64, (e'.lane l).w[i] =
          if i.val < 16 then s.wordAt ((e.lane l).blkaddr b.toNat i.val) else (e.lane l).w[i]) ∧
        (e'.lane l).wlv = true ∧ (e'.lane l).wev = false ∧ (e'.lane l).h = (e.lane l).h ∧ (e'.lane l).v = (e.lane l).v

/-- WEXPAND.L and WEXPAND.V complete in one micro-step where W[0..15] is loaded: the schedule is Expand of it and WEV
= 1 (R108, R109). Where BUSY falls is the model's (log 10). -/
def Obligations.WexpandExpandsLoadedLanes : Prop :=
  ∀ (s : State) (e : Engine) (q : Seq), s.running e q →
    (∀ l, (e.lane l).wlv = true →
      exec (.wexpandL l) s = .next (s.putCur
        { e with
          lanes := e.lanes.set l { e.lane l with w := expand s.cfg.schedVariant (e.lane l).w, wev := true }
          seq := none })) ∧
    ((∀ l, (e.lane l).wlv = true) →
      exec .wexpandV s = .next (s.putCur
        { e with
          lanes := Vector.ofFn fun l => { e.lane l with w := expand s.cfg.schedVariant (e.lane l).w, wev := true }
          seq := none }))

/-- WEXPAND of an unloaded lane raises UNINIT_READ, group W[0..15], with the lane (.L) or the lowest unloaded lane (.V),
and changes no lane register (R108, R109, R150, R152). -/
def Obligations.WexpandFaultsOnUnloadedLanes : Prop :=
  ∀ (s : State) (e : Engine) (q : Seq) (l : LaneNo), s.running e q → (e.lane l).wlv = false →
    exec (.wexpandL l) s = .next (s.putCur
      { e with fault := some { cause := .uninitRead .block l, info := q.cmd }, seq := none, waiting := false }) ∧
    ((∀ k, k < l → (e.lane k).wlv = true) →
      exec .wexpandV s = .next (s.putCur
        { e with fault := some { cause := .uninitRead .block l, info := q.cmd }, seq := none, waiting := false }))

/-- COMPRESS.L and COMPRESS.V complete in one micro-step where the three groups are written: V is the state after
round 64, H the feed-forward of the old H, VV = 1; memory is untouched (R92, R93). Where BUSY falls is the model's
(log 10). -/
def Obligations.CompressFoldsTheBlock : Prop :=
  ∀ (s : State) (e : Engine) (q : Seq), s.running e q →
    (∀ l, (e.lane l).hv = true → (e.lane l).wlv = true → (e.lane l).wev = true →
      exec (.compressL l) s = .next (s.putCur
        { e with
          lanes := e.lanes.set l { e.lane l with
            v := afterRounds (e.lane l).h (e.lane l).w, vv := true, h := compressed (e.lane l).h (e.lane l).w }
          seq := none })) ∧
    ((∀ l, (e.lane l).hv = true ∧ (e.lane l).wlv = true ∧ (e.lane l).wev = true) →
      exec .compressV s = .next (s.putCur
        { e with
          lanes := Vector.ofFn fun l => { e.lane l with
            v := afterRounds (e.lane l).h (e.lane l).w, vv := true, h := compressed (e.lane l).h (e.lane l).w }
          seq := none }))

/-- COMPRESS of a lane with an unwritten group raises UNINIT_READ on the first one, H before W[0..15] before W[16..63],
and changes no lane register; COMPRESS.V reports the lowest such lane (R92, R93, R152, R156). -/
def Obligations.CompressFaultsInOrder : Prop :=
  ∀ (s : State) (e : Engine) (q : Seq) (l : LaneNo) (g : Group), s.running e q →
    ((e.lane l).hv = false ∧ g = .hash) ∨
      ((e.lane l).hv = true ∧ (e.lane l).wlv = false ∧ g = .block) ∨
      ((e.lane l).hv = true ∧ (e.lane l).wlv = true ∧ (e.lane l).wev = false ∧ g = .schedule) →
    exec (.compressL l) s = .next (s.putCur
      { e with fault := some { cause := .uninitRead g l, info := q.cmd }, seq := none, waiting := false }) ∧
    ((∀ k, k < l → (e.lane k).hv = true ∧ (e.lane k).wlv = true ∧ (e.lane k).wev = true) →
      exec .compressV s = .next (s.putCur
        { e with fault := some { cause := .uninitRead g l, info := q.cmd }, seq := none, waiting := false }))

/-- The micro-steps of HSTORE.L (R110): the check; digest word j written at digaddr(l, j), j
ascending; then BUSY cleared. The micro-step's granularity is the model's (log 1) and where BUSY falls too (log 10); a
store on HALT_ADDR is free (log 9). -/
def Obligations.HstoreLMakesItsMicroSteps : Prop :=
  ∀ (s : State) (e : Engine) (q : Seq) (l : LaneNo), s.running e q →
    (q.pos = .start → (e.lane l).hv = true →
      exec (.hstoreL l) s = .next (s.putCur { e with seq := some { q with pos := .store 0 } })) ∧
    (∀ j : Fin 8, q.pos = .store j → s.admits ((e.lane l).outPtr + BitVec.ofNat 32 (4 * j.val)) = true →
      (e.lane l).outPtr + BitVec.ofNat 32 (4 * j.val) ≠ s.cfg.haltAddr →
      exec (.hstoreL l) s = .next
        ((s.setWord ((e.lane l).outPtr + BitVec.ofNat 32 (4 * j.val)) (e.lane l).h[j]).putCur
          { e with seq := some { q with pos := if h : j.val + 1 < 8 then .store ⟨j.val + 1, h⟩ else .finish } })) ∧
    (∀ j : Fin 8, q.pos = .store j → s.admits s.cfg.haltAddr = true →
      (e.lane l).outPtr + BitVec.ofNat 32 (4 * j.val) = s.cfg.haltAddr →
      let t := if s.turn.draw.portStores then s.setWord s.cfg.haltAddr (e.lane l).h[j] else s
      exec (.hstoreL l) s = .next
        ({ t with ghalt := s.turn.draw.portHalts }.putCur
          { e with seq := some { q with pos := if h : j.val + 1 < 8 then .store ⟨j.val + 1, h⟩ else .finish } })) ∧
    (q.pos = .finish → exec (.hstoreL l) s = .next (s.putCur { e with seq := none }))

/-- HSTORE.L as a whole, no other agent moving and no digest word at HALT_ADDR: after 10 micro-steps the 8 digest
words stand at OUT_PTR[l] + 4·j, every byte outside them and every register is as before, and the command is complete
(R110). The micro-step's granularity is the model's (log 1) and where BUSY falls too (log 10); a store on HALT_ADDR is
free (log 9). -/
def Obligations.HstoreLStoresTheDigest : Prop :=
  ∀ (s : State) (e : Engine) (q : Seq) (l : LaneNo) (ds : List Draw), s.running e q → q.pos = .start → s.memWf →
    (e.lane l).hv = true → (∀ j : Fin 8, s.admits ((e.lane l).digaddr j) = true) →
    (∀ j : Fin 8, (e.lane l).digaddr j ≠ s.cfg.haltAddr) → ds.length = 10 →
    ∃ t e', turns (.hstoreL l) ds s = .next t ∧ t.cur = some e' ∧ e'.seq = none ∧
      (∀ j : Fin 8, t.wordAt ((e.lane l).digaddr j) = (e.lane l).h[j]) ∧
      (∀ a : Nat, (∀ j : Fin 8, a < ((e.lane l).digaddr j).toNat ∨ ((e.lane l).digaddr j).toNat + 4 ≤ a) →
        t.readByte a = s.readByte a) ∧
      e.lanesKept e' ∧ e.controlKept e' ∧ s.othersKept t ∧ t.ghalt = false

/-- The micro-steps of HSTORE.V (R111): the checks; in scatter step j one waiting lane, the drawn
one, writes its digest word j, and once none waits step j + 1 begins; then BUSY cleared. The micro-step's granularity
is the model's (log 1) and where BUSY falls too (log 10), and the draw of an element (log 12); a store on HALT_ADDR is
free (log 9). -/
def Obligations.HstoreVMakesItsMicroSteps : Prop :=
  ∀ (s : State) (e : Engine) (q : Seq), s.running e q →
    (q.pos = .start → (∀ l, (e.lane l).hv = true) →
      exec .hstoreV s = .next (s.putCur { e with seq := some { q with pos := .scatter 0 (List.finRange 16) } })) ∧
    (∀ (j : Fin 8) (todo : List LaneNo) (l : LaneNo), q.pos = .scatter j todo →
      todo[s.turn.draw.lane.val % todo.length]? = some l →
      s.admits ((e.lane l).outPtr + BitVec.ofNat 32 (4 * j.val)) = true →
      (e.lane l).outPtr + BitVec.ofNat 32 (4 * j.val) ≠ s.cfg.haltAddr →
      let p : Pos :=
        if todo.erase l = [] then
          if h : j.val + 1 < 8 then .scatter ⟨j.val + 1, h⟩ (List.finRange 16) else .finish
        else .scatter j (todo.erase l)
      exec .hstoreV s = .next
        ((s.setWord ((e.lane l).outPtr + BitVec.ofNat 32 (4 * j.val)) (e.lane l).h[j]).putCur
          { e with seq := some { q with pos := p } })) ∧
    (∀ (j : Fin 8) (todo : List LaneNo) (l : LaneNo), q.pos = .scatter j todo →
      todo[s.turn.draw.lane.val % todo.length]? = some l → s.admits s.cfg.haltAddr = true →
      (e.lane l).outPtr + BitVec.ofNat 32 (4 * j.val) = s.cfg.haltAddr →
      let p : Pos :=
        if todo.erase l = [] then
          if h : j.val + 1 < 8 then .scatter ⟨j.val + 1, h⟩ (List.finRange 16) else .finish
        else .scatter j (todo.erase l)
      let t := if s.turn.draw.portStores then s.setWord s.cfg.haltAddr (e.lane l).h[j] else s
      exec .hstoreV s = .next
        ({ t with ghalt := s.turn.draw.portHalts }.putCur { e with seq := some { q with pos := p } })) ∧
    (q.pos = .finish → exec .hstoreV s = .next (s.putCur { e with seq := none }))

/-- HSTORE of a lane whose H is unwritten raises UNINIT_READ, group H, before any write: of the lane (.L), or of the
lowest such lane (.V) (R110, R111, R152, R156). -/
def Obligations.HstoreFaultsOnUnwrittenHash : Prop :=
  ∀ (s : State) (e : Engine) (q : Seq) (l : LaneNo), s.running e q → q.pos = .start → (e.lane l).hv = false →
    exec (.hstoreL l) s = .next (s.putCur
      { e with fault := some { cause := .uninitRead .hash l, info := q.cmd }, seq := none, waiting := false }) ∧
    ((∀ k, k < l → (e.lane k).hv = true) →
      exec .hstoreV s = .next (s.putCur
        { e with fault := some { cause := .uninitRead .hash l, info := q.cmd }, seq := none, waiting := false }))

/-! ### Batch Strategy -/

/-- PROCESS.SCALAR (R122): its first micro-step is HINIT.L of lane 0; at each position of LaneSeq(l, n) it makes
exactly the primitive's effect on lane `l` and goes to the position R121 says; after lane l's last write comes lane l
+ 1, and after lane 15's the command completes. The micro-step's granularity is the model's (log 1) and where BUSY
falls too (log 10); a store on HALT_ADDR is free (log 9). -/
def Obligations.ProcessScalarRunsLaneByLane : Prop :=
  ∀ (s : State) (e : Engine) (q : Seq) (n : BitVec 16) (l : LaneNo), s.running e q →
    let run := exec (.processScalar n) s
    let goes := fun (x : Lane) (p : LanePos) =>
      .next (s.putCur { e with lanes := e.lanes.set l x, seq := some { q with pos := .body (.scalar l p) } })
    let x := e.lane l
    let after := fun b => if b < n.toNat then LanePos.clear b else .store 0
    (q.pos = .start → l = 0 → run = goes { x with h := initialHash, hv := true } (after 0)) ∧
    (q.pos = .body (.scalar l .init) → run = goes { x with h := initialHash, hv := true } (after 0)) ∧
    (∀ b, q.pos = .body (.scalar l (.clear b)) → run = goes { x with wev := false } (.load b 0)) ∧
    (∀ (b : Nat) (j : Fin 16), q.pos = .body (.scalar l (.load b j)) → s.admits (x.blkaddr b j) = true →
      run = goes { x with w := x.w.set j.val (s.wordAt (x.blkaddr b j)) }
        (if h : j.val + 1 < 16 then .load b ⟨j.val + 1, h⟩ else .mark b)) ∧
    (∀ b, q.pos = .body (.scalar l (.mark b)) → run = goes { x with wlv := true } (.expand b)) ∧
    (∀ b, q.pos = .body (.scalar l (.expand b)) →
      run = goes { x with w := expand s.cfg.schedVariant x.w, wev := true } (.compress b)) ∧
    (∀ b, q.pos = .body (.scalar l (.compress b)) →
      run = goes { x with v := afterRounds x.h x.w, vv := true, h := compressed x.h x.w } (after (b + 1))) ∧
    (∀ j : Fin 8, q.pos = .body (.scalar l (.store j)) → s.admits (x.digaddr j) = true → x.digaddr j ≠ s.cfg.haltAddr →
      let b : BodyPos :=
        if h : j.val + 1 < 8 then .scalar l (.store ⟨j.val + 1, h⟩)
        else if h : l.val + 1 < 16 then .scalar ⟨l.val + 1, h⟩ .init else .finished
      run = .next ((s.setWord (x.digaddr j) x.h[j]).putCur { e with seq := some { q with pos := .body b } })) ∧
    (q.pos = .body .finished → run = .next (s.putCur { e with seq := none }))

/-- PROCESS.VECTOR (R123): at each position of its sequence it makes exactly the .V primitive's effect, or one element
access of a gather or scatter step, by the drawn waiting lane (R69), and goes to the next position. The micro-step's
granularity is the model's (log 1) and where BUSY falls too (log 10), and the draw of an element (log 12); a store on HALT_ADDR is free (log 9). -/
def Obligations.ProcessVectorRunsOnePass : Prop :=
  ∀ (s : State) (e : Engine) (q : Seq) (n : BitVec 16), s.running e q →
    let run := exec (.processVector n) s
    let goes := fun (f : Lane → Lane) (p : VecPos) =>
      .next (s.putCur
        { e with lanes := Vector.ofFn fun l => f (e.lane l), seq := some { q with pos := .body (.vector p) } })
    let after := fun b => if b < n.toNat then VecPos.clear b else .scatter 0 (List.finRange 16)
    (q.pos = .start ∨ q.pos = .body (.vector .init) →
      run = goes (fun x => { x with h := initialHash, hv := true }) (after 0)) ∧
    (∀ b, q.pos = .body (.vector (.clear b)) →
      run = goes (fun x => { x with wev := false }) (.gather b 0 (List.finRange 16))) ∧
    (∀ (b : Nat) (j : Fin 16) (todo : List LaneNo) (l : LaneNo), q.pos = .body (.vector (.gather b j todo)) →
      pickLane todo s.turn.draw = some l → s.admits ((e.lane l).blkaddr b j) = true →
      let p : VecPos :=
        if todo.erase l = [] then
          if h : j.val + 1 < 16 then .gather b ⟨j.val + 1, h⟩ (List.finRange 16) else .mark b
        else .gather b j (todo.erase l)
      run = .next (s.putCur
        { e with
          lanes := e.lanes.set l { e.lane l with w := (e.lane l).w.set j.val (s.wordAt ((e.lane l).blkaddr b j)) }
          seq := some { q with pos := .body (.vector p) } })) ∧
    (∀ b, q.pos = .body (.vector (.mark b)) → run = goes (fun x => { x with wlv := true }) (.expand b)) ∧
    (∀ b, q.pos = .body (.vector (.expand b)) →
      run = goes (fun x => { x with w := expand s.cfg.schedVariant x.w, wev := true }) (.compress b)) ∧
    (∀ b, q.pos = .body (.vector (.compress b)) →
      run = goes (fun x => { x with v := afterRounds x.h x.w, vv := true, h := compressed x.h x.w }) (after (b + 1))) ∧
    (∀ (j : Fin 8) (todo : List LaneNo) (l : LaneNo), q.pos = .body (.vector (.scatter j todo)) →
      pickLane todo s.turn.draw = some l → s.admits ((e.lane l).digaddr j) = true →
      (e.lane l).digaddr j ≠ s.cfg.haltAddr →
      let p : BodyPos :=
        if todo.erase l = [] then
          if h : j.val + 1 < 8 then .vector (.scatter ⟨j.val + 1, h⟩ (List.finRange 16)) else .finished
        else .vector (.scatter j (todo.erase l))
      run = .next ((s.setWord ((e.lane l).digaddr j) (e.lane l).h[j]).putCur
        { e with seq := some { q with pos := .body p } })) ∧
    (q.pos = .body .finished → run = .next (s.putCur { e with seq := none }))

/-- PROCESS.SPMD (R124): the drawn lane agent makes its next micro-step of LaneSeq on its own lane's registers, the
other agents' positions and lanes staying as they are; a finished agent makes none; once all have finished comes the
join, and then the command completes. The micro-step's granularity is the model's (log 1) and where BUSY falls too
(log 10), and the agents' turns and the join (log 13); a store on HALT_ADDR is free (log 9). -/
def Obligations.ProcessSpmdRunsLaneAgents : Prop :=
  ∀ (s : State) (e : Engine) (q : Seq) (n : BitVec 16) (ps : Vector LanePos 16), s.running e q →
    q.pos = .body (.spmd ps) ∨ (q.pos = .start ∧ ps = Vector.replicate 16 .init) →
    let run := exec (.processSpmd n) s
    let l := s.turn.draw.lane
    let x := e.lane l
    let at' := fun (p : LanePos) => { q with pos := .body (.spmd (ps.set l p)) }
    let goes := fun (x : Lane) (p : LanePos) =>
      .next (s.putCur { e with lanes := e.lanes.set l x, seq := some (at' p) })
    let after := fun b => if b < n.toNat then LanePos.clear b else .store 0
    (ps[l] = .init → run = goes { x with h := initialHash, hv := true } (after 0)) ∧
    (∀ b, ps[l] = .clear b → run = goes { x with wev := false } (.load b 0)) ∧
    (∀ (b : Nat) (j : Fin 16), ps[l] = .load b j → s.admits (x.blkaddr b j) = true →
      run = goes { x with w := x.w.set j.val (s.wordAt (x.blkaddr b j)) }
        (if h : j.val + 1 < 16 then .load b ⟨j.val + 1, h⟩ else .mark b)) ∧
    (∀ b, ps[l] = .mark b → run = goes { x with wlv := true } (.expand b)) ∧
    (∀ b, ps[l] = .expand b →
      run = goes { x with w := expand s.cfg.schedVariant x.w, wev := true } (.compress b)) ∧
    (∀ b, ps[l] = .compress b →
      run = goes { x with v := afterRounds x.h x.w, vv := true, h := compressed x.h x.w } (after (b + 1))) ∧
    (∀ j : Fin 8, ps[l] = .store j → s.admits (x.digaddr j) = true → x.digaddr j ≠ s.cfg.haltAddr →
      run = .next ((s.setWord (x.digaddr j) x.h[j]).putCur
        { e with seq := some (at' (if h : j.val + 1 < 8 then .store ⟨j.val + 1, h⟩ else .done)) })) ∧
    (ps[l] = .done → (∃ k : LaneNo, ps[k] ≠ .done) → run = .next s) ∧
    ((∀ k : LaneNo, ps[k] = .done) →
      run = .next (s.putCur { e with seq := some { q with pos := .body .finished } })) ∧
    exec (.processSpmd n) (s.putCur { e with seq := some { q with pos := .body .finished } }) =
      .next (s.putCur { e with seq := none })

/-- The equivalence of R125, for an engine whose PROCESS no other agent disturbs: with output windows apart from every
other lane's windows and no digest word at HALT_ADDR (a store there is free, log 9), whatever the strategy, the
interleaving of lane agents and the order within gather and scatter steps, once the command has completed every lane's digest in memory and in H is HashBlocks of its `n` blocks as memory
held them at acceptance, and no byte outside the output windows has changed. -/
def Obligations.ProcessDigestsAreHashBlocks : Prop :=
  ∀ (st : Strategy) (n : BitVec 16) (s t : State) (e e' : Engine) (q : Seq) (ds : List Draw),
    s.running e q → q.pos = .start → s.memWf → e.windowsApart n.toNat → s.haltPortApart e →
    turns (processInstr st n) ds s = .next t → t.cur = some e' → e'.seq = none →
    (∀ (l : LaneNo) (j : Fin 8), t.wordAt ((e.lane l).digaddr j) = (s.digestOf (e.lane l) n.toNat)[j]) ∧
    (∀ l : LaneNo, (e'.lane l).h = s.digestOf (e.lane l) n.toNat) ∧
    (∀ a : Addr, (∀ l, ¬ (e.lane l).outWindow a) → t.readByte a.toNat = s.readByte a.toNat)

/-- What a completed PROCESS leaves in the registers under R125's premises and with no digest word at HALT_ADDR (log
9; R127, R128): HV = 1; with n ≥ 1, W the expansion of the last block, V the state after its round 64, all valid bits 1;
with n = 0, W, V and their bits as before. The lane tables and CMD are as before. -/
def Obligations.ProcessLeavesItsRegisters : Prop :=
  ∀ (st : Strategy) (n : BitVec 16) (s t : State) (e e' : Engine) (q : Seq) (ds : List Draw),
    s.running e q → q.pos = .start → s.memWf → e.windowsApart n.toNat → s.haltPortApart e →
    turns (processInstr st n) ds s = .next t → t.cur = some e' → e'.seq = none →
    e.controlKept e' ∧
    ∀ l : LaneNo, (e'.lane l).hv = true ∧ (e'.lane l).inPtr = (e.lane l).inPtr ∧ (e'.lane l).outPtr = (e.lane l).outPtr ∧
      (n.toNat = 0 →
        (e'.lane l).w = (e.lane l).w ∧ (e'.lane l).v = (e.lane l).v ∧ (e'.lane l).wlv = (e.lane l).wlv ∧
          (e'.lane l).wev = (e.lane l).wev ∧ (e'.lane l).vv = (e.lane l).vv) ∧
      (1 ≤ n.toNat →
        let w := expand s.cfg.schedVariant (blockFile (s.blockAt (e.lane l) (n.toNat - 1)))
        (e'.lane l).w = w ∧ (e'.lane l).v = afterRounds (s.digestOf (e.lane l) (n.toNat - 1)) w ∧
          (e'.lane l).wlv = true ∧ (e'.lane l).wev = true ∧ (e'.lane l).vv = true)

/-- A PROCESS whose accesses memory admits, and whose digests stand away from HALT_ADDR, can complete: some choice of
draws brings it to BUSY = 0 (R122 to R124, R155). -/
def Obligations.ProcessCompletesWhereAdmitted : Prop :=
  ∀ (st : Strategy) (n : BitVec 16) (s : State) (e : Engine) (q : Seq),
    s.running e q → q.pos = .start → s.haltPortApart e → s.admitsProcess e n.toNat →
    ∃ ds t e', turns (processInstr st n) ds s = .next t ∧ t.cur = some e' ∧ e'.seq = none ∧ e'.fault = none

/-! ### Pipeline Driver -/

/-- RUN's table steps (R130 to R132): pass 1 sets IN_PTR[l] = BASE + 4096·c + 32·l and OUT_PTR[l] 1024 bytes above,
pass 2 both 1024 bytes above that; nothing else changes; each strategy then starts its body. Pass 1 folds 4 blocks,
pass 2 one. That each table is one micro-step is the model's (log 11). -/
def Obligations.RunWritesThePassTables : Prop :=
  (passBlocks .first = 4 ∧ passBlocks .second = 1) ∧
  ∀ (st : Strategy) (s : State) (e : Engine) (q : Seq) (it : Fin 4) (p : Pass), s.running e q →
    let input := fun (l : LaneNo) => s.cfg.base + BitVec.ofNat 32 (4096 * s.curIdx) + BitVec.ofNat 32 (32 * l.val)
    let shift := match p with | .first => (0 : Addr) | .second => 1024
    (q.pos = .tableIn it p ∨ (q.pos = .start ∧ it = 0 ∧ p = .first) →
      exec (runInstr st) s = .next (s.putCur
        { e with
          lanes := Vector.ofFn fun l => { e.lane l with inPtr := input l + shift }
          seq := some { q with pos := .tableOut it p } })) ∧
    (q.pos = .tableOut it p →
      let b : BodyPos :=
        match st with
        | .scalar => .scalar 0 .init
        | .vector => .vector .init
        | .spmd => .spmd (Vector.replicate 16 .init)
      exec (runInstr st) s = .next (s.putCur
        { e with
          lanes := Vector.ofFn fun l => { e.lane l with outPtr := input l + shift + 1024 }
          seq := some { q with pos := .pass it p b } }))

/-- RUN's passes (R132): inside a pass the engine makes the micro-step that a PROCESS of the pass's block count makes
at the same position of its body, and none where that makes none; once the body has finished comes the second pass, or
the next of the four iterations, or after the last the completion, SYNC.WAIT in context 0, SYNC.DEC in every other
(R136). The micro-step's granularity is the model's (log 1), and the step that ends a pass (log 11). -/
def Obligations.RunRunsPassesInOrder : Prop :=
  ∀ (st : Strategy) (s : State) (e : Engine) (q : Seq) (it : Fin 4) (p : Pass), s.running e q →
    (∀ (b : BodyPos) (m : Micro BodyPos), b ≠ .finished → s.bodyMicro e (passBlocks p) b = some m →
      (q.pos = .pass it p b →
        exec (runInstr st) s =
          .next (m.state.putCur { m.engine with seq := some { q with pos := .pass it p m.pos } })) ∧
      ∀ n : BitVec 16, n.toNat = passBlocks p → q.pos = .body b →
        exec (processInstr st n) s =
          .next (m.state.putCur { m.engine with seq := some { q with pos := .body m.pos } })) ∧
    (∀ b : BodyPos, b ≠ .finished → s.bodyMicro e (passBlocks p) b = none →
      (q.pos = .pass it p b → exec (runInstr st) s = .next s) ∧
      ∀ n : BitVec 16, n.toNat = passBlocks p → q.pos = .body b → exec (processInstr st n) s = .next s) ∧
    (q.pos = .pass it p .finished →
      let next : Pos :=
        match p with
        | .first => .tableIn it .second
        | .second =>
          if h : it.val + 1 < 4 then .tableIn ⟨it.val + 1, h⟩ .first
          else if s.curIdx = 0 then .enterWait else .decrement
      exec (runInstr st) s = .next (s.putCur { e with seq := some { q with pos := next } }))

/-- The double hash of RUN (R131, R132, R137, R138), of an engine no other agent disturbs and with HALT_ADDR away from its
digest words. Where memory admits its regions, some choice of draws brings it to its completion. And whenever it is
there, whatever the strategy and the draws: every lane's scratch words are HashBlocks of the lane's four input blocks as
memory held them at the start, every lane's output words HashBlocks of the one block at its scratch address, no other
byte of memory has changed, and the lane tables are those of pass 2. -/
def Obligations.RunLeavesDoubleHashes : Prop :=
  ∀ (st : Strategy) (s : State) (e : Engine) (q : Seq),
    s.running e q → q.pos = .start → s.memWf →
    let region := fun (r : Nat) (l : LaneNo) =>
      s.cfg.base + BitVec.ofNat 32 (4096 * s.curIdx + 1024 * r + 32 * l.val)
    let lane := fun (r : Nat) (l : LaneNo) => { Lane.reset with inPtr := region r l }
    let completion : Pos := if s.curIdx = 0 then .enterWait else .decrement
    (∀ (l : LaneNo) (j : Fin 8), region 1 l + BitVec.ofNat 32 (4 * j.val) ≠ s.cfg.haltAddr ∧
      region 2 l + BitVec.ofNat 32 (4 * j.val) ≠ s.cfg.haltAddr) →
    ((∀ k < 768, s.admits (s.cfg.base + BitVec.ofNat 32 (4096 * s.curIdx + 4 * k)) = true) →
      ∃ (ds : List Draw) (t : State) (e' : Engine),
        turns (runInstr st) ds s = .next t ∧ t.cur = some e' ∧ e'.pos? = some completion) ∧
    ∀ (ds : List Draw) (t : State) (e' : Engine),
      turns (runInstr st) ds s = .next t → t.cur = some e' → e'.pos? = some completion →
      (∀ (l : LaneNo) (j : Fin 8),
        t.wordAt (region 1 l + BitVec.ofNat 32 (4 * j.val)) = (s.digestOf (lane 0 l) 4)[j] ∧
        t.wordAt (region 2 l + BitVec.ofNat 32 (4 * j.val)) = (t.digestOf (lane 1 l) 1)[j]) ∧
      (∀ a : Addr,
        (∀ (l : LaneNo) (k : Nat), k < 32 → a ≠ region 1 l + BitVec.ofNat 32 k ∧ a ≠ region 2 l + BitVec.ofNat 32 k) →
        t.readByte a.toNat = s.readByte a.toNat) ∧
      ∀ l : LaneNo, (e'.lane l).inPtr = region 1 l ∧ (e'.lane l).outPtr = region 2 l

/-- The completion of a worker (R136): SYNC.DEC in one event, then IDLE <- 1, then a hold with no step; where ACTIVE
was never written, UNINIT_READ with the RUN's word (R141, R144). The micro-step's granularity is the model's (log 1). -/
def Obligations.RunWorkerDecrementsAndIdles : Prop :=
  ∀ (st : Strategy) (s : State) (e : Engine) (q : Seq), s.running e q →
    (q.pos = .decrement → s.av = true →
      exec (runInstr st) s = .next
        ({ s with active := s.active - 1 }.putCur { e with seq := some { q with pos := .enterIdle } })) ∧
    (q.pos = .decrement → s.av = false →
      exec (runInstr st) s = .next (s.putCur
        { e with fault := some { cause := .uninitRead .active 0, info := q.cmd }, seq := none, waiting := false })) ∧
    (q.pos = .enterIdle →
      exec (runInstr st) s = .next (s.putCur { e with idle := true, seq := some { q with pos := .idling } })) ∧
    (q.pos = .idling → exec (runInstr st) s = .next s)

/-- The completion of context 0 (R136): the check and WAITING <- 1; a hold while ACTIVE is not 0; then HALT, which
writes HALT_VALUE at HALT_ADDR and sets GHALT in one event (R142, R143). The micro-step's granularity is the model's
(log 1). -/
def Obligations.RunTerminatorWaitsAndHalts : Prop :=
  ∀ (st : Strategy) (s : State) (e : Engine) (q : Seq), s.running e q →
    (q.pos = .enterWait → s.av = true →
      exec (runInstr st) s = .next (s.putCur { e with waiting := true, seq := some { q with pos := .polling } })) ∧
    (q.pos = .enterWait → s.av = false →
      exec (runInstr st) s = .next (s.putCur
        { e with fault := some { cause := .uninitRead .active 0, info := q.cmd }, seq := none, waiting := false })) ∧
    (q.pos = .polling → s.active ≠ 0 → exec (runInstr st) s = .next s) ∧
    (q.pos = .polling → s.active = 0 →
      exec (runInstr st) s = .next (s.putCur { e with waiting := false, seq := some { q with pos := .halting } })) ∧
    (q.pos = .halting → s.admits s.cfg.haltAddr = true →
      exec (runInstr st) s = .next { s.setWord s.cfg.haltAddr s.cfg.haltValue with ghalt := true })

/-! ### Completion commands -/

/-- SYNC.DEC (R141, R65): one event decrements ACTIVE modulo 2^32 and completes; with ACTIVE unwritten it raises
UNINIT_READ, group ACTIVE, lane 0. That the event also clears BUSY is the model's (log 10). -/
def Obligations.SyncDecDecrementsOnce : Prop :=
  decode 0x00000030 = .command .syncDec ∧
  ∀ (s : State) (e : Engine) (q : Seq), s.running e q →
    (s.av = true →
      exec .syncDec s = .next ({ s with active := BitVec.ofNat 32 (s.active.toNat + (2 ^ 32 - 1)) }.putCur
        { e with seq := none })) ∧
    (s.av = false →
      exec .syncDec s = .next (s.putCur
        { e with fault := some { cause := .uninitRead .active 0, info := q.cmd }, seq := none, waiting := false }))

/-- SYNC.WAIT (R142): the check and WAITING <- 1; while ACTIVE is not 0 no step; a read of 0 clears WAITING and
completes, ACTIVE unchanged; with ACTIVE unwritten it raises UNINIT_READ, group ACTIVE. The micro-step's granularity
is the model's (log 1) and where BUSY falls too (log 10). -/
def Obligations.SyncWaitHoldsUntilZero : Prop :=
  decode 0x00000031 = .command .syncWait ∧
  ∀ (s : State) (e : Engine) (q : Seq), s.running e q →
    (q.pos = .start → s.av = true →
      exec .syncWait s = .next (s.putCur { e with waiting := true, seq := some { q with pos := .polling } })) ∧
    (q.pos = .start → s.av = false →
      exec .syncWait s = .next (s.putCur
        { e with fault := some { cause := .uninitRead .active 0, info := q.cmd }, seq := none, waiting := false })) ∧
    (q.pos = .polling → s.active ≠ 0 → exec .syncWait s = .next s) ∧
    (q.pos = .polling → s.active = 0 →
      exec .syncWait s = .next (s.putCur { e with waiting := false, seq := none }))

/-- HALT (R143, R39): where HALT_ADDR is admitted, one event writes HALT_VALUE there and sets GHALT, whatever ACTIVE holds
and whatever the other engines do; every engine then reads HALTED = 1 in STATUS, and no command of any engine takes a
further step. Where HALT_ADDR is not admitted HALT has no step. -/
def Obligations.HaltStopsEveryEngine : Prop :=
  decode 0x00000032 = .command .halt ∧
  ∀ (s : State) (e : Engine) (q : Seq), s.running e q →
    (s.admits s.cfg.haltAddr = false → exec .halt s = .next s) ∧
    (s.memWf → s.admits s.cfg.haltAddr = true →
      ∃ t, exec .halt s = .next t ∧ t.ghalt = true ∧ t.wordAt s.cfg.haltAddr = s.cfg.haltValue ∧
        s.memKeptOutside t s.cfg.haltAddr ∧ t.engines = s.engines ∧ t.active = s.active ∧ t.av = s.av ∧
        (∀ (c : Nat) (f : Engine), t.engines[c]? = some f →
          (t.hostMove (.readReg c 1) Draw.zero).readData.getLsbD 10 = true) ∧
        ∀ (i : Instr) (k : Nat) (d : Draw), exec i (t.withTurn k d) = .next (t.withTurn k d))

/-- IDLE (R144): IDLE <- 1, BUSY staying 1, and then a hold with no step of its own. -/
def Obligations.IdleHoldsUntilTheHalt : Prop :=
  decode 0x00000033 = .command .idle ∧
  ∀ (s : State) (e : Engine) (q : Seq), s.running e q →
    (q.pos = .start →
      exec .idle s = .next (s.putCur { e with idle := true, seq := some { q with pos := .idling } })) ∧
    (q.pos = .idling → exec .idle s = .next s)

/-! ### Accesses memory does not admit -/

/-- An engine or lane agent whose next micro-step is an access memory does not admit, misaligned or not provided, has
no step: nothing changes, no fault is recorded and BUSY stays 1 (R54, R55, R154). The reads are those of WLOAD, of
PROCESS and of RUN's passes; the writes those of HSTORE, PROCESS, RUN and HALT. That no step is an unchanged state
is the model's (log 2, log 8). -/
def Obligations.UnadmittedAccessesHaveNoStep : Prop :=
  ∀ (s : State) (e : Engine) (q : Seq), s.running e q →
    (∀ l b (j : Fin 16), q.pos = .load j → s.admits ((e.lane l).blkaddr b.toNat j) = false →
      exec (.wloadL l b) s = .next s) ∧
    (∀ l b (j : Fin 16) todo, q.pos = .gather j todo → pickLane todo s.turn.draw = some l →
      s.admits ((e.lane l).blkaddr b.toNat j) = false → exec (.wloadV b) s = .next s) ∧
    (∀ i a, q.pos.storeAddr s.cfg e s.turn.draw i = some a → s.admits a = false →
      (i = .hstoreV ∨ i = .halt ∨ (∃ l, i = .hstoreL l) ∨ (∃ st n, i = processInstr st n) ∨ ∃ st, i = runInstr st) →
      exec i s = .next s) ∧
    (∀ n l b (j : Fin 16), q.pos = .body (.scalar l (.load b j)) → s.admits ((e.lane l).blkaddr b j) = false →
      exec (.processScalar n) s = .next s) ∧
    (∀ n b (j : Fin 16) (ps : Vector LanePos 16), q.pos = .body (.spmd ps) → ps[s.turn.draw.lane] = .load b j →
      s.admits ((e.lane s.turn.draw.lane).blkaddr b j) = false → exec (.processSpmd n) s = .next s) ∧
    (∀ n b (j : Fin 16) todo l, q.pos = .body (.vector (.gather b j todo)) → pickLane todo s.turn.draw = some l →
      s.admits ((e.lane l).blkaddr b j) = false → exec (.processVector n) s = .next s) ∧
    (∀ st it p l b (j : Fin 16), q.pos = .pass it p (.scalar l (.load b j)) →
      s.admits ((e.lane l).blkaddr b j) = false → exec (runInstr st) s = .next s) ∧
    (∀ st it p b (j : Fin 16) todo l, q.pos = .pass it p (.vector (.gather b j todo)) →
      pickLane todo s.turn.draw = some l → s.admits ((e.lane l).blkaddr b j) = false →
      exec (runInstr st) s = .next s) ∧
    (∀ st it p b (j : Fin 16) (ps : Vector LanePos 16), q.pos = .pass it p (.spmd ps) →
      ps[s.turn.draw.lane] = .load b j → s.admits ((e.lane s.turn.draw.lane).blkaddr b j) = false →
      exec (runInstr st) s = .next s) ∧
    ∀ a : Addr, (a.toNat % 4 ≠ 0 ∨ ∃ k < 4, ∀ r ∈ s.cfg.regions, a.toNat + k < r.base ∨ r.base + r.size ≤ a.toNat + k) →
      s.admits a = false

/-! ### Frames -/

/-- The register-only commands HINIT, WEXPAND and COMPRESS, .L and .V: no byte of memory, no lane table, no other engine,
no shared state and no status but BUSY and a fault's changes; a .L form changes no other lane; HINIT changes no W or V,
WEXPAND no H, V or W[0..15] load bit, COMPRESS no W (R92, R93, R101, R102, R108, R109). -/
def Obligations.RegisterOnlyCommandsFrame : Prop :=
  ∀ (i : Instr) (s t : State) (e e' : Engine) (q : Seq), s.running e q → exec i s = .next t → t.cur = some e' →
    (∃ l, i = .hinitL l ∨ i = .wexpandL l ∨ i = .compressL l) ∨ i = .hinitV ∨ i = .wexpandV ∨ i = .compressV →
    s.memKept t ∧ s.sharedKept t ∧ s.othersKept t ∧ e'.lastCmd = e.lastCmd ∧ e'.idle = e.idle ∧
    (e'.fault = none → e'.waiting = e.waiting) ∧ (e'.fault ≠ none → e.lanesKept e') ∧
    (∀ l, i = .hinitL l ∨ i = .wexpandL l ∨ i = .compressL l → e.lanesKeptBut e' l) ∧
    ∀ k, (e'.lane k).inPtr = (e.lane k).inPtr ∧ (e'.lane k).outPtr = (e.lane k).outPtr ∧
      (e'.lane k).wlv = (e.lane k).wlv ∧
      (i = .hinitV ∨ (∃ l, i = .hinitL l) →
        (e'.lane k).w = (e.lane k).w ∧ (e'.lane k).v = (e.lane k).v ∧ (e'.lane k).wev = (e.lane k).wev ∧
          (e'.lane k).vv = (e.lane k).vv) ∧
      (i = .wexpandV ∨ (∃ l, i = .wexpandL l) →
        (e'.lane k).h = (e.lane k).h ∧ (e'.lane k).v = (e.lane k).v ∧ (e'.lane k).hv = (e.lane k).hv ∧
          (e'.lane k).vv = (e.lane k).vv ∧ ∀ j : Fin 16, (e'.lane k).w[j.val] = (e.lane k).w[j.val]) ∧
      (i = .compressV ∨ (∃ l, i = .compressL l) →
        (e'.lane k).w = (e.lane k).w ∧ (e'.lane k).wev = (e.lane k).wev ∧ (e'.lane k).hv = (e.lane k).hv)

/-- WLOAD.L and WLOAD.V, at every micro-step: no byte of memory changes, no shared state, no other engine, no status
but BUSY; no lane's H, V, tables or W[16..63]; and .L changes no other lane (R57, R106, R107). The micro-step's
granularity is the model's (log 1). -/
def Obligations.LoadCommandsFrame : Prop :=
  ∀ (i : Instr) (s t : State) (e e' : Engine) (q : Seq), s.running e q → exec i s = .next t → t.cur = some e' →
    (∃ l b, i = .wloadL l b) ∨ (∃ b, i = .wloadV b) →
    s.memKept t ∧ s.sharedKept t ∧ s.othersKept t ∧ e.controlKept e' ∧
    (∀ l b, i = .wloadL l b → e.lanesKeptBut e' l) ∧
    ∀ k, (e'.lane k).h = (e.lane k).h ∧ (e'.lane k).v = (e.lane k).v ∧ (e'.lane k).hv = (e.lane k).hv ∧
      (e'.lane k).vv = (e.lane k).vv ∧ (e'.lane k).inPtr = (e.lane k).inPtr ∧
      (e'.lane k).outPtr = (e.lane k).outPtr ∧
      ∀ m : Fin 64, 16 ≤ m.val → (e'.lane k).w[m] = (e.lane k).w[m]

/-- HSTORE.L and HSTORE.V, at every micro-step: the only bytes of memory that change are those of the digest word the
micro-step stores, at the address computed from the lane's OUT_PTR, and none where it stores nothing; every register
of every lane is as before; GHALT is as before unless the address is HALT_ADDR (R57, R110, R111). The micro-step's
granularity is the model's (log 1); a store on HALT_ADDR is free (log 9). -/
def Obligations.StoreCommandsFrame : Prop :=
  ∀ (i : Instr) (s t : State) (e e' : Engine) (q : Seq), s.running e q → s.memWf → exec i s = .next t →
    t.cur = some e' → (∃ l, i = .hstoreL l) ∨ i = .hstoreV →
    (∀ a, q.pos.storeAddr s.cfg e s.turn.draw i = some a → s.memKeptOutside t a) ∧
    (q.pos.storeAddr s.cfg e s.turn.draw i = none → s.memKept t) ∧
    (q.pos.storeAddr s.cfg e s.turn.draw i ≠ some s.cfg.haltAddr → t.ghalt = s.ghalt) ∧
    s.sharedKeptButHalt t ∧ s.othersKept t ∧ e.lanesKept e' ∧ e'.lastCmd = e.lastCmd ∧ e'.idle = e.idle ∧
    (e'.fault = none → e'.waiting = e.waiting)

/-- PROCESS and RUN, at every micro-step of a strategy's body: the only bytes of memory that change are those of the
digest word the micro-step stores (in RUN also HALT's word), at the computed address; ACTIVE changes only in RUN's
SYNC.DEC; the lane tables change only in RUN's table steps; CMD, AV, the parameters and the other engines are as
before (R120 to R124, R132). The micro-step's granularity is the model's (log 1); a store on HALT_ADDR is free (log
9). -/
def Obligations.CompositeCommandsFrame : Prop :=
  ∀ (st : Strategy) (i : Instr) (s t : State) (e e' : Engine) (q : Seq), s.running e q → s.memWf → exec i s = .next t →
    t.cur = some e' → (∃ n, i = processInstr st n) ∨ i = runInstr st →
    (∀ a, q.pos.storeAddr s.cfg e s.turn.draw i = some a → s.memKeptOutside t a) ∧
    (q.pos.storeAddr s.cfg e s.turn.draw i = none → s.memKept t) ∧
    (q.pos.storeAddr s.cfg e s.turn.draw i ≠ some s.cfg.haltAddr → t.ghalt = s.ghalt) ∧
    (q.pos ≠ .decrement → t.active = s.active) ∧
    t.cfg = s.cfg ∧ t.av = s.av ∧ t.turn = s.turn ∧ t.script = s.script ∧ t.tick = s.tick ∧ t.readData = s.readData ∧
    s.othersKept t ∧ e'.lastCmd = e.lastCmd ∧
    ((∃ n, i = processInstr st n) → e.controlKept e') ∧
    ((∃ n, i = processInstr st n) ∨ (∃ it p b, q.pos = .pass it p b) →
      ∀ k, (e'.lane k).inPtr = (e.lane k).inPtr ∧ (e'.lane k).outPtr = (e.lane k).outPtr) ∧
    (∀ l p, q.pos = .body (.scalar l p) → e.lanesKeptBut e' l) ∧
    (∀ ps, q.pos = .body (.spmd ps) → e.lanesKeptBut e' s.turn.draw.lane)

/-- SYNC.DEC, SYNC.WAIT, HALT and IDLE: no lane register, no CMD, no other engine, no parameter changes; no byte of memory
but HALT_ADDR's word in HALT; ACTIVE only in SYNC.DEC; GHALT only in HALT (R141 to R144). -/
def Obligations.CompletionCommandsFrame : Prop :=
  ∀ (i : Instr) (s t : State) (e e' : Engine) (q : Seq), s.running e q → s.memWf → exec i s = .next t →
    t.cur = some e' → i = .syncDec ∨ i = .syncWait ∨ i = .halt ∨ i = .idle →
    e.lanesKept e' ∧ s.othersKept t ∧ e'.lastCmd = e.lastCmd ∧ t.cfg = s.cfg ∧ t.av = s.av ∧ t.turn = s.turn ∧
    t.script = s.script ∧ t.tick = s.tick ∧ t.readData = s.readData ∧
    (i ≠ .syncDec → t.active = s.active) ∧ (i ≠ .halt → t.ghalt = s.ghalt ∧ s.memKept t) ∧
    (i = .halt → s.memKeptOutside t s.cfg.haltAddr ∧ e' = e) ∧
    (i ≠ .idle → e'.idle = e.idle) ∧ (i = .idle → e'.waiting = e.waiting ∧ e'.fault = e.fault)

/-- HINIT.V, WEXPAND.V and COMPRESS.V, where no engine faults: from two engines that agree on lane `l`, in states that
agree outside the engines, they leave the same in lane `l`, whatever the other lanes hold, and there what the .L form
on that lane leaves (R26, R94). -/
def Obligations.LanesDoNotLeak : Prop :=
  ∀ (s t s' t' : State) (e f e' f' : Engine) (q : Seq) (l : LaneNo) (i : Instr),
    s.running e q → t.running f q → t = s.putCur f → e.lane l = f.lane l →
    i = .hinitV ∨ i = .wexpandV ∨ i = .compressV →
    exec i s = .next s' → exec i t = .next t' → s'.cur = some e' → t'.cur = some f' →
    e'.fault = none → f'.fault = none →
    e'.lane l = f'.lane l ∧
    ∀ (u : State) (g : Engine) (one : LaneNo → Instr),
      (i = .hinitV ∧ one = .hinitL) ∨ (i = .wexpandV ∧ one = .wexpandL) ∨ (i = .compressV ∧ one = .compressL) →
      exec (one l) s = .next u → u.cur = some g → g.fault = none → g.lane l = e'.lane l

/-! ### Rules of the whole machine -/

/-- INVARIANT: every step from a state that meets `State.Inv` leads to one that does. Memory stays canonical; a command in
progress is the last accepted one, legal and at one of its positions; WAITING and IDLE are 1 exactly in their holds; a
faulted engine is not busy; an expanded schedule is of a loaded block; no micro-step of a PROCESS or of a RUN's pass reads
an unwritten register (R27, R31, R36, R121, R150). -/
def Obligations.EveryStepKeepsTheInvariant : Prop :=
  ∀ s t : State, s.Inv → step s = .next t → t.Inv

/-- State.reset meets the invariant. -/
def Obligations.ResetMeetsTheInvariant : Prop := State.reset.Inv

/-- From a state that meets the invariant a step always answers a next state, with the same parameters and as many
engines: no ordinary data ends a run (R8, R20). That an agent with no step leaves the state as it is is the model's
(log 2). -/
def Obligations.EveryStepAnswers : Prop :=
  ∀ s : State, s.Inv → ∃ t, step s = .next t ∧ t.cfg = s.cfg ∧ t.engines.length = s.engines.length

/-- FAULT is sticky: a faulted engine keeps its fault, FINFO, every field of STATUS but HALTED, which another engine's
HALT sets (R39), and every other register through every step but the reset event (R150, R158, R35 b). -/
def Obligations.FaultedEnginesChangeOnlyByReset : Prop :=
  ∀ (s t : State) (c : Nat) (e : Engine), s.engines[c]? = some e → e.fault ≠ none → step s = .next t →
    (∀ d, s.nextMove.1 ≠ .host .reset d) → t.engines[c]? = some e

/-- GHALT stands until reset: once it is 1 no engine changes and ACTIVE keeps its value, whatever agent moves, the reset
event apart (R39, R35 b, d). -/
def Obligations.HaltedBlockChangesOnlyByReset : Prop :=
  ∀ s t : State, s.ghalt = true → step s = .next t → (∀ d, s.nextMove.1 ≠ .host .reset d) →
    t.ghalt = true ∧ t.engines = s.engines ∧ t.active = s.active ∧ t.av = s.av

/-- What the block writes to memory (R51): an engine's step changes no byte but those of one of its own digest words,
OUT_PTR[l] + 4·j for some lane and j, or of the word at HALT_ADDR. -/
def Obligations.EnginesWriteOnlyDigestsAndHaltWord : Prop :=
  ∀ (s u t : State) (c : Nat) (d : Draw) (e : Engine) (a : Nat), s.memWf → s.nextMove = (.engine c d, u) →
    (u.withTurn c d).cur = some e → step s = .next t →
    (∀ (l : LaneNo) (j : Fin 8), a < ((e.lane l).digaddr j).toNat ∨ ((e.lane l).digaddr j).toNat + 4 ≤ a) →
    (a < s.cfg.haltAddr.toNat ∨ s.cfg.haltAddr.toNat + 4 ≤ a) →
    t.readByte a = s.readByte a

/-- INVARIANT, the completion barrier (R145): while every engine executes its one RUN and no host moves, ACTIVE counts the
workers that have still to make their SYNC.DEC, none faults, and context 0 passes SYNC.WAIT only at 0; so where context 0
is about to issue HALT, every worker has completed its four iterations and its SYNC.DEC. -/
def Obligations.CompletionBarrierHolds : Prop :=
  (∀ (s u t : State) (c : Nat) (d : Draw), s.Barrier → s.nextMove = (.engine c d, u) → step s = .next t → t.Barrier) ∧
  (∀ (s : State) (e : Engine), s.Barrier → s.engines[0]? = some e → e.pos? = some .halting →
    ∀ (c : Nat) (f : Engine), c ≠ 0 → s.engines[c]? = some f → f.hasDecremented = true)
end

