-- ==== Sys2Proof/Laws/State.lean ====
section
/-! SUPPORT. One lemma per field per update of the state's records, each true by unfolding, so that no later proof unfolds a
record update. -/

namespace Sys2Proof.Laws

open Sys2Proof.Machine


/-! State.putCur -/

@[simp] theorem putCur_cfg (s : State) (e : Engine) : (s.putCur e).cfg = s.cfg := rfl
@[simp] theorem putCur_engines (s : State) (e : Engine) : (s.putCur e).engines = s.engines.set s.curIdx e := rfl
@[simp] theorem putCur_active (s : State) (e : Engine) : (s.putCur e).active = s.active := rfl
@[simp] theorem putCur_av (s : State) (e : Engine) : (s.putCur e).av = s.av := rfl
@[simp] theorem putCur_ghalt (s : State) (e : Engine) : (s.putCur e).ghalt = s.ghalt := rfl
@[simp] theorem putCur_mem (s : State) (e : Engine) : (s.putCur e).mem = s.mem := rfl
@[simp] theorem putCur_turn (s : State) (e : Engine) : (s.putCur e).turn = s.turn := rfl
@[simp] theorem putCur_script (s : State) (e : Engine) : (s.putCur e).script = s.script := rfl
@[simp] theorem putCur_tick (s : State) (e : Engine) : (s.putCur e).tick = s.tick := rfl
@[simp] theorem putCur_readData (s : State) (e : Engine) : (s.putCur e).readData = s.readData := rfl

/-! State.setWord -/

@[simp] theorem setWord_cfg (s : State) (a : Addr) (v : Word) : (s.setWord a v).cfg = s.cfg := rfl
@[simp] theorem setWord_engines (s : State) (a : Addr) (v : Word) : (s.setWord a v).engines = s.engines := rfl
@[simp] theorem setWord_active (s : State) (a : Addr) (v : Word) : (s.setWord a v).active = s.active := rfl
@[simp] theorem setWord_av (s : State) (a : Addr) (v : Word) : (s.setWord a v).av = s.av := rfl
@[simp] theorem setWord_ghalt (s : State) (a : Addr) (v : Word) : (s.setWord a v).ghalt = s.ghalt := rfl
@[simp] theorem setWord_mem (s : State) (a : Addr) (v : Word) : (s.setWord a v).mem = Mem.writeWord s.cfg.memEndian s.cfg.background s.mem a.toNat v := rfl
@[simp] theorem setWord_turn (s : State) (a : Addr) (v : Word) : (s.setWord a v).turn = s.turn := rfl
@[simp] theorem setWord_script (s : State) (a : Addr) (v : Word) : (s.setWord a v).script = s.script := rfl
@[simp] theorem setWord_tick (s : State) (a : Addr) (v : Word) : (s.setWord a v).tick = s.tick := rfl
@[simp] theorem setWord_readData (s : State) (a : Addr) (v : Word) : (s.setWord a v).readData = s.readData := rfl

/-! State.setByte -/

@[simp] theorem setByte_cfg (s : State) (a : Addr) (v : Byte) : (s.setByte a v).cfg = s.cfg := rfl
@[simp] theorem setByte_engines (s : State) (a : Addr) (v : Byte) : (s.setByte a v).engines = s.engines := rfl
@[simp] theorem setByte_active (s : State) (a : Addr) (v : Byte) : (s.setByte a v).active = s.active := rfl
@[simp] theorem setByte_av (s : State) (a : Addr) (v : Byte) : (s.setByte a v).av = s.av := rfl
@[simp] theorem setByte_ghalt (s : State) (a : Addr) (v : Byte) : (s.setByte a v).ghalt = s.ghalt := rfl
@[simp] theorem setByte_mem (s : State) (a : Addr) (v : Byte) : (s.setByte a v).mem = Mem.writeByte s.cfg.background s.mem a.toNat v := rfl
@[simp] theorem setByte_turn (s : State) (a : Addr) (v : Byte) : (s.setByte a v).turn = s.turn := rfl
@[simp] theorem setByte_script (s : State) (a : Addr) (v : Byte) : (s.setByte a v).script = s.script := rfl
@[simp] theorem setByte_tick (s : State) (a : Addr) (v : Byte) : (s.setByte a v).tick = s.tick := rfl
@[simp] theorem setByte_readData (s : State) (a : Addr) (v : Byte) : (s.setByte a v).readData = s.readData := rfl

/-! State.withTurn -/

@[simp] theorem withTurn_cfg (s : State) (c : Nat) (d : Draw) : (s.withTurn c d).cfg = s.cfg := rfl
@[simp] theorem withTurn_engines (s : State) (c : Nat) (d : Draw) : (s.withTurn c d).engines = s.engines := rfl
@[simp] theorem withTurn_active (s : State) (c : Nat) (d : Draw) : (s.withTurn c d).active = s.active := rfl
@[simp] theorem withTurn_av (s : State) (c : Nat) (d : Draw) : (s.withTurn c d).av = s.av := rfl
@[simp] theorem withTurn_ghalt (s : State) (c : Nat) (d : Draw) : (s.withTurn c d).ghalt = s.ghalt := rfl
@[simp] theorem withTurn_mem (s : State) (c : Nat) (d : Draw) : (s.withTurn c d).mem = s.mem := rfl
@[simp] theorem withTurn_turn (s : State) (c : Nat) (d : Draw) : (s.withTurn c d).turn = { engine := c, draw := d } := rfl
@[simp] theorem withTurn_script (s : State) (c : Nat) (d : Draw) : (s.withTurn c d).script = s.script := rfl
@[simp] theorem withTurn_tick (s : State) (c : Nat) (d : Draw) : (s.withTurn c d).tick = s.tick := rfl
@[simp] theorem withTurn_readData (s : State) (c : Nat) (d : Draw) : (s.withTurn c d).readData = s.readData := rfl

/-! State.resetBlock -/

@[simp] theorem resetBlock_cfg (s : State) : (s.resetBlock).cfg = s.cfg := rfl
@[simp] theorem resetBlock_engines (s : State) : (s.resetBlock).engines = s.engines.map fun _ => Engine.reset := rfl
@[simp] theorem resetBlock_active (s : State) : (s.resetBlock).active = 0 := rfl
@[simp] theorem resetBlock_av (s : State) : (s.resetBlock).av = false := rfl
@[simp] theorem resetBlock_ghalt (s : State) : (s.resetBlock).ghalt = false := rfl
@[simp] theorem resetBlock_mem (s : State) : (s.resetBlock).mem = s.mem := rfl
@[simp] theorem resetBlock_turn (s : State) : (s.resetBlock).turn = s.turn := rfl
@[simp] theorem resetBlock_script (s : State) : (s.resetBlock).script = s.script := rfl
@[simp] theorem resetBlock_tick (s : State) : (s.resetBlock).tick = s.tick := rfl
@[simp] theorem resetBlock_readData (s : State) : (s.resetBlock).readData = s.readData := rfl

/-! Engine.updLane -/

@[simp] theorem updLane_lanes (e : Engine) (l : LaneNo) (f : Lane → Lane) : (e.updLane l f).lanes = e.lanes.set l (f (e.lane l)) := rfl
@[simp] theorem updLane_lastCmd (e : Engine) (l : LaneNo) (f : Lane → Lane) : (e.updLane l f).lastCmd = e.lastCmd := rfl
@[simp] theorem updLane_fault (e : Engine) (l : LaneNo) (f : Lane → Lane) : (e.updLane l f).fault = e.fault := rfl
@[simp] theorem updLane_waiting (e : Engine) (l : LaneNo) (f : Lane → Lane) : (e.updLane l f).waiting = e.waiting := rfl
@[simp] theorem updLane_idle (e : Engine) (l : LaneNo) (f : Lane → Lane) : (e.updLane l f).idle = e.idle := rfl
@[simp] theorem updLane_seq (e : Engine) (l : LaneNo) (f : Lane → Lane) : (e.updLane l f).seq = e.seq := rfl

/-! Engine.mapLanes -/

@[simp] theorem mapLanes_lanes (e : Engine) (f : LaneNo → Lane → Lane) : (e.mapLanes f).lanes = Vector.ofFn fun l => f l (e.lane l) := rfl
@[simp] theorem mapLanes_lastCmd (e : Engine) (f : LaneNo → Lane → Lane) : (e.mapLanes f).lastCmd = e.lastCmd := by rw [Engine.mapLanes]
@[simp] theorem mapLanes_fault (e : Engine) (f : LaneNo → Lane → Lane) : (e.mapLanes f).fault = e.fault := by rw [Engine.mapLanes]
@[simp] theorem mapLanes_waiting (e : Engine) (f : LaneNo → Lane → Lane) : (e.mapLanes f).waiting = e.waiting := by rw [Engine.mapLanes]
@[simp] theorem mapLanes_idle (e : Engine) (f : LaneNo → Lane → Lane) : (e.mapLanes f).idle = e.idle := by rw [Engine.mapLanes]
@[simp] theorem mapLanes_seq (e : Engine) (f : LaneNo → Lane → Lane) : (e.mapLanes f).seq = e.seq := by rw [Engine.mapLanes]

/-! Engine.moveTo -/

@[simp] theorem moveTo_lanes (e : Engine) (q : Seq) (p : Pos) : (e.moveTo q p).lanes = e.lanes := rfl
@[simp] theorem moveTo_lastCmd (e : Engine) (q : Seq) (p : Pos) : (e.moveTo q p).lastCmd = e.lastCmd := rfl
@[simp] theorem moveTo_fault (e : Engine) (q : Seq) (p : Pos) : (e.moveTo q p).fault = e.fault := rfl
@[simp] theorem moveTo_waiting (e : Engine) (q : Seq) (p : Pos) : (e.moveTo q p).waiting = e.waiting := rfl
@[simp] theorem moveTo_idle (e : Engine) (q : Seq) (p : Pos) : (e.moveTo q p).idle = e.idle := rfl
@[simp] theorem moveTo_seq (e : Engine) (q : Seq) (p : Pos) : (e.moveTo q p).seq = some { q with pos := p } := rfl

/-! Engine.complete -/

@[simp] theorem complete_lanes (e : Engine) : (e.complete).lanes = e.lanes := rfl
@[simp] theorem complete_lastCmd (e : Engine) : (e.complete).lastCmd = e.lastCmd := rfl
@[simp] theorem complete_fault (e : Engine) : (e.complete).fault = e.fault := rfl
@[simp] theorem complete_waiting (e : Engine) : (e.complete).waiting = e.waiting := rfl
@[simp] theorem complete_idle (e : Engine) : (e.complete).idle = e.idle := rfl
@[simp] theorem complete_seq (e : Engine) : (e.complete).seq = none := rfl

/-! Engine.raise -/

@[simp] theorem raise_lanes (e : Engine) (c : FaultCause) (w : Word) : (e.raise c w).lanes = e.lanes := rfl
@[simp] theorem raise_lastCmd (e : Engine) (c : FaultCause) (w : Word) : (e.raise c w).lastCmd = e.lastCmd := rfl
@[simp] theorem raise_fault (e : Engine) (c : FaultCause) (w : Word) : (e.raise c w).fault = some { cause := c, info := w } := rfl
@[simp] theorem raise_waiting (e : Engine) (c : FaultCause) (w : Word) : (e.raise c w).waiting = false := rfl
@[simp] theorem raise_idle (e : Engine) (c : FaultCause) (w : Word) : (e.raise c w).idle = e.idle := rfl
@[simp] theorem raise_seq (e : Engine) (c : FaultCause) (w : Word) : (e.raise c w).seq = none := rfl

/-! Engine.accept -/

@[simp] theorem accept_lanes (e : Engine) (w : Word) : (e.accept w).lanes = e.lanes := rfl
@[simp] theorem accept_lastCmd (e : Engine) (w : Word) : (e.accept w).lastCmd = w := rfl
@[simp] theorem accept_fault (e : Engine) (w : Word) : (e.accept w).fault = e.fault := rfl
@[simp] theorem accept_waiting (e : Engine) (w : Word) : (e.accept w).waiting = e.waiting := rfl
@[simp] theorem accept_idle (e : Engine) (w : Word) : (e.accept w).idle = e.idle := rfl
@[simp] theorem accept_seq (e : Engine) (w : Word) : (e.accept w).seq = some { cmd := w, pos := .start } := rfl

/-! Lane.hinit -/

@[simp] theorem hinit_h (x : Lane) : (x.hinit).h = initialHash := rfl
@[simp] theorem hinit_w (x : Lane) : (x.hinit).w = x.w := rfl
@[simp] theorem hinit_v (x : Lane) : (x.hinit).v = x.v := rfl
@[simp] theorem hinit_hv (x : Lane) : (x.hinit).hv = true := rfl
@[simp] theorem hinit_wlv (x : Lane) : (x.hinit).wlv = x.wlv := rfl
@[simp] theorem hinit_wev (x : Lane) : (x.hinit).wev = x.wev := rfl
@[simp] theorem hinit_vv (x : Lane) : (x.hinit).vv = x.vv := rfl
@[simp] theorem hinit_inPtr (x : Lane) : (x.hinit).inPtr = x.inPtr := rfl
@[simp] theorem hinit_outPtr (x : Lane) : (x.hinit).outPtr = x.outPtr := rfl

/-! Lane.clearWev -/

@[simp] theorem clearWev_h (x : Lane) : (x.clearWev).h = x.h := rfl
@[simp] theorem clearWev_w (x : Lane) : (x.clearWev).w = x.w := rfl
@[simp] theorem clearWev_v (x : Lane) : (x.clearWev).v = x.v := rfl
@[simp] theorem clearWev_hv (x : Lane) : (x.clearWev).hv = x.hv := rfl
@[simp] theorem clearWev_wlv (x : Lane) : (x.clearWev).wlv = x.wlv := rfl
@[simp] theorem clearWev_wev (x : Lane) : (x.clearWev).wev = false := rfl
@[simp] theorem clearWev_vv (x : Lane) : (x.clearWev).vv = x.vv := rfl
@[simp] theorem clearWev_inPtr (x : Lane) : (x.clearWev).inPtr = x.inPtr := rfl
@[simp] theorem clearWev_outPtr (x : Lane) : (x.clearWev).outPtr = x.outPtr := rfl

/-! Lane.loadWord -/

@[simp] theorem loadWord_h (x : Lane) (j : Fin 16) (v : Word) : (x.loadWord j v).h = x.h := rfl
@[simp] theorem loadWord_w (x : Lane) (j : Fin 16) (v : Word) : (x.loadWord j v).w = x.w.set j v (by omega) := rfl
@[simp] theorem loadWord_v (x : Lane) (j : Fin 16) (v : Word) : (x.loadWord j v).v = x.v := rfl
@[simp] theorem loadWord_hv (x : Lane) (j : Fin 16) (v : Word) : (x.loadWord j v).hv = x.hv := rfl
@[simp] theorem loadWord_wlv (x : Lane) (j : Fin 16) (v : Word) : (x.loadWord j v).wlv = x.wlv := rfl
@[simp] theorem loadWord_wev (x : Lane) (j : Fin 16) (v : Word) : (x.loadWord j v).wev = x.wev := rfl
@[simp] theorem loadWord_vv (x : Lane) (j : Fin 16) (v : Word) : (x.loadWord j v).vv = x.vv := rfl
@[simp] theorem loadWord_inPtr (x : Lane) (j : Fin 16) (v : Word) : (x.loadWord j v).inPtr = x.inPtr := rfl
@[simp] theorem loadWord_outPtr (x : Lane) (j : Fin 16) (v : Word) : (x.loadWord j v).outPtr = x.outPtr := rfl

/-! Lane.markLoaded -/

@[simp] theorem markLoaded_h (x : Lane) : (x.markLoaded).h = x.h := rfl
@[simp] theorem markLoaded_w (x : Lane) : (x.markLoaded).w = x.w := rfl
@[simp] theorem markLoaded_v (x : Lane) : (x.markLoaded).v = x.v := rfl
@[simp] theorem markLoaded_hv (x : Lane) : (x.markLoaded).hv = x.hv := rfl
@[simp] theorem markLoaded_wlv (x : Lane) : (x.markLoaded).wlv = true := rfl
@[simp] theorem markLoaded_wev (x : Lane) : (x.markLoaded).wev = x.wev := rfl
@[simp] theorem markLoaded_vv (x : Lane) : (x.markLoaded).vv = x.vv := rfl
@[simp] theorem markLoaded_inPtr (x : Lane) : (x.markLoaded).inPtr = x.inPtr := rfl
@[simp] theorem markLoaded_outPtr (x : Lane) : (x.markLoaded).outPtr = x.outPtr := rfl

/-! Lane.expandSchedule -/

@[simp] theorem expandSchedule_h (v : SchedVariant) (x : Lane) : (x.expandSchedule v).h = x.h := by
  simp only [Lane.expandSchedule]
@[simp] theorem expandSchedule_w (v : SchedVariant) (x : Lane) : (x.expandSchedule v).w = expand v x.w := by
  simp only [Lane.expandSchedule]
@[simp] theorem expandSchedule_v (v : SchedVariant) (x : Lane) : (x.expandSchedule v).v = x.v := by
  simp only [Lane.expandSchedule]
@[simp] theorem expandSchedule_hv (v : SchedVariant) (x : Lane) : (x.expandSchedule v).hv = x.hv := by
  simp only [Lane.expandSchedule]
@[simp] theorem expandSchedule_wlv (v : SchedVariant) (x : Lane) : (x.expandSchedule v).wlv = x.wlv := by
  simp only [Lane.expandSchedule]
@[simp] theorem expandSchedule_wev (v : SchedVariant) (x : Lane) : (x.expandSchedule v).wev = true := by
  simp only [Lane.expandSchedule]
@[simp] theorem expandSchedule_vv (v : SchedVariant) (x : Lane) : (x.expandSchedule v).vv = x.vv := by
  simp only [Lane.expandSchedule]
@[simp] theorem expandSchedule_inPtr (v : SchedVariant) (x : Lane) : (x.expandSchedule v).inPtr = x.inPtr := by
  simp only [Lane.expandSchedule]
@[simp] theorem expandSchedule_outPtr (v : SchedVariant) (x : Lane) : (x.expandSchedule v).outPtr = x.outPtr := by
  simp only [Lane.expandSchedule]

/-! Lane.compressBlock -/

@[simp] theorem compressBlock_h (x : Lane) : (x.compressBlock).h = compressed x.h x.w := rfl
@[simp] theorem compressBlock_w (x : Lane) : (x.compressBlock).w = x.w := rfl
@[simp] theorem compressBlock_v (x : Lane) : (x.compressBlock).v = afterRounds x.h x.w := rfl
@[simp] theorem compressBlock_hv (x : Lane) : (x.compressBlock).hv = x.hv := rfl
@[simp] theorem compressBlock_wlv (x : Lane) : (x.compressBlock).wlv = x.wlv := rfl
@[simp] theorem compressBlock_wev (x : Lane) : (x.compressBlock).wev = x.wev := rfl
@[simp] theorem compressBlock_vv (x : Lane) : (x.compressBlock).vv = true := rfl
@[simp] theorem compressBlock_inPtr (x : Lane) : (x.compressBlock).inPtr = x.inPtr := rfl
@[simp] theorem compressBlock_outPtr (x : Lane) : (x.compressBlock).outPtr = x.outPtr := rfl

/-! Lanes of a changed engine -/

theorem lane_updLane_same (e : Engine) (l : LaneNo) (f : Lane → Lane) : (e.updLane l f).lane l = f (e.lane l) := by
  simp [Engine.lane, Engine.updLane]

theorem lane_updLane_other (e : Engine) {l k : LaneNo} (f : Lane → Lane) (h : k ≠ l) :
    (e.updLane l f).lane k = e.lane k := by
  have : l.val ≠ k.val := fun hv => h (Fin.ext hv.symm)
  simp [Engine.lane, Engine.updLane, this]

@[simp] theorem lane_mapLanes (e : Engine) (f : LaneNo → Lane → Lane) (l : LaneNo) :
    (e.mapLanes f).lane l = f l (e.lane l) := by
  simp [Engine.lane, Engine.mapLanes]

@[simp] theorem lane_moveTo (e : Engine) (q : Seq) (p : Pos) (l : LaneNo) : (e.moveTo q p).lane l = e.lane l := rfl
@[simp] theorem lane_complete (e : Engine) (l : LaneNo) : e.complete.lane l = e.lane l := rfl
@[simp] theorem lane_raise (e : Engine) (c : FaultCause) (w : Word) (l : LaneNo) : (e.raise c w).lane l = e.lane l := rfl
@[simp] theorem lane_accept (e : Engine) (w : Word) (l : LaneNo) : (e.accept w).lane l = e.lane l := rfl

/-- Two engines with the same lanes, one by one, have the same lane file. -/
theorem lanes_ext {e e' : Engine} (h : ∀ l, e'.lane l = e.lane l) : e'.lanes = e.lanes := by
  apply Vector.ext
  intro i hi
  exact h ⟨i, hi⟩

/-! The engine whose turn it is -/

theorem cur_lt {s : State} {e : Engine} (h : s.cur = some e) : s.curIdx < s.engines.length :=
  (List.getElem?_eq_some_iff.mp h).1

@[simp] theorem putCur_curIdx (s : State) (e : Engine) : (s.putCur e).curIdx = s.curIdx := by
  simp [State.curIdx]

/-- Replacing the current engine is seen by reading it. -/
theorem cur_putCur {s : State} {e : Engine} (h : s.cur = some e) (e' : Engine) : (s.putCur e').cur = some e' := by
  have := cur_lt h
  simp [State.cur, this]

/-- Every other engine is kept. -/
theorem engines_putCur_other (s : State) (e : Engine) {k : Nat} (h : k ≠ s.curIdx) :
    (s.putCur e).engines[k]? = s.engines[k]? := by
  simp [h.symm]

/-- The same lookup, for a state that differs from `s` only outside the engines and the turn. -/
theorem curIdx_congr {s t : State} (he : t.engines.length = s.engines.length) (ht : t.turn = s.turn) :
    t.curIdx = s.curIdx := by
  simp [State.curIdx, he, ht]

end Sys2Proof.Laws
end

