-- ==== Sys2Proof/Laws/Memory.lean ====
section
/-! SUPPORT. Memory: read after write, the canonical form, and what a word access does. -/

namespace Sys2Proof.Laws

open Sys2Proof.Machine

/-! ### Bytes -/

/-- In a canonical list from `lo`, an address below `lo` is not listed. -/
theorem readByte_below (bg : Byte) (m : List Host.Cell) (lo a : Nat) (hw : Mem.wfFrom bg lo m = true) (ha : a < lo) :
    Mem.readByte bg m a = bg := by
  induction m generalizing lo with
  | nil => rfl
  | cons c rest ih =>
    obtain ⟨k, v⟩ := c
    simp only [Mem.wfFrom, Bool.and_eq_true, decide_eq_true_eq] at hw
    have hk : a ≠ k := by omega
    simp only [Mem.readByte, if_neg hk]
    exact ih (k + 1) hw.2 (by omega)

/-- A stored byte reads back, and every other byte is kept. -/
theorem readByte_writeByte (bg : Byte) (m : List Host.Cell) (lo a b : Nat) (v : Byte)
    (hw : Mem.wfFrom bg lo m = true) :
    Mem.readByte bg (Mem.writeByte bg m a v) b = if b = a then v else Mem.readByte bg m b := by
  induction m generalizing lo with
  | nil =>
    by_cases hv : v = bg <;> by_cases hb : b = a <;> simp [Mem.writeByte, Mem.readByte, hv, hb]
  | cons c rest ih =>
    obtain ⟨k, u⟩ := c
    have hw' := hw
    simp only [Mem.wfFrom, Bool.and_eq_true, decide_eq_true_eq] at hw'
    obtain ⟨⟨⟨hlo, _⟩, _⟩, hrest⟩ := hw'
    have below : ∀ x, x < k → Mem.readByte bg ((k, u) :: rest) x = bg := fun x hx =>
      readByte_below bg _ k x (by simp only [Mem.wfFrom, Bool.and_eq_true, decide_eq_true_eq] at hw ⊢; tauto) hx
    have restBelow : Mem.readByte bg rest k = bg := readByte_below bg rest (k + 1) k hrest (by omega)
    unfold Mem.writeByte
    by_cases hak : a < k
    · by_cases hv : v = bg
      · by_cases hb : b = a
        · simp [hak, hv, hb, below a hak]
        · simp [hak, hv, hb]
      · by_cases hb : b = a <;> simp [hak, hv, hb, Mem.readByte]
    · by_cases hae : a = k
      · subst hae
        by_cases hv : v = bg
        · by_cases hb : b = a <;> simp [hv, hb, Mem.readByte, restBelow]
        · by_cases hb : b = a <;> simp [hv, hb, Mem.readByte]
      · simp only [hak, hae, if_false]
        by_cases hbk : b = k
        · have hba : b ≠ a := fun h => hae (h.symm.trans hbk)
          simp [Mem.readByte, hbk, show k ≠ a from fun h => hae h.symm]
        · simp only [Mem.readByte, if_neg hbk]
          exact ih (k + 1) hrest

/-- A byte store below 2^32 keeps the canonical form. -/
theorem wfFrom_writeByte (bg : Byte) (m : List Host.Cell) (lo a : Nat) (v : Byte)
    (hw : Mem.wfFrom bg lo m = true) (hlo : lo ≤ a) (ha : a < 2 ^ 32) :
    Mem.wfFrom bg lo (Mem.writeByte bg m a v) = true := by
  induction m generalizing lo with
  | nil =>
    by_cases hv : v = bg
    · simp [Mem.writeByte, Mem.wfFrom, hv]
    · simp [Mem.writeByte, Mem.wfFrom, hv, hlo]; omega
  | cons c rest ih =>
    obtain ⟨k, u⟩ := c
    simp only [Mem.wfFrom, Bool.and_eq_true, decide_eq_true_eq] at hw
    obtain ⟨⟨⟨h1, h2⟩, h3⟩, h4⟩ := hw
    unfold Mem.writeByte
    split
    · split
      · simp [Mem.wfFrom, h1, h3, h4]; omega
      · rename_i hak hv
        simp [Mem.wfFrom, hlo, hv, h3, h4]; omega
    · rename_i hak
      split
      · rename_i hae
        subst hae
        split
        · clear ih
          cases rest with
          | nil => rfl
          | cons c rest =>
            obtain ⟨k, u⟩ := c
            simp only [Mem.wfFrom, Bool.and_eq_true, decide_eq_true_eq] at h4 ⊢
            refine ⟨⟨⟨by omega, h4.1.1.2⟩, h4.1.2⟩, h4.2⟩
        · rename_i hv
          simp [Mem.wfFrom, h1, hv, h4]; omega
      · rename_i hae
        have := ih (k + 1) h4 (by omega)
        simp [Mem.wfFrom, h1, h3, this]; omega

/-- A byte store keeps the canonical form. -/
theorem wf_writeByte (bg : Byte) (m : List Host.Cell) (a : Nat) (v : Byte) (hw : Mem.wf bg m = true)
    (ha : a < 2 ^ 32) : Mem.wf bg (Mem.writeByte bg m a v) = true :=
  wfFrom_writeByte bg m 0 a v hw (Nat.zero_le a) ha

/-! ### Words -/

/-- A word store at an aligned address keeps the canonical form. -/
theorem wf_writeWord (en : Endian) (bg : Byte) (m : List Host.Cell) (a : Nat) (v : Word) (hw : Mem.wf bg m = true)
    (ha : a + 3 < 2 ^ 32) : Mem.wf bg (Mem.writeWord en bg m a v) = true := by
  simp only [Mem.writeWord]
  exact wf_writeByte _ _ _ _ (wf_writeByte _ _ _ _ (wf_writeByte _ _ _ _ (wf_writeByte _ _ _ _ hw (by omega)) (by omega))
    (by omega)) ha

/-- What a byte reads as after a word store. -/
theorem readByte_writeWord (en : Endian) (bg : Byte) (m : List Host.Cell) (a b : Nat) (v : Word)
    (hw : Mem.wf bg m = true) (ha : a + 3 < 2 ^ 32) :
    Mem.readByte bg (Mem.writeWord en bg m a v) b =
      if b = a + 3 then byteOf en v 3 else if b = a + 2 then byteOf en v 2 else if b = a + 1 then byteOf en v 1
      else if b = a then byteOf en v 0 else Mem.readByte bg m b := by
  have w0 := wf_writeByte bg m (a + 0) (byteOf en v 0) hw (by omega)
  have w1 := wf_writeByte bg _ (a + 1) (byteOf en v 1) w0 (by omega)
  have w2 := wf_writeByte bg _ (a + 2) (byteOf en v 2) w1 (by omega)
  simp only [Mem.writeWord]
  rw [readByte_writeByte bg _ 0 _ _ _ w2, readByte_writeByte bg _ 0 _ _ _ w1, readByte_writeByte bg _ 0 _ _ _ w0,
    readByte_writeByte bg _ 0 _ _ _ hw]
  simp

/-- The four bytes of a word make the word again (R52). -/
theorem wordOfBytes_byteOf (en : Endian) (v : Word) :
    wordOfBytes en (byteOf en v 0) (byteOf en v 1) (byteOf en v 2) (byteOf en v 3) = v := by
  cases en <;> apply BitVec.eq_of_getLsbD_eq <;> intro i hi <;>
    simp only [wordOfBytes, byteOf, BitVec.getLsbD_append, BitVec.getLsbD_extractLsb'] <;> interval_cases i <;> simp

/-- An admitted address is aligned. -/
theorem admits_aligned {s : State} {a : Addr} (h : s.admits a = true) : a.toNat % 4 = 0 := by
  simp only [State.admits, Bool.and_eq_true, decide_eq_true_eq] at h
  exact h.1.1.1.1

/-- The word at an aligned address does not wrap. -/
theorem aligned_room {a : Addr} (h : a.toNat % 4 = 0) : a.toNat + 3 < 2 ^ 32 := by
  have := a.isLt
  omega

end Sys2Proof.Laws
end

