-- ==== Sys2Proof/Laws/Ops.lean ====
section
/-! SUPPORT. What each shared operation can do, said once. -/

namespace Sys2Proof.Laws

open Sys2Proof.Machine

/-! ### The wrapper of a micro-step -/

/-- The engine whose turn it is steps as `f` says. -/
theorem act_eq {s : State} {e : Engine} {q : Seq} (hc : s.cur = some e) (hq : e.seq = some q)
    (hm : s.mayStep e = true) (f : Engine → Seq → Option State) : s.act f = .next ((f e q).getD s) := by
  simp [State.act, hc, hq, hm]

/-- `mayStep` in its parts. -/
theorem mayStep_iff {s : State} {e : Engine} : s.mayStep e = true ↔ s.ghalt = false ∧ e.fault = none := by
  simp [State.mayStep]

/-- An engine that may not step, or has no command, leaves the state as it is. -/
theorem act_idle {s : State} {e : Engine} (hc : s.cur = some e) (h : e.seq = none ∨ s.mayStep e = false)
    (f : Engine → Seq → Option State) : s.act f = .next s := by
  rcases h with h | h
  · simp [State.act, hc, h]
  · cases hs : e.seq <;> simp [State.act, hc, hs, h]

/-- All a micro-step can do: nothing, or what `f` says of the current engine, which may step. -/
theorem act_next {s t : State} {f : Engine → Seq → Option State} (h : s.act f = .next t) :
    t = s ∨ ∃ e q, s.cur = some e ∧ e.seq = some q ∧ s.ghalt = false ∧ e.fault = none ∧ f e q = some t := by
  unfold State.act at h
  split at h
  · cases h
  · rename_i e hc
    cases h
    cases hq : e.seq with
    | none => exact .inl rfl
    | some q =>
      cases hm : s.mayStep e with
      | false => simp
      | true =>
        cases hf : f e q with
        | none => simp [hf]
        | some t =>
          obtain ⟨hg, hfault⟩ := mayStep_iff.mp hm
          exact .inr ⟨e, q, hc, hq, hg, hfault, by simp [hf]⟩

/-- The wrapper never refuses, and faults only in a block with no engine. -/
theorem act_answers {s : State} (f : Engine → Seq → Option State) (h : s.engines ≠ []) : ∃ t, s.act f = .next t := by
  have hlen : 0 < s.engines.length := List.length_pos_iff.mpr h
  have hlt : s.curIdx < s.engines.length := Nat.mod_lt _ hlen
  have hc : s.cur = some s.engines[s.curIdx] := List.getElem?_eq_getElem hlt
  simp only [State.act, hc]
  exact ⟨_, rfl⟩

/-! ### Memory accesses -/

/-- All a load can do. -/
theorem loadWord_some {s : State} {a : Addr} {v : Word} (h : s.loadWord a = some v) :
    s.admits a = true ∧ v = s.wordAt a := by
  unfold State.loadWord at h
  split at h
  · rename_i ha
    cases h
    exact ⟨ha, rfl⟩
  · cases h

/-- All a store can do: the word is stored, or it fell on HALT_ADDR and the draw decided. -/
theorem storeWord_some {s t : State} {a : Addr} {v : Word} {d : Draw} (h : s.storeWord a v d = some t) :
    s.admits a = true ∧
      ((a ≠ s.cfg.haltAddr ∧ t = s.setWord a v) ∨ (a = s.cfg.haltAddr ∧ t = s.portWrite (s.setWord a v) d)) := by
  unfold State.storeWord at h
  split at h
  · rename_i ha
    split at h
    · rename_i hp
      cases h
      exact ⟨ha, .inr ⟨hp, rfl⟩⟩
    · rename_i hp
      cases h
      exact ⟨ha, .inl ⟨hp, rfl⟩⟩
  · cases h

/-- A write to HALT_ADDR changes at most memory and GHALT. -/
theorem portWrite_kept (s u : State) (d : Draw) (hu : u = { s with mem := u.mem }) :
    s.portWrite u d = { s with mem := (s.portWrite u d).mem, ghalt := (s.portWrite u d).ghalt } := by
  unfold State.portWrite
  rw [hu]
  cases d.portStores <;> cases d.portHalts <;> rfl

/-- A store changes at most memory and GHALT. -/
theorem storeWord_kept {s t : State} {a : Addr} {v : Word} {d : Draw} (h : s.storeWord a v d = some t) :
    t = { s with mem := t.mem, ghalt := t.ghalt } := by
  obtain ⟨_, ⟨_, rfl⟩ | ⟨_, rfl⟩⟩ := storeWord_some h
  · rfl
  · exact portWrite_kept s _ d rfl

/-- The memory after a store is the old one or the old one with the word stored. -/
theorem storeWord_mem {s t : State} {a : Addr} {v : Word} {d : Draw} (h : s.storeWord a v d = some t) :
    t.mem = s.mem ∨ t.mem = (s.setWord a v).mem := by
  obtain ⟨_, ⟨_, rfl⟩ | ⟨_, rfl⟩⟩ := storeWord_some h
  · exact .inr rfl
  · unfold State.portWrite
    cases d.portStores <;> cases d.portHalts <;> simp

/-- A store keeps the canonical form. -/
theorem storeWord_wf {s t : State} {a : Addr} {v : Word} {d : Draw} (h : s.storeWord a v d = some t)
    (hw : Mem.wf s.cfg.background s.mem = true) : Mem.wf s.cfg.background t.mem = true := by
  have hroom := aligned_room (admits_aligned (storeWord_some h).1)
  rcases storeWord_mem h with hm | hm
  · rw [hm]; exact hw
  · rw [hm]; exact wf_writeWord _ _ _ _ _ hw hroom

/-- Every byte outside the stored word is kept. -/
theorem storeWord_readByte_other {s t : State} {a : Addr} {v : Word} {d : Draw} (h : s.storeWord a v d = some t)
    (hw : Mem.wf s.cfg.background s.mem = true) {b : Nat} (hb : b < a.toNat ∨ a.toNat + 4 ≤ b) :
    t.readByte b = s.readByte b := by
  have hroom := aligned_room (admits_aligned (storeWord_some h).1)
  have hcfg : t.cfg = s.cfg := by rw [storeWord_kept h]
  unfold State.readByte
  rw [hcfg]
  rcases storeWord_mem h with hm | hm
  · rw [hm]
  · rw [hm]
    simp only [setWord_mem]
    rw [readByte_writeWord _ _ _ _ _ _ hw hroom]
    have h0 : b ≠ a.toNat := by omega
    have h1 : b ≠ a.toNat + 1 := by omega
    have h2 : b ≠ a.toNat + 2 := by omega
    have h3 : b ≠ a.toNat + 3 := by omega
    simp [h0, h1, h2, h3]

/-! ### Checks -/

/-- A passed check. -/
theorem checked_none (s : State) (e : Engine) (q : Seq) (f : Option State) : s.checked e q none f = f := rfl

/-- A failed check raises UNINIT_READ and does nothing else (R150, R152). -/
theorem checked_some (s : State) (e : Engine) (q : Seq) (g : Group) (l : LaneNo) (f : Option State) :
    s.checked e q (some (g, l)) f = some (s.putCur (e.raise (.uninitRead g l) q.cmd)) := rfl

/-- No lane fails exactly when every lane passes. -/
theorem firstFailing_none_iff (e : Engine) (check : Lane → Option Group) :
    e.firstFailing check = none ↔ ∀ l, check (e.lane l) = none := by
  simp [Engine.firstFailing, allLanes, List.findSome?_eq_none_iff]

/-- COMPRESS's checks pass exactly when the three groups are written. -/
theorem compressCheck_none_iff (x : Lane) : x.compressCheck = none ↔ x.hv = true ∧ x.wlv = true ∧ x.wev = true := by
  unfold Lane.compressCheck
  cases x.hv <;> cases x.wlv <;> cases x.wev <;> simp

/-- WEXPAND's check passes exactly when W[0..15] is written. -/
theorem expandCheck_none_iff (x : Lane) : x.expandCheck = none ↔ x.wlv = true := by
  unfold Lane.expandCheck
  cases x.wlv <;> simp

/-- HSTORE's check passes exactly when H is written. -/
theorem storeCheck_none_iff (x : Lane) : x.storeCheck = none ↔ x.hv = true := by
  unfold Lane.storeCheck
  cases x.hv <;> simp

/-! ### Sequences -/

/-- All a lane's micro-step can do: it changes lane `l` of the engine alone, or stores one word of lane `l`'s digest. -/
theorem laneMicro_some {s : State} {e : Engine} {n : Nat} {l : LaneNo} {p : LanePos} {m : Micro LanePos}
    (h : s.laneMicro e n l p = some m) :
    (m.state = s ∧ ∃ f, m.engine = e.updLane l f) ∨
      (∃ j v, m.engine = e ∧ s.storeWord ((e.lane l).digaddr j) v s.turn.draw = some m.state ∧ j < 8) := by
  cases p <;> simp only [State.laneMicro, Option.map_eq_some_iff, Option.some.injEq] at h
  case init => subst h; exact .inl ⟨rfl, _, rfl⟩
  case clear => subst h; exact .inl ⟨rfl, _, rfl⟩
  case load b j => obtain ⟨v, _, rfl⟩ := h; exact .inl ⟨rfl, (·.loadWord j v), rfl⟩
  case mark => subst h; exact .inl ⟨rfl, _, rfl⟩
  case expand => subst h; exact .inl ⟨rfl, _, rfl⟩
  case compress => subst h; exact .inl ⟨rfl, _, rfl⟩
  case store j =>
    obtain ⟨t, ht, rfl⟩ := h
    exact .inr ⟨j.val, _, rfl, ht, j.isLt⟩
  case done => cases h

/-- All a micro-step of the vector sequence can do: it changes every lane alike, or loads one lane's word, or stores one
word of one lane's digest. -/
theorem vecMicro_some {s : State} {e : Engine} {n : Nat} {p : VecPos} {m : Micro VecPos}
    (h : s.vecMicro e n p = some m) :
    (m.state = s ∧ ∃ f, m.engine = e.mapLanes f) ∨ (m.state = s ∧ ∃ l f, m.engine = e.updLane l f) ∨
      (∃ l j v, m.engine = e ∧ s.storeWord ((e.lane l).digaddr j) v s.turn.draw = some m.state ∧ j < 8) := by
  cases p <;> simp only [State.vecMicro, Option.bind_eq_some_iff, Option.map_eq_some_iff, Option.some.injEq] at h
  case init => subst h; exact .inl ⟨rfl, _, rfl⟩
  case clear => subst h; exact .inl ⟨rfl, _, rfl⟩
  case gather b j todo => obtain ⟨l, _, v, _, rfl⟩ := h; exact .inr (.inl ⟨rfl, l, (·.loadWord j v), rfl⟩)
  case mark => subst h; exact .inl ⟨rfl, _, rfl⟩
  case expand => subst h; exact .inl ⟨rfl, _, rfl⟩
  case compress => subst h; exact .inl ⟨rfl, _, rfl⟩
  case scatter j todo =>
    obtain ⟨l, _, t, ht, rfl⟩ := h
    exact .inr (.inr ⟨l, j.val, _, rfl, ht, j.isLt⟩)
  case done => cases h

/-- All a body's micro-step can do to the state and the engine: nothing (the join), or it changes every lane alike, or one
lane, or stores one word of one lane's digest. -/
theorem bodyMicro_some {s : State} {e : Engine} {n : Nat} {b : BodyPos} {m : Micro BodyPos}
    (h : s.bodyMicro e n b = some m) :
    (m.state = s ∧ m.engine = e) ∨ (m.state = s ∧ ∃ f, m.engine = e.mapLanes f) ∨
      (m.state = s ∧ ∃ l f, m.engine = e.updLane l f) ∨
      (∃ l j v, m.engine = e ∧ s.storeWord ((e.lane l).digaddr j) v s.turn.draw = some m.state ∧ j < 8) := by
  cases b <;> simp only [State.bodyMicro] at h
  case scalar l p =>
    obtain ⟨m', hm, rfl⟩ := Option.map_eq_some_iff.mp h
    rcases laneMicro_some hm with ⟨hs, f, hf⟩ | ⟨j, v, he, hv, hj⟩
    · exact .inr (.inr (.inl ⟨hs, l, f, hf⟩))
    · exact .inr (.inr (.inr ⟨l, j, v, he, hv, hj⟩))
  case vector p =>
    obtain ⟨m', hm, rfl⟩ := Option.map_eq_some_iff.mp h
    exact .inr (vecMicro_some hm)
  case spmd ps =>
    split at h
    · cases h; exact .inl ⟨rfl, rfl⟩
    · obtain ⟨m', hm, rfl⟩ := Option.map_eq_some_iff.mp h
      rcases laneMicro_some hm with ⟨hs, f, hf⟩ | ⟨j, v, he, hv, hj⟩
      · exact .inr (.inr (.inl ⟨hs, _, f, hf⟩))
      · exact .inr (.inr (.inr ⟨_, j, v, he, hv, hj⟩))
  case finished => cases h

/-- Every lane agent has finished exactly when `allDone` says so. -/
theorem allDone_iff (ps : Vector LanePos 16) : allDone ps = true ↔ ∀ l : LaneNo, ps[l] = .done := by
  simp [allDone, allLanes]

/-! ### The completion unit -/

/-- All SYNC.DEC's operation can do: the fault where ACTIVE is unwritten, else the decrement. -/
theorem decActive_some {s t : State} {e k : Engine} {q : Seq} (h : s.decActive e q k = some t) :
    (s.av = false ∧ t = s.putCur (e.raise (.uninitRead .active 0) q.cmd)) ∨
      (s.av = true ∧ t = { s with active := s.active - 1 }.putCur k) := by
  unfold State.decActive at h
  cases ha : s.av <;> simp only [ha, State.checked] at h <;> cases h
  · exact .inl ⟨rfl, rfl⟩
  · exact .inr ⟨rfl, rfl⟩

/-- All SYNC.WAIT's beginning can do: the fault where ACTIVE is unwritten, else WAITING <- 1. -/
theorem enterWait_some {s t : State} {e : Engine} {q : Seq} (h : s.enterWait e q = some t) :
    (s.av = false ∧ t = s.putCur (e.raise (.uninitRead .active 0) q.cmd)) ∨
      (s.av = true ∧ t = s.putCur ({ e with waiting := true }.moveTo q .polling)) := by
  unfold State.enterWait at h
  cases ha : s.av <;> simp only [ha, State.checked] at h <;> cases h
  · exact .inl ⟨rfl, rfl⟩
  · exact .inr ⟨rfl, rfl⟩

/-- A poll gives a step only where ACTIVE is 0. -/
theorem pollActive_some {s t : State} {k : Engine} (h : s.pollActive k = some t) :
    s.active = 0 ∧ t = s.putCur { k with waiting := false } := by
  unfold State.pollActive at h
  split at h
  · rename_i ha
    cases h
    exact ⟨ha, rfl⟩
  · cases h

/-- HALT steps only where HALT_ADDR is admitted, and then writes it and sets GHALT. -/
theorem haltAll_some {s t : State} (h : s.haltAll = some t) :
    s.admits s.cfg.haltAddr = true ∧ t = { s.setWord s.cfg.haltAddr s.cfg.haltValue with ghalt := true } := by
  unfold State.haltAll at h
  split at h
  · rename_i ha
    cases h
    exact ⟨ha, rfl⟩
  · cases h

/-! ### The order of moves -/

/-- A scripted move is the next move. -/
theorem nextMove_cons {s : State} {m : Move} {rest : List Move} (h : s.script = m :: rest) :
    s.nextMove = (m, { s with script := rest }) := by
  simp [State.nextMove, h]

/-- Choosing the next move touches the schedule alone. -/
theorem nextMove_kept (s : State) :
    s.nextMove.2 = { s with script := s.nextMove.2.script, tick := s.nextMove.2.tick } := by
  unfold State.nextMove
  split <;> rfl

/-- An engine's move: its micro-step. -/
theorem step_engine {s t : State} {c : Nat} {d : Draw} (h : s.nextMove = (.engine c d, t)) :
    step s = (t.withTurn c d).engineStep := by
  simp [step, h]

/-- A host's move. -/
theorem step_host {s t : State} {m : HostMove} {d : Draw} (h : s.nextMove = (.host m d, t)) :
    step s = .next (t.hostMove m d) := by
  simp [step, h]

/-- The word an engine fetches is the one its sequencer holds, where it may step. -/
theorem fetch_some {s : State} {w : Word} (h : s.fetch = some w) :
    ∃ e q, s.cur = some e ∧ e.seq = some q ∧ q.cmd = w ∧ s.ghalt = false ∧ e.fault = none := by
  unfold State.fetch at h
  split at h
  · cases h
  · rename_i e hc
    split at h
    · rename_i hm
      cases hq : e.seq with
      | none => simp [hq] at h
      | some q =>
        simp only [hq, Option.map_some, Option.some.injEq] at h
        obtain ⟨hg, hf⟩ := mayStep_iff.mp hm
        exact ⟨e, q, hc, hq, h, hg, hf⟩
    · cases h

end Sys2Proof.Laws
end

