-- ==== Sys2Proof/Laws/PerInstr.lean ====
section
/-! SUPPORT. One lemma per command: its fields pass every legality check of R76, and its word holds them. -/

namespace Sys2Proof.Laws

/-- The fields of a word made of fields are those fields (R71). -/
theorem fieldsOf_wordOf (f : Fields) : fieldsOf (wordOf f) = f := by
  obtain ⟨op, strat, all, res, lane, imm⟩ := f
  simp only [fieldsOf, wordOf, Fields.mk.injEq]
  refine ⟨?_, ?_, ?_, ?_, ?_, ?_⟩ <;> apply BitVec.eq_of_getLsbD_eq <;> intro i hi <;>
    simp only [BitVec.getLsbD_extractLsb', BitVec.getLsbD_append, hi, decide_true, Bool.true_and] <;>
    simp <;> grind

/-- What the family says: the command's fields are well formed, and the command word is made of them. -/
def Encodes.Statement (i : Instr) : Prop := i.fields.wellFormed = true ∧ fieldsOf (encode i) = i.fields

/-- A command whose fields pass the checks. -/
theorem encodes_of_wellFormed {i : Instr} (h : i.fields.wellFormed = true) : Encodes.Statement i :=
  ⟨h, fieldsOf_wordOf i.fields⟩

theorem Encodes.hinitL (l : LaneNo) : Encodes.Statement (.hinitL l) := encodes_of_wellFormed rfl
theorem Encodes.hinitV : Encodes.Statement .hinitV := encodes_of_wellFormed rfl
theorem Encodes.wloadL (l : LaneNo) (b : BitVec 16) : Encodes.Statement (.wloadL l b) := encodes_of_wellFormed rfl
theorem Encodes.wloadV (b : BitVec 16) : Encodes.Statement (.wloadV b) := encodes_of_wellFormed rfl
theorem Encodes.wexpandL (l : LaneNo) : Encodes.Statement (.wexpandL l) := encodes_of_wellFormed rfl
theorem Encodes.wexpandV : Encodes.Statement .wexpandV := encodes_of_wellFormed rfl
theorem Encodes.compressL (l : LaneNo) : Encodes.Statement (.compressL l) := encodes_of_wellFormed rfl
theorem Encodes.compressV : Encodes.Statement .compressV := encodes_of_wellFormed rfl
theorem Encodes.hstoreL (l : LaneNo) : Encodes.Statement (.hstoreL l) := encodes_of_wellFormed rfl
theorem Encodes.hstoreV : Encodes.Statement .hstoreV := encodes_of_wellFormed rfl
theorem Encodes.processScalar (n : BitVec 16) : Encodes.Statement (.processScalar n) := encodes_of_wellFormed rfl
theorem Encodes.processVector (n : BitVec 16) : Encodes.Statement (.processVector n) := encodes_of_wellFormed rfl
theorem Encodes.processSpmd (n : BitVec 16) : Encodes.Statement (.processSpmd n) := encodes_of_wellFormed rfl
theorem Encodes.runScalar : Encodes.Statement .runScalar := encodes_of_wellFormed rfl
theorem Encodes.runVector : Encodes.Statement .runVector := encodes_of_wellFormed rfl
theorem Encodes.runSpmd : Encodes.Statement .runSpmd := encodes_of_wellFormed rfl
theorem Encodes.syncDec : Encodes.Statement .syncDec := encodes_of_wellFormed rfl
theorem Encodes.syncWait : Encodes.Statement .syncWait := encodes_of_wellFormed rfl
theorem Encodes.halt : Encodes.Statement .halt := encodes_of_wellFormed rfl
theorem Encodes.idle : Encodes.Statement .idle := encodes_of_wellFormed rfl

end Sys2Proof.Laws
end

