-- ==== Sys2Proof/Laws/Run.lean ====
section
/-! SUPPORT. The end of a run (R186): runs compose, the observation of a pipeline run's end is one, and a deadlock is no end. -/

namespace Sys2Proof.Laws

open Sys2Proof.Machine

@[simp] theorem makes_nil {s t : State} : s.makes [] t ↔ t = s := Iff.rfl

@[simp] theorem makes_cons {s t : State} {m : Move} {ms : List Move} :
    s.makes (m :: ms) t ↔ s.nextMove.1 = m ∧ ∃ u, step s = .next u ∧ u.makes ms t := Iff.rfl

/-- Moves made one after the other are made together. -/
theorem makes_append {ms ns : List Move} {s t : State} :
    s.makes (ms ++ ns) t ↔ ∃ u, s.makes ms u ∧ u.makes ns t := by
  induction ms generalizing s with
  | nil => simp
  | cons m ms ih => simp only [List.cons_append, makes_cons, ih]; grind

/-- A run of given moves leads to one state. -/
theorem makes_unique {ms : List Move} {s t u : State} (ht : s.makes ms t) (hu : s.makes ms u) : t = u := by
  induction ms generalizing s with
  | nil => exact ht.trans hu.symm
  | cons m ms ih =>
    obtain ⟨-, v, hv, ht⟩ := ht
    obtain ⟨-, w, hw, hu⟩ := hu
    obtain rfl : v = w := by simpa [hv] using hw
    exact ih ht hu

@[simp] theorem observe_mem (s : State) : s.observe.mem = s.mem := rfl
@[simp] theorem observe_engines (s : State) : s.observe.engines = s.engines := rfl
@[simp] theorem observe_active (s : State) : s.observe.active = s.active := rfl
@[simp] theorem observe_av (s : State) : s.observe.av = s.av := rfl
@[simp] theorem observe_ghalt (s : State) : s.observe.ghalt = s.ghalt := rfl

/-- The end of a pipeline run has one observation, in which GHALT = 1. -/
theorem pipelineEndsWith_unique {s : State} {o o' : Observation} (h : s.PipelineEndsWith o) (h' : s.PipelineEndsWith o') :
    o = o' ∧ o.ghalt = true := by
  obtain ⟨t, ht, rfl⟩ := h
  obtain ⟨u, hu, rfl⟩ := h'
  obtain rfl : t = u := by simpa [ht.event] using hu.event
  exact ⟨rfl, ht.after⟩

/-- A successful end of a pipeline run is an end of it. -/
theorem pipelineSucceeds_ends {s : State} {o : Observation} (h : s.PipelineSucceeds o) : s.PipelineEndsWith o := by
  obtain ⟨t, ht, -, ho⟩ := h
  exact ⟨t, ht, ho⟩

/-- A command run is not over before its whole program has been given: in particular not at its beginning. -/
theorem commandRunOver_given {s t : State} {p : List (Nat × Word)} {ms : List Move} (h : s.CommandRunOver p ms t) :
    commandsGiven ms ≠ [] := h.given ▸ h.program.1

/-- A command run is not over while an engine the host gave commands to is busy, be it stuck or holding. -/
theorem busy_not_commandRunOver {s t : State} {p : List (Nat × Word)} {ms : List Move} {cw : Nat × Word} {e : Engine}
    (hp : cw ∈ p) (he : t.engines[cw.1]? = some e) (hb : e.busy = true) : ¬ s.CommandRunOver p ms t := fun h => by
  simp [h.ready cw hp e he] at hb

/-- A deadlock is no end of a command run, whichever engines it holds. -/
theorem deadlocked_not_commandRunOver {s t : State} {p : List (Nat × Word)} {ms : List Move} (h : t.Deadlocked) :
    ¬ s.CommandRunOver p ms t := fun o => o.live h

/-- At the successful end of a command run no engine of the block is faulted, the ones outside its program among them. -/
theorem commandRunSucceeds_noFault {s t : State} {p : List (Nat × Word)} {ms : List Move}
    (h : s.CommandRunSucceeds p ms t) : t.noFault :=
  h.2 ms.length t (by simpa using h.1.1.run)

/-- A state in which every engine is ready, or has faulted, is no deadlock. -/
theorem not_deadlocked_of_ready {t : State} (h : ∀ e ∈ t.engines, e.busy = false) : ¬ t.Deadlocked := fun d => by
  obtain ⟨e, he, hb, -⟩ := d.held
  simp [h e he] at hb

/-- A deadlock is no end of a pipeline run, nor past one: GHALT is 0. -/
theorem deadlocked_not_ended {s t : State} (h : t.Deadlocked) : ¬ s.PipelineEnds t := fun e => by
  simpa [h.running] using e.after

end Sys2Proof.Laws
end

