-- ==== Sys2Proof/Tests/Slice0.lean ====
section
/-! SUPPORT. Tests, with results from the spec's examples and vectors (spec/95_test_vectors.md), and for every statement of
Certificates/Slice0/Obligations.lean that has hypotheses a witness that meets them. -/

namespace Sys2Proof.Tests

open Sys2Proof.Machine

-- one kernel evaluation at a time: side by side they need a thread and its stack each
set_option Elab.async false

/-! ### Legality, check by check (R76, R77) -/

/-- The fields of `hinit.l 5`. -/
def hinit5 : Fields := { op := 0x01, strat := 0, all := 0, res := 0, lane := 5, imm := 0 }

/-- The fields of `process.vector 4`. -/
def process4 : Fields := { op := 0x10, strat := 1, all := 0, res := 0, lane := 0, imm := 4 }

theorem test_wellFormed_accepts : hinit5.wellFormed = true ∧ process4.wellFormed = true := by decide

theorem test_wellFormed_unknownOp :
    ({ hinit5 with op := 0x06 } : Fields).reject = some .unknownOp ∧
      ({ hinit5 with op := 0x06 } : Fields).wellFormed = false := by decide

theorem test_wellFormed_strategyReserved :
    ({ process4 with strat := 3 } : Fields).reject = some .strategyReserved ∧
      ({ process4 with strat := 3 } : Fields).wellFormed = false := by decide

theorem test_wellFormed_strategyNotZero :
    ({ hinit5 with strat := 1 } : Fields).reject = some .strategyNotZero ∧
      ({ hinit5 with strat := 1 } : Fields).wellFormed = false := by decide

theorem test_wellFormed_allNotZero :
    ({ process4 with all := 1 } : Fields).reject = some .allNotZero ∧
      ({ process4 with all := 1 } : Fields).wellFormed = false := by decide

theorem test_wellFormed_reservedBit :
    ({ hinit5 with res := 1 } : Fields).reject = some .reservedBit ∧
      ({ hinit5 with res := 1 } : Fields).wellFormed = false := by decide

theorem test_wellFormed_laneNotZero :
    ({ hinit5 with all := 1 } : Fields).reject = some .laneNotZero ∧
      ({ process4 with lane := 1 } : Fields).reject = some .laneNotZero ∧
      ({ hinit5 with all := 1 } : Fields).wellFormed = false := by decide

theorem test_wellFormed_immNotZero :
    ({ hinit5 with imm := 1 } : Fields).reject = some .immNotZero ∧
      ({ hinit5 with imm := 1 } : Fields).wellFormed = false := by decide

/-! ### Decoding: words written out field by field as R71 lays them: IMM, LANE, bit 11, ALL, STRAT, OP -/

/-- A command word from its six fields, bits 31 to 0. -/
abbrev bits (imm : BitVec 16) (lane : BitVec 4) (res all : BitVec 1) (strat : BitVec 2) (op : BitVec 8) : Word :=
  imm ++ lane ++ res ++ all ++ strat ++ op

theorem test_decode_hinit :
    decode (bits 0b0000000000000000 0b1111 0b0 0b0 0b00 0b00000001) = .command (.hinitL 15) ∧
    decode (bits 0b0000000000000000 0b0000 0b0 0b1 0b00 0b00000001) = .command .hinitV := by decide

theorem test_decode_wload :
    decode (bits 0b0000000000000010 0b0011 0b0 0b0 0b00 0b00000010) = .command (.wloadL 3 2) ∧
    decode (bits 0b0000000000000001 0b0000 0b0 0b1 0b00 0b00000010) = .command (.wloadV 1) := by decide

theorem test_decode_wexpand :
    decode (bits 0b0000000000000000 0b0000 0b0 0b0 0b00 0b00000011) = .command (.wexpandL 0) ∧
    decode (bits 0b0000000000000000 0b0000 0b0 0b1 0b00 0b00000011) = .command .wexpandV := by decide

theorem test_decode_compress :
    decode (bits 0b0000000000000000 0b0111 0b0 0b0 0b00 0b00000100) = .command (.compressL 7) ∧
    decode (bits 0b0000000000000000 0b0000 0b0 0b1 0b00 0b00000100) = .command .compressV := by decide

theorem test_decode_hstore :
    decode (bits 0b0000000000000000 0b0000 0b0 0b0 0b00 0b00000101) = .command (.hstoreL 0) ∧
    decode (bits 0b0000000000000000 0b0000 0b0 0b1 0b00 0b00000101) = .command .hstoreV := by decide

theorem test_decode_process :
    decode (bits 0b0000000000000100 0b0000 0b0 0b0 0b00 0b00010000) = .command (.processScalar 4) ∧
    decode (bits 0b0000000000000100 0b0000 0b0 0b0 0b01 0b00010000) = .command (.processVector 4) ∧
    decode (bits 0b0000000000000001 0b0000 0b0 0b0 0b10 0b00010000) = .command (.processSpmd 1) := by decide

theorem test_decode_run :
    decode (bits 0b0000000000000000 0b0000 0b0 0b0 0b00 0b00100000) = .command .runScalar ∧
    decode (bits 0b0000000000000000 0b0000 0b0 0b0 0b01 0b00100000) = .command .runVector ∧
    decode (bits 0b0000000000000000 0b0000 0b0 0b0 0b10 0b00100000) = .command .runSpmd := by decide

theorem test_decode_completion :
    decode (bits 0b0000000000000000 0b0000 0b0 0b0 0b00 0b00110000) = .command .syncDec ∧
    decode (bits 0b0000000000000000 0b0000 0b0 0b0 0b00 0b00110001) = .command .syncWait ∧
    decode (bits 0b0000000000000000 0b0000 0b0 0b0 0b00 0b00110010) = .command .halt ∧
    decode (bits 0b0000000000000000 0b0000 0b0 0b0 0b00 0b00110011) = .command .idle := by decide

/-- The illegal words of V-E1. -/
theorem test_decode_illegal :
    ∀ p ∈ [((0x00000000 : Word), Reject.unknownOp), (0x00000006, .unknownOp), (0x00000311, .unknownOp),
        (0x00000310, .strategyReserved), (0x00001401, .laneNotZero), (0x00000801, .reservedBit),
        (0x00010001, .immNotZero), (0x00000101, .strategyNotZero), (0x00001402, .laneNotZero),
        (0x00000410, .allNotZero), (0x00010020, .immNotZero), (0x00001020, .laneNotZero),
        (0x00000330, .strategyNotZero), (0x00000034, .unknownOp), (0xFFFFFFFF, .unknownOp)],
      decode p.1 = .illegal p.2 := by decide

/-- The encoder's words of R75 and V-E1. -/
theorem test_encode :
    encode (.wloadL 15 65535) = 0xFFFFF002 ∧ encode (.wloadV 1) = 0x00010402 ∧ encode (.compressL 7) = 0x00007004 ∧
    encode (.processSpmd 1) = 0x00010210 ∧ encode .runVector = 0x00000120 ∧ encode .idle = 0x00000033 := by decide

theorem test_decodeTableWord : decodeTableWord 32 0x00040110 = some (.processVector 4) := by decide

/-! ### The pure functions -/

/-- V-X1. -/
theorem test_sigmas :
    [(0x80000000 : Word), 0x12345678, 0xdeadbeef].map bigSigma0 = [0x20040200, 0x66146474, 0xb62e25ac] ∧
    [(0x80000000 : Word), 0x12345678, 0xdeadbeef].map bigSigma1 = [0x02100040, 0x3561abda, 0x345e14a3] ∧
    [(0x80000000 : Word), 0x12345678, 0xdeadbeef].map smallSigma0 = [0x11002000, 0xe7fce6ee, 0xabd31b0b] ∧
    [(0x80000000 : Word), 0x12345678, 0xdeadbeef].map smallSigma1 = [0x00205000, 0xa1f78649, 0x689dbfec] := by decide

/-- V-X2. -/
theorem test_ch_maj :
    ch 0xf0f0f0f0 0xaaaaaaaa 0x55555555 = 0xa5a5a5a5 ∧ maj 0xf0f0f0f0 0xaaaaaaaa 0x55555555 = 0xf0f0f0f0 ∧
    ch 0x6a09e667 0xbb67ae85 0x3c6ef372 = 0x3e67b715 ∧ maj 0x6a09e667 0xbb67ae85 0x3c6ef372 = 0x3a6fe667 := by decide

/-- The first primes, those up to 311. -/
def primes : List Nat :=
  (List.range 312).filter fun p => decide (1 < p) && (List.range 18).all fun d => d < 2 || p ≤ d || p % d != 0

/-- R89: K[i] is the first 32 bits of the fractional part of the cube root of the i-th prime. -/
theorem test_rom_k :
    primes.length = 64 ∧ (primes.zip roundConstants.toList).all (fun pk =>
      (List.range 7).any fun whole =>
        let x := whole * 2 ^ 32 + pk.2.toNat
        x ^ 3 ≤ pk.1 * 2 ^ 96 && pk.1 * 2 ^ 96 < (x + 1) ^ 3) = true := by decide +kernel

/-- R100: IV[j] is the first 32 bits of the fractional part of the square root of the j-th prime. -/
theorem test_rom_iv :
    (primes.zip initialHash.toList).all (fun pk =>
      (List.range 5).any fun whole =>
        let x := whole * 2 ^ 32 + pk.2.toNat
        x ^ 2 ≤ pk.1 * 2 ^ 64 && pk.1 * 2 ^ 64 < (x + 1) ^ 2) = true := by decide +kernel

/-- V-C1, the first round from IV. -/
theorem test_round :
    roundStep roundConstants[0] 0 initialHash =
      #v[0xfc08884d, 0x6a09e667, 0xbb67ae85, 0x3c6ef372, 0x98c7e2a2, 0x510e527f, 0x9b05688c, 0x1f83d9ab] := by decide

/-- The block w[i] = i. -/
def counting : Vector Word 64 := blockFile (Vector.ofFn fun i => BitVec.ofNat 32 i.val)

/-- V-B1 and V-B2: the first computed words under SOURCE, the last under SOURCE. -/
theorem test_schedule :
    ((expand .source counting).toList.drop 16).take 4 = [0x79c80b09, 0xbdf00f8b, 0x60e5a99e, 0x27a7cbf1] ∧
    (expand .source counting)[63] = 0x2b209bce ∧ (expand .fips counting)[16] = 0x02070009 := by decide +kernel

/-- V-C3: digest of the block w[i] = i. -/
theorem test_compress_counting :
    hashBlocks .source [Vector.ofFn fun i => BitVec.ofNat 32 i.val] =
      #v[0x46095e73, 0x668a2f26, 0x62fe8512, 0xcab2c452, 0x038f07b1, 0x8dd5fdf5, 0xe6b59631, 0xbd8551c2] := by
  decide +kernel

/-- V-C5: the FIPS digest of "abc". -/
theorem test_compress_fips :
    hashBlocks .fips [#v[0x61626380, 0, 0, 0, 0, 0, 0, 0, 0, 0, 0, 0, 0, 0, 0, 0x00000018]] =
      #v[0xba7816bf, 0x8f01cfea, 0x414140de, 0x5dae2223, 0xb00361a3, 0x96177a9c, 0xb410ff61, 0xf20015ad] := by
  decide +kernel

/-! ### A small block -/

/-- BASE and HALT_ADDR away from each other, memory everywhere. -/
def cfg : Config where
  base := 0x10000
  haltAddr := 0x20000
  haltValue := 0xcafe
  regBase := [0x40000000]
  sharedBase := 0x50000000
  regions := [⟨0, 4294967296⟩]
  background := 0

/-- Lane `l` of V-B4's start state: IN_PTR = 0x4000 + 128·l, OUT_PTR = 0x8000 + 32·l. -/
def lane (l : LaneNo) : Lane :=
  { Lane.reset with inPtr := BitVec.ofNat 32 (0x4000 + 128 * l.val), outPtr := BitVec.ofNat 32 (0x8000 + 32 * l.val) }

/-- The 16 lanes, each changed by `f`. -/
def lanes (f : Lane → Lane) : Vector Lane 16 := Vector.ofFn fun l => f (lane l)

/-- A lane with H = IV and an expanded zero block. -/
def ready (x : Lane) : Lane := { x with h := initialHash, hv := true, wlv := true, wev := true }

/-- An engine at position `p` of the command `w`. -/
def busy (ls : Vector Lane 16) (w : Word) (p : Pos) : Engine :=
  { Engine.reset with lanes := ls, lastCmd := w, seq := some { cmd := w, pos := p } }

/-- A block of the given engines, memory empty, engine 0's turn. -/
def block (es : List Engine) : State where
  cfg := cfg
  engines := es
  active := 0
  av := false
  ghalt := false
  mem := []
  turn := { engine := 0, draw := Draw.zero }
  script := []
  tick := 0
  readData := 0

/-- A block of one engine at position `p` of the command `w`, its lanes changed by `f`. -/
def one (f : Lane → Lane) (w : Word) (p : Pos) : State := block [busy (lanes f) w p]

/-- What `p` says of the next state, where there is one. -/
def next (o : Host.Outcome State Fault Refusal) (p : State → Bool) : Bool :=
  match o with
  | .next t => p t
  | _ => false

/-- What `p` says of engine 0 of the next state. -/
def nextEngine (o : Host.Outcome State Fault Refusal) (p : Engine → Bool) : Bool :=
  next o fun t => (t.engines[0]?.map p).getD false

/-! ### One micro-step of each command -/

/-- R101's example. -/
theorem test_hinitL :
    nextEngine (exec (.hinitL 5) (one id 0x5001 .start)) (fun e =>
      (e.lane 5).h == initialHash && (e.lane 5).hv && !(e.lane 4).hv && e.seq.isNone) = true := by decide +kernel

theorem test_hinitV :
    nextEngine (exec .hinitV (one id 0x401 .start)) (fun e =>
      allLanes.all fun l => (e.lane l).h == initialHash && (e.lane l).hv && !(e.lane l).wlv) = true := by decide +kernel

/-- R106, V-M1: the last word of block 2 of lane 3, bytes 00 00 00 18, LITTLE; WLV is not yet set. -/
theorem test_wloadL_load :
    nextEngine (exec (.wloadL 3 2) { one id 0x23002 (.load 15) with mem := [(0x423f, 0x18)] }) (fun e =>
      (e.lane 3).w[15] == 0x18000000 && !(e.lane 3).wlv && e.pos? == some .mark) = true := by decide +kernel

/-- V-F2: a misaligned first read has no step. -/
theorem test_wloadL_stuck :
    next (exec (.wloadL 0 0) (one (fun x => { x with inPtr := 0x1002 }) 0x2 (.load 0))) (fun t =>
      t == one (fun x => { x with inPtr := 0x1002 }) 0x2 (.load 0)) = true := by decide +kernel

/-- R107's example: step j of `wload.v 1` reads 0x4040 + 128·l + 4·j; the drawn element is lane 15's. -/
theorem test_wloadV_gather :
    nextEngine (exec (.wloadV 1) { one id 0x10402 (.gather 2 allLanes) with
        mem := [(0x47c8, 0x07)], turn := { engine := 0, draw := { Draw.zero with lane := 15 } } }) (fun e =>
      (e.lane 15).w[2] == 7 && e.pos? == some (.gather 2 (allLanes.take 15))) = true := by decide +kernel

theorem test_wloadV_lastElement :
    nextEngine (exec (.wloadV 1) (one id 0x10402 (.gather 15 [4]))) (fun e => e.pos? == some .mark) = true := by
  decide +kernel

/-- R108's example. -/
theorem test_wexpandL :
    nextEngine (exec (.wexpandL 0) (one (fun x => { x with w := counting, wlv := true }) 0x3 .start)) (fun e =>
      (e.lane 0).wev && (e.lane 0).w[16] == 0x79c80b09 && (e.lane 0).w[15] == 15 && !(e.lane 1).wev) = true := by
  decide +kernel

/-- V-F1: `wexpand.v` from reset. -/
theorem test_wexpandV_fault :
    nextEngine (exec .wexpandV (one id 0x403 .start)) (fun e => e.status false == 0x00010022 && e.finfo == 0x403) =
      true := by decide +kernel

/-- V-C1: the zero block from IV. -/
theorem test_compressL :
    nextEngine (exec (.compressL 0) (one ready 0x4 .start)) (fun e =>
      (e.lane 0).h == #v[0xda5698be, 0x17b9b469, 0x62335799, 0x779fbeca, 0x8ce5d491, 0xc0d26243, 0xbafef9ea, 0x1837a9d8]
        && (e.lane 0).v ==
          #v[0x704cb257, 0x5c5205e4, 0x25c46427, 0xd24fc990, 0x3bd78212, 0x25ccf9b7, 0x9b7b203f, 0xbc56dcbf]
        && (e.lane 0).vv && !(e.lane 1).vv) = true := by decide +kernel

/-- V-F1: `hinit.v ; wload.v 0 ; compress.v`. -/
theorem test_compressV_fault :
    nextEngine (exec .compressV (one (fun x => { x with hv := true, wlv := true }) 0x404 .start)) (fun e =>
      e.status false == 0x00020022 && e.finfo == 0x404 && !(e.lane 0).vv) = true := by decide +kernel

/-- V-C11: compressing the expanded zero block on the digest of the zero block. -/
theorem test_compressV_again :
    nextEngine (exec .compressV (one (fun x => Lane.compressBlock (ready x)) 0x404 .start)) (fun e =>
      (e.lane 15).h ==
        #v[0x68819422, 0x197e5f1d, 0xdcc24903, 0xa8459467, 0x7c687e70, 0x1c623cd2, 0x82cd59d8, 0xe5e4df2b]) = true := by
  decide +kernel

/-- V-M1: digest word da5698be in memory, LITTLE. -/
theorem test_hstoreL_little :
    next (exec (.hstoreL 0) (one (fun x => { x with h := x.h.set 0 0xda5698be, hv := true }) 0x5 (.store 0))) (fun t =>
      t.mem == [(0x8000, 0xbe), (0x8001, 0x98), (0x8002, 0x56), (0x8003, 0xda)]) = true := by decide +kernel

/-- V-M1: the same, BIG. -/
theorem test_hstoreL_big :
    next (exec (.hstoreL 0) { one (fun x => { x with h := x.h.set 0 0xda5698be, hv := true }) 0x5 (.store 0) with
        cfg := { cfg with memEndian := .big } }) (fun t =>
      t.mem == [(0x8000, 0xda), (0x8001, 0x56), (0x8002, 0x98), (0x8003, 0xbe)]) = true := by decide +kernel

/-- V-F1: `hinit.l 0 ; hstore.v` finds lane 1 unwritten. -/
theorem test_hstoreV_fault :
    nextEngine (exec .hstoreV (block [(busy (lanes id) 0x405 .start).updLane 0 Lane.hinit])) (fun e =>
      e.status false == 0x00001022 && e.finfo == 0x405) = true := by decide +kernel

/-- R111: scatter step 1 of lane 2, at 0x8040 + 4. -/
theorem test_hstoreV_scatter :
    next (exec .hstoreV (one (fun x => { x with h := x.h.set 1 0x11, hv := true }) 0x405 (.scatter 1 [2]))) (fun t =>
      t.mem == [(0x8044, 0x11)]) = true := by decide +kernel

/-- R122: after HINIT.L of lane 0, block 0; with n = 0 the digest (R127). -/
theorem test_processScalar :
    nextEngine (exec (.processScalar 1) (one id 0x10010 .start)) (fun e =>
      (e.lane 0).hv && !(e.lane 1).hv && e.pos? == some (.body (.scalar 0 (.clear 0)))) = true ∧
    nextEngine (exec (.processScalar 0) (one id 0x10 .start)) (fun e =>
      e.pos? == some (.body (.scalar 0 (.store 0)))) = true := by decide +kernel

/-- R122: after the last write of lane 14 comes lane 15, and after lane 15's the end. -/
theorem test_processScalar_lanes :
    nextEngine (exec (.processScalar 0) (one ready 0x10 (.body (.scalar 14 (.store 7))))) (fun e =>
      e.pos? == some (.body (.scalar 15 .init))) = true ∧
    nextEngine (exec (.processScalar 0) (one ready 0x10 (.body (.scalar 15 (.store 7))))) (fun e =>
      e.pos? == some (.body .finished)) = true := by decide +kernel

/-- R123: HINIT.V, then the gather of block 0. -/
theorem test_processVector :
    nextEngine (exec (.processVector 2) (one id 0x20110 .start)) (fun e =>
      (e.lane 15).hv && e.pos? == some (.body (.vector (.clear 0)))) = true ∧
    nextEngine (exec (.processVector 2) (one ready 0x20110 (.body (.vector (.compress 1))))) (fun e =>
      e.pos? == some (.body (.vector (.scatter 0 allLanes)))) = true := by decide +kernel

/-- R124: the drawn agent alone moves. -/
theorem test_processSpmd :
    nextEngine (exec (.processSpmd 1) { one id 0x10210 .start with
        turn := { engine := 0, draw := { Draw.zero with lane := 7 } } }) (fun e =>
      (e.lane 7).hv && !(e.lane 6).hv &&
        e.pos? == some (.body (.spmd ((Vector.replicate 16 LanePos.init).set 7 (.clear 0))))) = true := by
  decide +kernel

/-- R124: the join. -/
theorem test_processSpmd_join :
    nextEngine (exec (.processSpmd 1) (one id 0x10210 (.body (.spmd (Vector.replicate 16 .done))))) (fun e =>
      e.pos? == some (.body .finished) && e.busy) = true := by decide +kernel

/-- R130, R131 in context 1: IN1[15] = 0x11000 + 480. -/
theorem test_runScalar_tableIn :
    next (exec .runScalar { block [Engine.reset, busy (lanes id) 0x20 .start] with
        turn := { engine := 1, draw := Draw.zero } }) (fun t =>
      (t.engines[1]?.map fun e => (e.lane 15).inPtr == 0x000111e0 && (e.lane 15).outPtr == 0x000081e0).getD false) =
      true := by decide +kernel

/-- R131, program P4: OUT2[1] = 0x10800 + 32. -/
theorem test_runVector_tableOut :
    nextEngine (exec .runVector (one id 0x120 (.tableOut 3 .second))) (fun e =>
      (e.lane 1).outPtr == 0x00010820 && e.pos? == some (.pass 3 .second (.vector .init))) = true := by decide +kernel

/-- R132, R136: after the second pass of iteration 2 comes iteration 3, and after that of iteration 3 the completion. -/
theorem test_runSpmd_afterPass :
    nextEngine (exec .runSpmd (one id 0x220 (.pass 2 .second .finished))) (fun e =>
      e.pos? == some (.tableIn 3 .first)) = true ∧
    nextEngine (exec .runSpmd (one id 0x220 (.pass 3 .second .finished))) (fun e => e.pos? == some .enterWait) = true := by
  decide +kernel

/-- R141: 3 becomes 2, and 0 wraps. -/
theorem test_syncDec :
    next (exec .syncDec { one id 0x30 .start with active := 3, av := true }) (fun t => t.active == 2) = true ∧
    next (exec .syncDec { one id 0x30 .start with active := 0, av := true }) (fun t => t.active == 0xffffffff) = true := by
  decide +kernel

/-- V-F1: ACTIVE never written. -/
theorem test_syncDec_fault :
    nextEngine (exec .syncDec (one id 0x30 .start)) (fun e => e.status false == 0x00030022 && e.finfo == 0x30) = true := by
  decide +kernel

/-- V-P3: holding in SYNC.WAIT, STATUS = 0x101. -/
theorem test_syncWait :
    nextEngine (exec .syncWait { one id 0x31 .start with active := 1, av := true }) (fun e =>
      e.status false == 0x00000101 && e.pos? == some .polling) = true := by decide +kernel

/-- V-P3, P4: after the halt STATUS = 0x401 and SHARED_STATUS = 3; HALT_VALUE stands at HALT_ADDR. -/
theorem test_halt :
    next (exec .halt { one id 0x32 .start with av := true }) (fun t =>
      t.sharedStatus == 3 && t.wordAt 0x20000 == 0xcafe &&
        (t.engines[0]?.map fun e => e.status t.ghalt == 0x00000401).getD false) = true := by decide +kernel

/-- V-P3: in IDLE, STATUS = 0x201. -/
theorem test_idle :
    nextEngine (exec .idle (one id 0x33 .start)) (fun e => e.status false == 0x00000201) = true := by decide +kernel

/-! ### Steps and host moves -/

/-- A placed word runs in the next step. -/
theorem test_withFetchWord :
    nextEngine (step ((block [Engine.reset]).withFetchWord 32 0x00005001)) (fun e => (e.lane 5).hv && e.seq.isNone) =
      true := by decide +kernel

/-- V-F1: `hinit.l 1`, then 0x00000311 written to CMD. -/
theorem test_host_illegal :
    (((block [{ Engine.reset with lastCmd := 0x1001 }]).hostMove (.writeReg 0 0 0x00000311) Draw.zero).engines[0]?.map
      fun e => e.status false == 0x00000012 && e.finfo == 0x00000311 && e.lastCmd == 0x1001 && e.seq.isNone) =
      some true := by decide +kernel

/-- V-R1: CTX_ID of engine 1, and a free draw for an unwritten H. -/
theorem test_host_reads :
    ((block [Engine.reset, Engine.reset]).hostMove (.readReg 1 3) Draw.zero).readData = 1 ∧
    ((block [Engine.reset]).hostMove (.readReg 0 64) { Draw.zero with word := 0x1234 }).readData = 0x1234 := by
  decide +kernel

/-- R34: word numbers at both ends of every group of registers. -/
theorem test_regAt :
    regAt 16 = .inPtr 0 ∧ regAt 47 = .outPtr 15 ∧ regAt 48 = .reserved ∧ regAt 64 = .hash 0 0 ∧ regAt 191 = .hash 15 7 ∧
    regAt 192 = .reserved ∧ regAt 256 = .sched 0 0 ∧ regAt 1279 = .sched 15 63 ∧ regAt 1280 = .work 0 0 ∧
    regAt 1407 = .work 15 7 ∧ regAt 1408 = .valid 0 ∧ regAt 1423 = .valid 15 ∧ regAt 1424 = .reserved := by decide

/-! ### The end of a run (R186) -/

/-- Context 0 of a one-engine block issues the HALT of its command, by the script. -/
def halting (w : Word) (p : Pos) : State := { one id w p with script := [.engine 0 Draw.zero] }

/-- RUN's HALT ends a pipeline run, successfully and with the halt word in memory. -/
theorem test_pipelineEnds : ∃ o, (halting 0x20 .halting).PipelineSucceeds o ∧ o.mem = [(0x20000, 0xfe), (0x20001, 0xca)] :=
  ⟨_, ⟨_, ⟨⟨_, List.mem_singleton.mpr rfl, .scalar, rfl⟩, rfl, rfl, rfl⟩,
    fun e he => by obtain rfl := List.mem_singleton.mp he; rfl, rfl⟩, by decide +kernel⟩

/-- A HALT with no engine given RUN ends no pipeline run. -/
theorem test_halt_endsNoPipeline (t : State) : ¬ (halting 0x32 .start).PipelineEnds t := by
  rintro ⟨⟨e, he, st, h⟩, -, -, -⟩
  obtain rfl := List.mem_singleton.mp he
  cases st <;> exact absurd h (by decide)

/-- The host gives one ready engine `hinit.l 5`, which then steps. -/
def hinitMoves : List Move := [.host (.writeReg 0 0 0x5001) Draw.zero, .engine 0 Draw.zero]

/-- That run's beginning. -/
def hinitRun : State := { block [Engine.reset] with script := hinitMoves }

/-- The block after the CMD write. -/
def hinitIssued : State := { block [Engine.reset.accept 0x5001] with script := [.engine 0 Draw.zero] }

/-- The block after the engine's step. -/
def hinitDone : State := block [((Engine.reset.accept 0x5001).updLane 5 Lane.hinit).complete]

theorem hinitRun_issues : step hinitRun = .next hinitIssued := rfl

theorem hinitIssued_steps : step hinitIssued = .next hinitDone := rfl

/-- The states of that run, after each number of moves. -/
theorem hinitRun_states {k : Nat} {u : State} (h : hinitRun.makes (hinitMoves.take k) u) :
    k = 0 ∧ u = hinitRun ∨ k = 1 ∧ u = hinitIssued ∨ 2 ≤ k ∧ u = hinitDone := by
  match k with
  | 0 => exact .inl ⟨rfl, h⟩
  | 1 => exact .inr (.inl ⟨rfl, Laws.makes_unique h ⟨rfl, _, hinitRun_issues, rfl⟩⟩)
  | k + 2 =>
    have done : hinitRun.makes (hinitMoves.take (k + 2)) hinitDone := ⟨rfl, _, hinitRun_issues, rfl, _, hinitIssued_steps, by simp⟩
    exact .inr (.inr ⟨by omega, Laws.makes_unique h done⟩)

/-- The command run of `hinit.l 5` ends with the engine's step, and neither at its beginning nor at the CMD write; no
engine is faulted in it. -/
theorem test_commandRunEnds : hinitRun.CommandRunSucceeds [(0, 0x5001)] hinitMoves hinitDone := by
  have hp : isCommandProgram [(0, 0x5001)] :=
    ⟨by decide, fun cw h => by obtain rfl := List.mem_singleton.mp h; exact ⟨.hinitL 5, by decide, rfl⟩⟩
  have run : hinitRun.makes hinitMoves hinitDone :=
    ⟨rfl, _, hinitRun_issues, rfl, _, hinitIssued_steps, rfl⟩
  refine ⟨⟨⟨hp, run, rfl, fun cw h e he => ?_, Laws.not_deadlocked_of_ready fun e he => ?_⟩, fun k hk u early => ?_⟩,
    fun k u hu e he => ?_⟩
  · obtain rfl := List.mem_singleton.mp h
    obtain rfl := Option.some.inj he
    rfl
  · obtain rfl := List.mem_singleton.mp he
    rfl
  · obtain ⟨rfl, -⟩ | ⟨rfl, rfl⟩ | ⟨h2, -⟩ := hinitRun_states early.run
    · exact absurd early.given (by decide)
    · exact Laws.busy_not_commandRunOver (List.mem_singleton.mpr rfl) rfl rfl early
    · simp [hinitMoves] at hk; omega
  · obtain ⟨-, rfl⟩ | ⟨-, rfl⟩ | ⟨-, rfl⟩ := hinitRun_states hu <;> obtain rfl := List.mem_singleton.mp he <;> rfl

/-- The end of that run beside an engine that faulted before it, which the program gives no command to, is no success. -/
theorem test_commandRun_besideFault (s : State) (ms : List Move) :
    ¬ s.CommandRunSucceeds [(0, 0x5001)] ms
      { hinitDone with engines := hinitDone.engines ++ [Engine.reset.raise .illegalCmd 0x311] } := fun h => by
  simpa [Engine.raise] using Laws.commandRunSucceeds_noFault h (Engine.reset.raise .illegalCmd 0x311) (by simp)

/-- V-F2: an engine stuck on a misaligned read, alone, is a deadlock. -/
theorem test_stuck_deadlocks :
    (one (fun x => { x with inPtr := 0x1002 }) 0x2 (.load 0)).Deadlocked :=
  ⟨rfl, ⟨_, List.mem_singleton.mpr rfl, rfl, rfl⟩, fun c hc d => by
    obtain rfl : c = 0 := by simpa [one, block] using hc
    rfl⟩

/-! ### What the witnesses share -/

/-- An engine of `one` is running its command. -/
theorem running_one (f : Lane → Lane) (w : Word) (p : Pos) :
    (one f w p).running (busy (lanes f) w p) { cmd := w, pos := p } := ⟨rfl, rfl, rfl, rfl⟩

/-- A lane of the small block. -/
theorem lane_busy (f : Lane → Lane) (w : Word) (p : Pos) (l : LaneNo) : (busy (lanes f) w p).lane l = f (lane l) := by
  simp [busy, lanes, Engine.lane]

/-- Memory of the small block admits every aligned word. -/
theorem admits_block (es : List Engine) {a : Addr} (h : a.toNat % 4 = 0) : (block es).admits a = true := by
  have := a.isLt
  simp only [State.admits, State.provides, block, cfg, List.any_cons, List.any_nil, Bool.or_false, Bool.and_eq_true,
    decide_eq_true_eq]
  omega

/-- Block and digest addresses of the small block are aligned. -/
theorem aligned_lane (l : LaneNo) (b j : Nat) :
    ((lane l).blkaddr b j).toNat % 4 = 0 ∧ ((lane l).digaddr j).toNat % 4 = 0 := by
  simp only [lane, Lane.blkaddr, Lane.digaddr, BitVec.toNat_add, BitVec.toNat_ofNat]
  omega

/-- V-B4's windows are apart for up to 128 blocks. -/
theorem windows_apart (w : Word) (p : Pos) (n : Nat) (hn : n ≤ 128) : (busy (lanes id) w p).windowsApart n := by
  intro l k hlk a ⟨i, hi, ha⟩
  have hne : l.val ≠ k.val := fun h => hlk (Fin.ext h)
  have hl := l.isLt
  have hk := k.isLt
  have ha := congrArg BitVec.toNat ha
  refine ⟨?_, ?_⟩
  · rintro ⟨j, hj, hb⟩
    have hb := congrArg BitVec.toNat hb
    simp only [lane_busy, id, lane, BitVec.toNat_add, BitVec.toNat_ofNat] at ha hb
    omega
  · rintro ⟨b, j, hbn, hj, hb⟩
    have hb := congrArg BitVec.toNat hb
    simp only [lane_busy, id, lane, Lane.blkaddr, BitVec.toNat_add, BitVec.toNat_ofNat] at ha hb
    omega

/-- No digest of the small block stands at HALT_ADDR. -/
theorem halt_apart (w : Word) (p : Pos) : (one id w p).haltPortApart (busy (lanes id) w p) := by
  have apart : ∀ (l : LaneNo) (j : Fin 8), (lane l).digaddr j ≠ 0x20000 := by decide +kernel
  intro l j
  rw [lane_busy]
  exact apart l j

/-- The command ends within `n` micro-steps of draw zero. -/
def endsIn (n : Nat) (i : Instr) (s : State) : Bool :=
  next (turns i (List.replicate n Draw.zero) s) fun t => (t.cur.map fun e => e.seq.isNone).getD false

/-- What `endsIn` says. -/
theorem endsIn_spec {n : Nat} {i : Instr} {s : State} (h : endsIn n i s = true) :
    ∃ t e', turns i (List.replicate n Draw.zero) s = .next t ∧ t.cur = some e' ∧ e'.seq = none := by
  unfold endsIn next at h
  split at h
  · rename_i t ht
    cases hc : t.cur with
    | none => simp [hc] at h
    | some e' =>
      simp only [hc, Option.map_some, Option.getD_some, Option.isNone_iff_eq_none] at h
      exact ⟨t, e', ht, hc, h⟩
  · cases h

/-! ### Witnesses: the hypotheses of each statement can be met, clause by clause -/

theorem witness_LegalWordsAreTheTableRows :
    decode 0xfffff002 = .command (.wloadL 15 65535) ∧
    ∃ r ∈ opcodeRows, r.matches 0xfffff002 = true ∧ r.mnemonic = "WLOAD.L" := by decide

theorem witness_DecodedWordsEncodeBack : decode 0xfffff002 = .command (.wloadL 15 65535) := by decide

/-- The block of `one` with the next move decided. -/
def scripted (s : State) (m : Move) : State := { s with script := [m] }

theorem witness_StepRunsTheDecodedCommand :
    ((scripted (one id 0x5001 .start) (.engine 0 Draw.zero)).nextMove = (.engine 0 Draw.zero, one id 0x5001 .start) ∧
      ((one id 0x5001 .start).withTurn 0 Draw.zero).fetch = some 0x5001 ∧ decode 0x5001 = .command (.hinitL 5)) ∧
    ((scripted (block [Engine.reset]) (.engine 0 Draw.zero)).nextMove = (.engine 0 Draw.zero, block [Engine.reset]) ∧
      (block [Engine.reset]).engines ≠ [] ∧ ((block [Engine.reset]).withTurn 0 Draw.zero).fetch = none) ∧
    decode (tableWord 32 0xfffff002) = .command (.wloadL 15 65535) := by
  refine ⟨⟨rfl, rfl, by decide⟩, ⟨rfl, by decide, rfl⟩, by decide⟩

theorem witness_CmdWriteIssuesTheCommand :
    (block [Engine.reset]).engines[0]? = some Engine.reset ∧ Engine.reset.seq = none ∧ Engine.reset.fault = none ∧
    (block [Engine.reset]).ghalt = false ∧ decode 0xfffff002 = .command (.wloadL 15 65535) ∧
    decode 0 = .illegal .unknownOp := ⟨rfl, rfl, rfl, rfl, by decide, by decide⟩

/-- A faulted engine. -/
def faulted : Engine := { Engine.reset with fault := some { cause := .illegalCmd, info := 0 } }

theorem witness_WritesToUnreadyEnginesAreDropped :
    ((one id 0x31 .polling).engines[0]? = some (busy (lanes id) 0x31 .polling) ∧
      (busy (lanes id) 0x31 .polling).seq.isSome = true) ∧
    ((block [faulted]).engines[0]? = some faulted ∧ faulted.fault.isSome = true) ∧
    ({ block [Engine.reset] with ghalt := true }.engines[0]? = some Engine.reset ∧
      { block [Engine.reset] with ghalt := true }.ghalt = true) := ⟨⟨rfl, rfl⟩, ⟨rfl, rfl⟩, rfl, rfl⟩

theorem witness_HostWritesReachTheirRegisters :
    ((block [Engine.reset]).engines[0]? = some Engine.reset ∧ Engine.reset.seq = none ∧ Engine.reset.fault = none ∧
      (block [Engine.reset]).ghalt = false) ∧
    (∀ r ∈ [1, 15], 1 ≤ r ∧ r ≤ 15) ∧ { block [Engine.reset] with ghalt := true }.ghalt = true :=
  ⟨⟨rfl, rfl, rfl, rfl⟩, by decide, rfl⟩

/-- An engine whose every register group is written. -/
def written : Engine := { Engine.reset with lanes := lanes fun x => Lane.compressBlock (ready x) }

theorem witness_HostReadsTheRegisterMap :
    (block [written]).engines[0]? = some written ∧
    (∀ r ∈ [4, 15, 48, 63, 192, 255, 1424], (4 ≤ r ∧ r ≤ 15) ∨ (48 ≤ r ∧ r ≤ 63) ∨ (192 ≤ r ∧ r ≤ 255) ∨ 1424 ≤ r) ∧
    (∀ l ∈ [(0 : LaneNo), 15], (written.lane l).hv = true ∧ (written.lane l).wlv = true ∧ (written.lane l).wev = true ∧
      (written.lane l).vv = true) ∧
    { block [written] with av := true }.av = true := ⟨rfl, by decide, by decide +kernel, rfl⟩

theorem witness_UnwrittenRegistersReadAsTheDraw :
    (block [Engine.reset]).engines[0]? = some Engine.reset ∧
    (∀ l ∈ [(0 : LaneNo), 15], (Engine.reset.lane l).hv = false ∧ (Engine.reset.lane l).vv = false ∧
      ((15 < 16 ∧ (Engine.reset.lane l).wlv = false) ∧ (16 ≤ 16 ∧ (Engine.reset.lane l).wev = false))) ∧
    (block [Engine.reset]).av = false := ⟨rfl, by decide, rfl⟩

theorem witness_StatusFieldsStandWhereTheTableSays :
    Engine.reset.fault = none ∧ faulted.fault = some { cause := .illegalCmd, info := 0 } ∧
    ∀ g ∈ [Group.hash, .block, .schedule, .active],
      (Engine.reset.raise (.uninitRead g 15) 4).fault = some { cause := .uninitRead g 15, info := 4 } :=
  ⟨rfl, rfl, by decide⟩

theorem witness_ResetEventRestoresResetValues :
    (scripted (block [faulted]) (.host .reset Draw.zero)).nextMove = (.host .reset Draw.zero, block [faulted]) := rfl

theorem witness_ResetStateIsAsTheTable : State.reset.engines[0]? = some Engine.reset := rfl

theorem witness_ChooseAndMajorityAreBitwise : ∀ k ∈ [0, 31], k < 32 := by decide

theorem witness_ScheduleFollowsTheRecurrence : (∀ i ∈ [0, 15], i < 16 ∧ i < 64) ∧ ∀ i ∈ [16, 63], 16 ≤ i ∧ i < 64 := by
  decide

theorem witness_StoredWordReadsBack :
    (block []).memWf ∧ (0#32).toNat % 4 = 0 ∧ (0xfffffffc#32).toNat % 4 = 0 := ⟨rfl, by simp, by simp⟩

theorem witness_CanonicalMemoriesAreDetermined :
    Mem.wf 0 [(0, 1), (4294967295, 2)] = true ∧
    ∀ a, Mem.readByte 0 [(0, 1), (4294967295, 2)] a = Mem.readByte 0 [(0, 1), (4294967295, 2)] a :=
  ⟨by decide, fun _ => rfl⟩

theorem witness_HinitLoadsTheInitialHash :
    (one id 0xf001 .start).running (busy (lanes id) 0xf001 .start) { cmd := 0xf001, pos := .start } := running_one _ _ _

theorem witness_WloadLMakesItsMicroSteps :
    (∀ p ∈ [Pos.start, .load 0, .load 15, .mark],
      (one id 0xfffff002 p).running (busy (lanes id) 0xfffff002 p) { cmd := 0xfffff002, pos := p }) ∧
    ∀ j ∈ [(0 : Fin 16), 15], (one id 0xfffff002 (.load j)).admits ((lane 15).inPtr +
      BitVec.ofNat 32 (64 * (65535 : BitVec 16).toNat) + BitVec.ofNat 32 (4 * j.val)) = true :=
  ⟨fun p _ => running_one id _ p, by decide +kernel⟩

theorem witness_WloadLLoadsTheWholeBlock :
    (one id 0xfffff002 .start).running (busy (lanes id) 0xfffff002 .start) { cmd := 0xfffff002, pos := .start } ∧
    (∀ j : Fin 16, (one id 0xfffff002 .start).admits
      (((busy (lanes id) 0xfffff002 .start).lane 15).blkaddr (65535 : BitVec 16).toNat j) = true) ∧
    (List.replicate 18 Draw.zero).length = 18 := by
  refine ⟨running_one _ _ _, fun j => ?_, rfl⟩
  rw [lane_busy]
  exact admits_block _ (aligned_lane 15 _ j).1

theorem witness_WloadVMakesItsMicroSteps :
    (∀ p ∈ [Pos.start, .gather 0 allLanes, .gather 15 [15], .mark],
      (one id 0x402 p).running (busy (lanes id) 0x402 p) { cmd := 0x402, pos := p }) ∧
    (allLanes[(one id 0x402 (.gather 0 allLanes)).turn.draw.lane.val % allLanes.length]? = some 0 ∧
      [(15 : LaneNo)][(one id 0x402 (.gather 15 [15])).turn.draw.lane.val % 1]? = some 15) ∧
    ∀ l ∈ [(0 : LaneNo), 15], (one id 0x402 .start).admits
      ((lane l).inPtr + BitVec.ofNat 32 (64 * (0 : BitVec 16).toNat) + BitVec.ofNat 32 (4 * 15)) = true :=
  ⟨fun p _ => running_one id _ p, by decide, by decide +kernel⟩

theorem witness_WloadVLoadsEveryLane :
    (one id 0xffff0402 .start).running (busy (lanes id) 0xffff0402 .start) { cmd := 0xffff0402, pos := .start } ∧
    (∀ (l : LaneNo) (j : Fin 16), (one id 0xffff0402 .start).admits
      (((busy (lanes id) 0xffff0402 .start).lane l).blkaddr (65535 : BitVec 16).toNat j) = true) ∧
    (List.replicate 258 Draw.zero).length = 258 := by
  refine ⟨running_one _ _ _, fun l j => ?_, List.length_replicate⟩
  rw [lane_busy]
  exact admits_block _ (aligned_lane l _ j).1

theorem witness_WexpandExpandsLoadedLanes :
    (one ready 0x403 .start).running (busy (lanes ready) 0x403 .start) { cmd := 0x403, pos := .start } ∧
    ∀ l, ((busy (lanes ready) 0x403 .start).lane l).wlv = true :=
  ⟨running_one _ _ _, fun l => by rw [lane_busy]; rfl⟩

/-- Lanes 0 to 14 ready, lane 15 fresh. -/
def lastFresh : Vector Lane 16 := (lanes ready).set 15 (lane 15)

theorem witness_WexpandFaultsOnUnloadedLanes :
    (block [busy lastFresh 0x403 .start]).running (busy lastFresh 0x403 .start) { cmd := 0x403, pos := .start } ∧
    ((busy lastFresh 0x403 .start).lane 15).wlv = false ∧
    ∀ k, k < (15 : LaneNo) → ((busy lastFresh 0x403 .start).lane k).wlv = true :=
  ⟨⟨rfl, rfl, rfl, rfl⟩, rfl, by decide +kernel⟩

theorem witness_CompressFoldsTheBlock :
    (one ready 0x404 .start).running (busy (lanes ready) 0x404 .start) { cmd := 0x404, pos := .start } ∧
    ∀ l, ((busy (lanes ready) 0x404 .start).lane l).hv = true ∧ ((busy (lanes ready) 0x404 .start).lane l).wlv = true ∧
      ((busy (lanes ready) 0x404 .start).lane l).wev = true :=
  ⟨running_one _ _ _, fun l => by rw [lane_busy]; exact ⟨rfl, rfl, rfl⟩⟩

/-- Lanes 0 to 14 ready, lane 15 with the valid bits given. -/
def lastWith (hv wlv wev : Bool) : Vector Lane 16 := (lanes ready).set 15 { lane 15 with hv, wlv, wev }

theorem witness_CompressFaultsInOrder :
    (∀ v, (block [busy v 0x404 .start]).running (busy v 0x404 .start) { cmd := 0x404, pos := .start }) ∧
    ((busy (lastWith false true true) 0x404 .start).lane 15).hv = false ∧
    (((busy (lastWith true false true) 0x404 .start).lane 15).hv = true ∧
      ((busy (lastWith true false true) 0x404 .start).lane 15).wlv = false) ∧
    (((busy (lastWith true true false) 0x404 .start).lane 15).hv = true ∧
      ((busy (lastWith true true false) 0x404 .start).lane 15).wlv = true ∧
      ((busy (lastWith true true false) 0x404 .start).lane 15).wev = false) ∧
    ∀ k, k < (15 : LaneNo) → ((busy (lastWith false true true) 0x404 .start).lane k).hv = true ∧
      ((busy (lastWith false true true) 0x404 .start).lane k).wlv = true ∧
      ((busy (lastWith false true true) 0x404 .start).lane k).wev = true :=
  ⟨fun _ => ⟨rfl, rfl, rfl, rfl⟩, rfl, ⟨rfl, rfl⟩, ⟨rfl, rfl, rfl⟩, by decide +kernel⟩

/-- HALT_ADDR on lane 15's last digest word. -/
def onPort (w : Word) (p : Pos) : State := { one ready w p with cfg := { cfg with haltAddr := 0x81fc } }

/-- The last digest word of lane 15 falls on HALT_ADDR, which memory admits. -/
theorem onPort_hits (w : Word) (p : Pos) :
    (onPort w p).running (busy (lanes ready) w p) { cmd := w, pos := p } ∧
    (onPort w p).admits (onPort w p).cfg.haltAddr = true ∧
    ((busy (lanes ready) w p).lane 15).outPtr + BitVec.ofNat 32 (4 * 7) = (onPort w p).cfg.haltAddr := by
  rw [lane_busy]
  refine ⟨⟨rfl, rfl, rfl, rfl⟩, ?_, ?_⟩
  · change State.admits { block [] with cfg := { cfg with haltAddr := 0x81fc } } 0x81fc = true
    decide +kernel
  · rfl

/-- The clauses on HALT_ADDR are met by `onPort_hits`, at `.store 7` and at `.scatter 7 [15]`. -/
theorem witness_HstoreLMakesItsMicroSteps :
    (∀ p ∈ [Pos.start, .store 0, .store 7, .finish],
      (one ready 0xf005 p).running (busy (lanes ready) 0xf005 p) { cmd := 0xf005, pos := p }) ∧
    ((busy (lanes ready) 0xf005 .start).lane 15).hv = true ∧
    ∀ j ∈ [(0 : Fin 8), 7], (one ready 0xf005 (.store j)).admits ((lane 15).outPtr + BitVec.ofNat 32 (4 * j.val)) = true ∧
      (lane 15).outPtr + BitVec.ofNat 32 (4 * j.val) ≠ (one ready 0xf005 (.store j)).cfg.haltAddr :=
  ⟨fun p _ => running_one ready _ p, rfl, by decide +kernel⟩

theorem witness_HstoreLStoresTheDigest :
    (one ready 0xf005 .start).running (busy (lanes ready) 0xf005 .start) { cmd := 0xf005, pos := .start } ∧
    (one ready 0xf005 .start).memWf ∧ ((busy (lanes ready) 0xf005 .start).lane 15).hv = true ∧
    (∀ j : Fin 8, (one ready 0xf005 .start).admits (((busy (lanes ready) 0xf005 .start).lane 15).digaddr j) = true) ∧
    (∀ j : Fin 8, ((busy (lanes ready) 0xf005 .start).lane 15).digaddr j ≠ (one ready 0xf005 .start).cfg.haltAddr) ∧
    (List.replicate 10 Draw.zero).length = 10 :=
  ⟨running_one _ _ _, rfl, rfl, by decide +kernel, by decide +kernel, rfl⟩

theorem witness_HstoreVMakesItsMicroSteps :
    (∀ p ∈ [Pos.start, .scatter 0 allLanes, .scatter 7 [15], .finish],
      (one ready 0x405 p).running (busy (lanes ready) 0x405 p) { cmd := 0x405, pos := p }) ∧
    (∀ l, ((busy (lanes ready) 0x405 .start).lane l).hv = true) ∧
    (allLanes[(one ready 0x405 (.scatter 0 allLanes)).turn.draw.lane.val % allLanes.length]? = some 0 ∧
      [(15 : LaneNo)][(one ready 0x405 (.scatter 7 [15])).turn.draw.lane.val % 1]? = some 15) ∧
    ∀ l ∈ [(0 : LaneNo), 15], (one ready 0x405 .start).admits ((lane l).outPtr + BitVec.ofNat 32 (4 * 7)) = true ∧
      (lane l).outPtr + BitVec.ofNat 32 (4 * 7) ≠ (one ready 0x405 .start).cfg.haltAddr :=
  ⟨fun p _ => running_one ready _ p, fun l => by rw [lane_busy]; rfl, by decide, by decide +kernel⟩

theorem witness_HstoreFaultsOnUnwrittenHash :
    (block [busy lastFresh 0x405 .start]).running (busy lastFresh 0x405 .start) { cmd := 0x405, pos := .start } ∧
    ((busy lastFresh 0x405 .start).lane 15).hv = false ∧
    ∀ k, k < (15 : LaneNo) → ((busy lastFresh 0x405 .start).lane k).hv = true :=
  ⟨⟨rfl, rfl, rfl, rfl⟩, rfl, by decide +kernel⟩

/-- Every position of LaneSeq, its first and last words. -/
def lanePositions : List LanePos :=
  [.init, .clear 0, .load 0 0, .load 65534 15, .mark 0, .expand 0, .compress 65534, .store 0, .store 7, .done]

theorem witness_ProcessScalarRunsLaneByLane :
    (∀ p ∈ Pos.start :: .body .finished :: lanePositions.flatMap fun p => [.body (.scalar 0 p), .body (.scalar 15 p)],
      (one ready 0xffff0010 p).running (busy (lanes ready) 0xffff0010 p) { cmd := 0xffff0010, pos := p }) ∧
    (∀ (l : LaneNo) (b j : Nat), (one ready 0xffff0010 .start).admits
      (((busy (lanes ready) 0xffff0010 .start).lane l).blkaddr b j) = true) ∧
    ∀ (l : LaneNo) (j : Fin 8), (one ready 0xffff0010 .start).admits ((lane l).digaddr j) = true ∧
      (lane l).digaddr j ≠ (one ready 0xffff0010 .start).cfg.haltAddr :=
  ⟨fun p _ => running_one ready _ p, fun l b j => by rw [lane_busy]; exact admits_block _ (aligned_lane l b j).1,
    by decide +kernel⟩

theorem witness_ProcessVectorRunsOnePass :
    (∀ p ∈ [VecPos.init, .clear 0, .gather 0 0 allLanes, .gather 65534 15 [15], .mark 0, .expand 0, .compress 65534,
        .scatter 0 allLanes, .scatter 7 [15]],
      (one ready 0xffff0110 (.body (.vector p))).running (busy (lanes ready) 0xffff0110 (.body (.vector p)))
        { cmd := 0xffff0110, pos := .body (.vector p) }) ∧
    (pickLane allLanes Draw.zero = some 0 ∧ pickLane [15] Draw.zero = some 15) ∧
    (∀ (l : LaneNo) (b j : Nat), (one ready 0xffff0110 .start).admits ((lane l).blkaddr b j) = true) ∧
    ∀ (l : LaneNo) (j : Fin 8), (one ready 0xffff0110 .start).admits ((lane l).digaddr j) = true ∧
      (lane l).digaddr j ≠ (one ready 0xffff0110 .start).cfg.haltAddr :=
  ⟨fun p _ => running_one ready _ _, by decide, fun l b j => admits_block _ (aligned_lane l b j).1, by decide +kernel⟩

theorem witness_ProcessSpmdRunsLaneAgents :
    (∀ p ∈ lanePositions, (one ready 0xffff0210 (.body (.spmd (Vector.replicate 16 p)))).running
        (busy (lanes ready) 0xffff0210 (.body (.spmd (Vector.replicate 16 p))))
        { cmd := 0xffff0210, pos := .body (.spmd (Vector.replicate 16 p)) } ∧ (Vector.replicate 16 p)[(0 : Fin 16)] = p) ∧
    ((Vector.replicate 16 LanePos.done).set 15 .init)[(0 : Fin 16)] = .done ∧
    ((Vector.replicate 16 LanePos.done).set 15 .init)[(15 : Fin 16)] ≠ .done ∧
    (∀ (l : LaneNo) (b j : Nat), (one ready 0xffff0210 .start).admits ((lane l).blkaddr b j) = true) ∧
    ∀ (l : LaneNo) (j : Fin 8), (one ready 0xffff0210 .start).admits ((lane l).digaddr j) = true ∧
      (lane l).digaddr j ≠ (one ready 0xffff0210 .start).cfg.haltAddr :=
  ⟨fun p _ => ⟨running_one ready _ _, by simp⟩, by decide, by decide,
    fun l b j => admits_block _ (aligned_lane l b j).1, by decide +kernel⟩

/-- The run of a PROCESS of no block and of one block, to their ends. -/
theorem witness_ProcessDigestsAreHashBlocks :
    (∀ w p, (one id w p).running (busy (lanes id) w p) { cmd := w, pos := p } ∧ (one id w p).memWf ∧
      (busy (lanes id) w p).windowsApart 1 ∧ (one id w p).haltPortApart (busy (lanes id) w p)) ∧
    (∃ t e', turns (processInstr .vector 0) (List.replicate 130 Draw.zero) (one id 0x110 .start) = .next t ∧
      t.cur = some e' ∧ e'.seq = none) ∧
    ∃ t e', turns (processInstr .vector 1) (List.replicate 390 Draw.zero) (one id 0x10110 .start) = .next t ∧
      t.cur = some e' ∧ e'.seq = none :=
  ⟨fun w p => ⟨running_one _ _ _, rfl, windows_apart w p 1 (by decide), halt_apart w p⟩,
    endsIn_spec (by decide +kernel), endsIn_spec (by decide +kernel)⟩

/-- The hypotheses of ProcessLeavesItsRegisters are those of ProcessDigestsAreHashBlocks, its two clauses n = 0 and 1 ≤ n. -/
theorem witness_ProcessLeavesItsRegisters :
    ((0 : BitVec 16).toNat = 0 ∧ (busy (lanes id) 0x110 .start).windowsApart 0 ∧
      ∃ t e', turns (processInstr .vector 0) (List.replicate 130 Draw.zero) (one id 0x110 .start) = .next t ∧
        t.cur = some e' ∧ e'.seq = none) ∧
    1 ≤ (1 : BitVec 16).toNat ∧ (busy (lanes id) 0x10110 .start).windowsApart 1 ∧
      ∃ t e', turns (processInstr .vector 1) (List.replicate 390 Draw.zero) (one id 0x10110 .start) = .next t ∧
        t.cur = some e' ∧ e'.seq = none :=
  ⟨⟨rfl, windows_apart _ _ _ (by decide), witness_ProcessDigestsAreHashBlocks.2.1⟩, by decide,
    windows_apart _ _ _ (by decide), witness_ProcessDigestsAreHashBlocks.2.2⟩

theorem witness_ProcessCompletesWhereAdmitted :
    (one id 0xffff0210 .start).running (busy (lanes id) 0xffff0210 .start) { cmd := 0xffff0210, pos := .start } ∧
    (one id 0xffff0210 .start).haltPortApart (busy (lanes id) 0xffff0210 .start) ∧
    (one id 0xffff0210 .start).admitsProcess (busy (lanes id) 0xffff0210 .start) (65535 : BitVec 16).toNat :=
  ⟨running_one _ _ _, halt_apart _ _, fun l => ⟨fun b j _ => by
    rw [lane_busy]; exact admits_block _ (aligned_lane l b j).1, fun j => by
    rw [lane_busy]; exact admits_block _ (aligned_lane l 0 j).2⟩⟩

theorem witness_RunWritesThePassTables :
    ∀ p ∈ [Pos.start, .tableIn 0 .first, .tableIn 3 .second, .tableOut 0 .first, .tableOut 3 .second],
      (one id 0x20 p).running (busy (lanes id) 0x20 p) { cmd := 0x20, pos := p } :=
  fun p _ => running_one id _ p

theorem witness_RunRunsPassesInOrder :
    (∀ p ∈ [Pos.pass 0 .first (.scalar 0 .init), .pass 0 .first .finished, .pass 2 .second .finished,
        .pass 3 .second .finished, .body (.scalar 0 .init)],
      (one id 0x20 p).running (busy (lanes id) 0x20 p) { cmd := 0x20, pos := p }) ∧
    (∃ m, (one id 0x20 (.pass 0 .first (.scalar 0 .init))).bodyMicro
      (busy (lanes id) 0x20 (.pass 0 .first (.scalar 0 .init))) (passBlocks .first) (.scalar 0 .init) = some m) ∧
    (one id 0x20 (.pass 0 .first (.scalar 0 .done))).bodyMicro
      (busy (lanes id) 0x20 (.pass 0 .first (.scalar 0 .done))) (passBlocks .first) (.scalar 0 .done) = none ∧
    BodyPos.scalar 0 .init ≠ .finished ∧ BodyPos.scalar 0 .done ≠ .finished ∧
    (4 : BitVec 16).toNat = passBlocks .first ∧ (1 : BitVec 16).toNat = passBlocks .second :=
  ⟨fun p _ => running_one id _ p, ⟨_, rfl⟩, rfl, by decide, by decide, rfl, rfl⟩

theorem witness_RunLeavesDoubleHashes :
    (one id 0x20 .start).running (busy (lanes id) 0x20 .start) { cmd := 0x20, pos := .start } ∧
    (one id 0x20 .start).memWf ∧
    (∀ (l : LaneNo) (j : Fin 8),
      cfg.base + BitVec.ofNat 32 (4096 * 0 + 1024 * 1 + 32 * l.val) + BitVec.ofNat 32 (4 * j.val) ≠ cfg.haltAddr ∧
      cfg.base + BitVec.ofNat 32 (4096 * 0 + 1024 * 2 + 32 * l.val) + BitVec.ofNat 32 (4 * j.val) ≠ cfg.haltAddr) ∧
    ∀ k < 768, (one id 0x20 .start).admits (cfg.base + BitVec.ofNat 32 (4096 * 0 + 4 * k)) = true :=
  ⟨running_one _ _ _, rfl, by decide +kernel, by decide +kernel⟩

theorem witness_RunWorkerDecrementsAndIdles :
    (∀ p ∈ [Pos.decrement, .enterIdle, .idling], (one id 0x20 p).running (busy (lanes id) 0x20 p) { cmd := 0x20, pos := p }) ∧
    ({ one id 0x20 .decrement with av := true }.running (busy (lanes id) 0x20 .decrement)
      { cmd := 0x20, pos := .decrement } ∧ { one id 0x20 .decrement with av := true }.av = true) ∧
    (one id 0x20 .decrement).av = false :=
  ⟨fun p _ => running_one id _ p, ⟨⟨rfl, rfl, rfl, rfl⟩, rfl⟩, rfl⟩

theorem witness_RunTerminatorWaitsAndHalts :
    (∀ p ∈ [Pos.enterWait, .polling, .halting],
      (one id 0x20 p).running (busy (lanes id) 0x20 p) { cmd := 0x20, pos := p } ∧
      { one id 0x20 p with av := true, active := 1 }.running (busy (lanes id) 0x20 p) { cmd := 0x20, pos := p }) ∧
    (one id 0x20 .enterWait).av = false ∧ (one id 0x20 .polling).active = 0 ∧
    { one id 0x20 .polling with av := true, active := 1 }.active ≠ 0 ∧
    (one id 0x20 .halting).admits (one id 0x20 .halting).cfg.haltAddr = true :=
  ⟨fun p _ => ⟨running_one id _ p, rfl, rfl, rfl, rfl⟩, rfl, rfl, by decide, by decide +kernel⟩

theorem witness_SyncDecDecrementsOnce :
    (one id 0x30 .start).running (busy (lanes id) 0x30 .start) { cmd := 0x30, pos := .start } ∧
    (one id 0x30 .start).av = false ∧
    { one id 0x30 .start with av := true }.running (busy (lanes id) 0x30 .start) { cmd := 0x30, pos := .start } :=
  ⟨running_one _ _ _, rfl, rfl, rfl, rfl, rfl⟩

theorem witness_SyncWaitHoldsUntilZero :
    (∀ p ∈ [Pos.start, .polling], (one id 0x31 p).running (busy (lanes id) 0x31 p) { cmd := 0x31, pos := p } ∧
      { one id 0x31 p with av := true, active := 1 }.running (busy (lanes id) 0x31 p) { cmd := 0x31, pos := p }) ∧
    (one id 0x31 .start).av = false ∧ (one id 0x31 .polling).active = 0 ∧
    { one id 0x31 .polling with av := true, active := 1 }.active ≠ 0 :=
  ⟨fun p _ => ⟨running_one id _ p, rfl, rfl, rfl, rfl⟩, rfl, rfl, by decide⟩

theorem witness_HaltStopsEveryEngine :
    (one id 0x32 .start).running (busy (lanes id) 0x32 .start) { cmd := 0x32, pos := .start } ∧
    (one id 0x32 .start).memWf ∧ (one id 0x32 .start).admits (one id 0x32 .start).cfg.haltAddr = true ∧
    { one id 0x32 .start with cfg := { cfg with haltAddr := 2 } }.running (busy (lanes id) 0x32 .start)
      { cmd := 0x32, pos := .start } ∧
    { one id 0x32 .start with cfg := { cfg with haltAddr := 2 } }.admits 2 = false :=
  ⟨running_one _ _ _, rfl, by decide +kernel, ⟨rfl, rfl, rfl, rfl⟩, by decide +kernel⟩

theorem witness_IdleHoldsUntilTheHalt :
    ∀ p ∈ [Pos.start, .idling], (one id 0x33 p).running (busy (lanes id) 0x33 p) { cmd := 0x33, pos := p } :=
  fun p _ => running_one id _ p

/-- Tables misaligned by 2, as in V-F2. -/
def crooked (x : Lane) : Lane := { ready x with inPtr := x.inPtr + 2, outPtr := x.outPtr + 2 }

/-- The engine at that position with crooked tables stores where memory admits no access. -/
abbrev storesCrooked (i : Instr) (w : Word) (p : Pos) (a : Addr) : Prop :=
  (one crooked w p).running (busy (lanes crooked) w p) { cmd := w, pos := p } ∧
    p.storeAddr (one crooked w p).cfg (busy (lanes crooked) w p) (one crooked w p).turn.draw i = some a ∧
    (one crooked w p).admits a = false

/-- No word of a block of a crooked lane is admitted, at whatever position. -/
theorem unread (p : Pos) (l : LaneNo) (j : Fin 16) : (one crooked 0x110 p).admits ((crooked (lane l)).blkaddr 3 j) = false := by
  change State.admits (block []) _ = false
  revert l j
  decide +kernel

theorem witness_UnadmittedAccessesHaveNoStep :
    (∀ w p, (one crooked w p).running (busy (lanes crooked) w p) { cmd := w, pos := p }) ∧
    (∀ j : Fin 16, (one crooked 0x2 (.load j)).admits ((crooked (lane 0)).blkaddr 0 j) = false) ∧
    (pickLane allLanes Draw.zero = some 0 ∧ (Vector.replicate 16 (LanePos.load 0 15))[Draw.zero.lane] = .load 0 15) ∧
    (∀ (p : Pos) (l : LaneNo) (j : Fin 16), (one crooked 0x110 p).admits ((crooked (lane l)).blkaddr 3 j) = false) ∧
    storesCrooked .hstoreV 0x405 (.scatter 7 [15]) 0x81fe ∧ storesCrooked (.hstoreL 0) 0x5 (.store 0) 0x8002 ∧
    storesCrooked (processInstr .spmd 0) 0x210 (.body (.spmd (Vector.replicate 16 (.store 0)))) 0x8002 ∧
    storesCrooked (runInstr .scalar) 0x20 (.pass 0 .first (.scalar 0 (.store 0))) 0x8002 ∧
    { one id 0x32 .start with cfg := { cfg with haltAddr := 2 } }.admits 2 = false ∧
    (2 : Addr).toNat % 4 ≠ 0 ∧
    (∃ k < 4, ∀ r ∈ [(⟨0, 7⟩ : Region)], (4 : Addr).toNat + k < r.base ∨ r.base + r.size ≤ (4 : Addr).toNat + k) :=
  ⟨fun w p => running_one crooked w p, by decide +kernel, by decide, unread, ⟨running_one _ _ _, by decide +kernel, by decide +kernel⟩,
    ⟨running_one _ _ _, by decide +kernel, by decide +kernel⟩, ⟨running_one _ _ _, by decide +kernel, by decide +kernel⟩,
    ⟨running_one _ _ _, by decide +kernel, by decide +kernel⟩, by decide +kernel, by decide, by decide⟩

/-- The command steps from that block. -/
abbrev steps (i : Instr) (s : State) : Prop := ∃ t e', exec i s = .next t ∧ t.cur = some e'

theorem witness_RegisterOnlyCommandsFrame :
    (∀ w, (one ready w .start).running (busy (lanes ready) w .start) { cmd := w, pos := .start }) ∧
    steps (.hinitL 15) (one ready 0xf001 .start) ∧ steps .hinitV (one ready 0x401 .start) ∧
    steps (.wexpandL 15) (one ready 0xf003 .start) ∧ steps .wexpandV (one ready 0x403 .start) ∧
    steps (.compressL 15) (one ready 0xf004 .start) ∧ steps .compressV (one ready 0x404 .start) :=
  ⟨fun w => running_one ready w _, ⟨_, _, rfl, rfl⟩, ⟨_, _, rfl, rfl⟩, ⟨_, _, rfl, rfl⟩, ⟨_, _, rfl, rfl⟩,
    ⟨_, _, rfl, rfl⟩, ⟨_, _, rfl, rfl⟩⟩

theorem witness_LoadCommandsFrame :
    (∀ w p, (one id w p).running (busy (lanes id) w p) { cmd := w, pos := p }) ∧
    steps (.wloadL 15 0) (one id 0xf002 (.load 15)) ∧ steps (.wloadV 0) (one id 0x402 (.gather 15 [15])) :=
  ⟨fun w p => running_one id w p, ⟨_, _, rfl, rfl⟩, ⟨_, _, rfl, rfl⟩⟩

theorem witness_StoreCommandsFrame :
    (∀ w p, (one ready w p).running (busy (lanes ready) w p) { cmd := w, pos := p } ∧ (one ready w p).memWf) ∧
    steps (.hstoreL 15) (one ready 0xf005 (.store 7)) ∧ steps .hstoreV (one ready 0x405 (.scatter 7 [15])) ∧
    (Pos.store 7).storeAddr cfg (busy (lanes ready) 0xf005 (.store 7)) Draw.zero (.hstoreL 15) = some 0x81fc ∧
    Pos.finish.storeAddr cfg (busy (lanes ready) 0xf005 .finish) Draw.zero (.hstoreL 15) = none ∧
    (some (0x81fc : Addr) ≠ some cfg.haltAddr) :=
  ⟨fun w p => ⟨running_one ready w p, rfl⟩, ⟨_, _, rfl, rfl⟩, ⟨_, _, rfl, rfl⟩, by decide +kernel, rfl, by decide⟩

theorem witness_CompositeCommandsFrame :
    (∀ w p, (one ready w p).running (busy (lanes ready) w p) { cmd := w, pos := p } ∧ (one ready w p).memWf) ∧
    steps (.processScalar 0) (one ready 0x10 (.body (.scalar 15 (.store 7)))) ∧
    steps (.processVector 0) (one ready 0x110 (.body (.vector (.scatter 7 [15])))) ∧
    steps (.processSpmd 0) (one ready 0x210 (.body (.spmd (Vector.replicate 16 (.store 7))))) ∧
    steps .runScalar (one ready 0x20 (.pass 3 .second (.scalar 15 (.store 7)))) ∧
    steps .runVector (one ready 0x120 .decrement) ∧ steps .runSpmd (one ready 0x220 .halting) ∧
    (Pos.body (.scalar 15 (.store 7))).storeAddr cfg (busy (lanes ready) 0x10 (.body (.scalar 15 (.store 7)))) Draw.zero
      (.processScalar 0) = some 0x81fc ∧
    (Pos.body (.scalar 15 .init)).storeAddr cfg (busy (lanes ready) 0x10 (.body (.scalar 15 .init))) Draw.zero
      (.processScalar 0) = none :=
  ⟨fun w p => ⟨running_one ready w p, rfl⟩, ⟨_, _, rfl, rfl⟩, ⟨_, _, rfl, rfl⟩, ⟨_, _, rfl, rfl⟩, ⟨_, _, rfl, rfl⟩,
    ⟨_, _, rfl, rfl⟩, ⟨_, _, rfl, rfl⟩, by decide +kernel, rfl⟩

theorem witness_CompletionCommandsFrame :
    (∀ w p, (one id w p).running (busy (lanes id) w p) { cmd := w, pos := p } ∧ (one id w p).memWf) ∧
    steps .syncDec (one id 0x30 .start) ∧ steps .syncWait (one id 0x31 .polling) ∧ steps .halt (one id 0x32 .start) ∧
    steps .idle (one id 0x33 .start) :=
  ⟨fun w p => ⟨running_one id w p, rfl⟩, ⟨_, _, rfl, rfl⟩, ⟨_, _, rfl, rfl⟩, ⟨_, _, rfl, rfl⟩, ⟨_, _, rfl, rfl⟩⟩

/-- An engine that differs from `busy (lanes ready)` in lane 3 alone. -/
def other (w : Word) : Engine := (busy (lanes ready) w .start).updLane 3 fun x => { x with h := x.h.set 0 1, inPtr := 4 }

/-- That engine in place of the other. -/
abbrev otherBlock (w : Word) : State := (one ready w .start).putCur (other w)

/-- Both engines step, and neither faults. -/
abbrev bothStep (i : Instr) (w : Word) : Prop :=
  ∃ s' t' e' f', exec i (one ready w .start) = .next s' ∧ exec i (otherBlock w) = .next t' ∧ s'.cur = some e' ∧
    t'.cur = some f' ∧ e'.fault = none ∧ f'.fault = none

theorem witness_LanesDoNotLeak :
    (∀ w, (one ready w .start).running (busy (lanes ready) w .start) { cmd := w, pos := .start } ∧
      (otherBlock w).running (other w) { cmd := w, pos := .start }) ∧
    (∀ l ∈ [(0 : LaneNo), 15], (busy (lanes ready) 0x404 .start).lane l = (other 0x404).lane l) ∧
    bothStep .hinitV 0x401 ∧ bothStep .wexpandV 0x403 ∧ bothStep .compressV 0x404 ∧
    ∀ i ∈ [Instr.hinitL 0, .wexpandL 0, .compressL 0], nextEngine (exec i (one ready 0x404 .start))
      (fun e => e.fault.isNone) = true :=
  ⟨fun w => ⟨running_one ready w _, rfl, rfl, rfl, rfl⟩, by decide +kernel, ⟨_, _, _, _, rfl, rfl, rfl, rfl, rfl, rfl⟩,
    ⟨_, _, _, _, rfl, rfl, rfl, rfl, rfl, rfl⟩, ⟨_, _, _, _, rfl, rfl, rfl, rfl, rfl, rfl⟩, by decide +kernel⟩

/-- A block whose engine executes `hinit.l 5`, its turn next, meets the invariant. -/
theorem inv_hinit : (scripted (one id 0x5001 .start) (.engine 0 Draw.zero)).Inv where
  engines := by decide
  mem := rfl
  ok := by
    intro c e hc
    match c, hc with
    | 0, hc =>
      cases hc
      exact {
        cmd := .inr ⟨.hinitL 5, by decide⟩
        seq := fun q hq => by cases hq; exact ⟨rfl, .hinitL 5, by decide, rfl⟩
        ready := fun q hq => by cases hq; rfl
        waiting := by decide
        idle := by decide
        fault := by intro h; cases h
        lanes := fun l => by
          rw [lane_busy]
          constructor <;> (intro h; cases h) }
    | c + 1, hc => cases hc

theorem witness_EveryStepKeepsTheInvariant :
    (scripted (one id 0x5001 .start) (.engine 0 Draw.zero)).Inv ∧
    ∃ t, step (scripted (one id 0x5001 .start) (.engine 0 Draw.zero)) = .next t := ⟨inv_hinit, _, rfl⟩

theorem witness_EveryStepAnswers : (scripted (one id 0x5001 .start) (.engine 0 Draw.zero)).Inv := inv_hinit

theorem witness_FaultedEnginesChangeOnlyByReset :
    (scripted (block [faulted]) (.engine 0 Draw.zero)).engines[0]? = some faulted ∧ faulted.fault ≠ none ∧
    (∃ t, step (scripted (block [faulted]) (.engine 0 Draw.zero)) = .next t) ∧
    ∀ d, (scripted (block [faulted]) (.engine 0 Draw.zero)).nextMove.1 ≠ .host .reset d :=
  ⟨rfl, by decide, ⟨_, rfl⟩, fun d h => by cases h⟩

/-- A halted block, the host about to write ACTIVE. -/
def haltedBlock : State := scripted { one id 0x33 .idling with ghalt := true } (.host (.writeShared 0 1) Draw.zero)

theorem witness_HaltedBlockChangesOnlyByReset :
    haltedBlock.ghalt = true ∧ (∃ t, step haltedBlock = .next t) ∧ ∀ d, haltedBlock.nextMove.1 ≠ .host .reset d :=
  ⟨rfl, ⟨_, rfl⟩, fun d h => by cases h⟩

theorem witness_EnginesWriteOnlyDigestsAndHaltWord :
    (scripted (one ready 0x5 (.store 0)) (.engine 0 Draw.zero)).memWf ∧
    (scripted (one ready 0x5 (.store 0)) (.engine 0 Draw.zero)).nextMove =
      (.engine 0 Draw.zero, one ready 0x5 (.store 0)) ∧
    ((one ready 0x5 (.store 0)).withTurn 0 Draw.zero).cur = some (busy (lanes ready) 0x5 (.store 0)) ∧
    (∃ t, step (scripted (one ready 0x5 (.store 0)) (.engine 0 Draw.zero)) = .next t) ∧
    (∀ (l : LaneNo) (j : Fin 8), 0x7fff < ((lane l).digaddr j).toNat ∨ ((lane l).digaddr j).toNat + 4 ≤ 0x7fff) ∧
    (0x7fff < cfg.haltAddr.toNat ∨ cfg.haltAddr.toNat + 4 ≤ 0x7fff) :=
  ⟨rfl, rfl, rfl, ⟨_, rfl⟩, by decide +kernel, by decide⟩

/-- Two contexts in their completion: context 0 at `p`, context 1 at `p'`. -/
def completing (p p' : Pos) (active : Word) : State :=
  { block [busy (lanes id) 0x20 p, busy (lanes id) 0x120 p'] with active, av := true }

/-- Such a block is a pipeline run in progress where ACTIVE is right. -/
theorem barrier_completing (p p' : Pos) (active : Word) (hp : p.inRun 0 = true) (hp' : p'.inRun 1 = true)
    (hc : active.toNat = (completing p p' active).pendingWorkers) (ht : p = .halting → active = 0) :
    (completing p p' active).Barrier where
  size := by change 2 ≤ 2 ^ 32; decide
  written := rfl
  running := by
    intro c e h
    match c, h with
    | 0, h => cases h; exact ⟨rfl, _, .scalar, rfl, (by decide : decode 0x20 = .command .runScalar), hp⟩
    | 1, h => cases h; exact ⟨rfl, _, .vector, rfl, (by decide : decode 0x120 = .command .runVector), hp'⟩
    | c + 2, h => cases h
  count := hc
  terminator := by
    intro e h hpos
    cases h
    exact ht (by simpa [Engine.pos?, busy] using hpos)

/-- The schedule is no part of the barrier. -/
theorem barrier_scripted {s : State} (h : s.Barrier) (m : Move) : (scripted s m).Barrier :=
  ⟨h.size, h.written, h.running, h.count, h.terminator⟩

theorem witness_CompletionBarrierHolds :
    ((scripted (completing .polling .decrement 1) (.engine 1 Draw.zero)).nextMove =
        (.engine 1 Draw.zero, completing .polling .decrement 1) ∧
      (scripted (completing .polling .decrement 1) (.engine 1 Draw.zero)).Barrier ∧
      ∃ t, step (scripted (completing .polling .decrement 1) (.engine 1 Draw.zero)) = .next t) ∧
    (completing .halting .enterIdle 0).Barrier ∧
    (completing .halting .enterIdle 0).engines[0]? = some (busy (lanes id) 0x20 .halting) ∧
    (busy (lanes id) 0x20 .halting).pos? = some .halting ∧
    (completing .halting .enterIdle 0).engines[1]? = some (busy (lanes id) 0x120 .enterIdle) :=
  ⟨⟨rfl, barrier_scripted (barrier_completing _ _ _ rfl rfl rfl (fun h => by cases h)) _, _, rfl⟩,
    barrier_completing _ _ _ rfl rfl rfl (fun _ => rfl), rfl, rfl, rfl⟩

end Sys2Proof.Tests
end

section
/-! PROOFS of the scope's obligations: a stored word (O17), RUN's tables (O38), the answer of a step (O56), the command a
step runs (O5), the state after reset (O13). -/

namespace Sys2Proof.Proofs

open Sys2Proof.Machine Sys2Proof.Laws

/-! ### A stored word (O17) -/

/-- What a byte of the state reads as after a word store that does not wrap, by its place in the word. -/
theorem readByte_setWord {s : State} {a : Addr} (v : Word) (hw : s.memWf) (ha : a.toNat + 3 < 2 ^ 32) {k : Nat}
    (hk : k < 4) : (s.setWord a v).readByte (a.toNat + k) = byteOf s.cfg.memEndian v k := by
  simp only [State.readByte, setWord_cfg, setWord_mem, readByte_writeWord _ _ _ _ _ _ hw ha]
  interval_cases k <;> simp

/-- A byte outside the stored word reads as before. -/
theorem memKeptOutside_setWord {s : State} {a : Addr} (v : Word) (hw : s.memWf) (ha : a.toNat + 3 < 2 ^ 32) :
    s.memKeptOutside (s.setWord a v) a := by
  intro b hb
  have h0 : b ≠ a.toNat := by omega
  have h1 : b ≠ a.toNat + 1 := by omega
  have h2 : b ≠ a.toNat + 2 := by omega
  have h3 : b ≠ a.toNat + 3 := by omega
  simp only [State.readByte, setWord_cfg, setWord_mem, readByte_writeWord _ _ _ _ _ _ hw ha, if_neg h0, if_neg h1,
    if_neg h2, if_neg h3]

/-- A word is its four bytes, the lowest address first (R13). -/
theorem wordAt_eq_wordOfBytes (s : State) (a : Addr) :
    s.wordAt a = wordOfBytes s.cfg.memEndian (s.readByte (a.toNat + 0)) (s.readByte (a.toNat + 1))
      (s.readByte (a.toNat + 2)) (s.readByte (a.toNat + 3)) := rfl

/-- A stored word reads back. -/
theorem wordAt_setWord_same {s : State} {a : Addr} (v : Word) (hw : s.memWf) (ha : a.toNat + 3 < 2 ^ 32) :
    (s.setWord a v).wordAt a = v := by
  have byte {k : Nat} (hk : k < 4) := readByte_setWord v hw ha hk
  rw [wordAt_eq_wordOfBytes, byte (by decide), byte (by decide), byte (by decide), byte (by decide)]
  exact wordOfBytes_byteOf _ v

/-- Settles O17: a byte of the stored word is `byteOf`'s, from which the word, its frame and its byte order follow. -/
theorem storedWordReadsBack : Obligations.StoredWordReadsBack := by
  intro s a v hw hal
  have ha := aligned_room hal
  refine ⟨wordAt_setWord_same v hw ha, memKeptOutside_setWord v hw ha, wf_writeWord _ _ _ _ _ hw ha, fun k hk => ?_⟩
  rw [readByte_setWord v hw ha hk]
  cases s.cfg.memEndian with
  | little => rfl
  | big => simp only [byteOf, Nat.mul_sub]

/-! ### RUN's tables (O38) -/

/-- How far above the context's input region a pass reads: pass 2 reads the next region, 1024 bytes on (R131). -/
def passOffset : Pass → Addr
  | .first => 0
  | .second => 1024

/-- IN1 and IN2 in bytes (R131). -/
theorem inTable_eq (cfg : Config) (c : Nat) (p : Pass) (l : LaneNo) :
    inTable cfg c p l = cfg.base + BitVec.ofNat 32 (4096 * c) + BitVec.ofNat 32 (32 * l.val) + passOffset p := by
  have hc : c * footprint = 4096 * c := Nat.mul_comm _ _
  have hl : l.val * hashSize = 32 * l.val := Nat.mul_comm _ _
  cases p <;> simp only [inTable, regionAddr, laneStep, hc, hl] <;> exact add_right_comm _ _ _

/-- OUT1 and OUT2 of R131: a pass writes one region, 1024 bytes, above what it reads. -/
theorem outTable_eq_inTable_add (cfg : Config) (c : Nat) (p : Pass) (l : LaneNo) :
    outTable cfg c p l = inTable cfg c p l + 1024 := by
  have region_succ (k : Nat) : regionAddr cfg c (k + 1) = regionAddr cfg c k + 1024 := by
    simp only [regionAddr, Nat.succ_mul, BitVec.ofNat_add, BitVec.add_assoc]
    rfl
  cases p <;> simp only [outTable, inTable, region_succ] <;> exact add_right_comm _ _ _

/-- A RUN is its micro-step under the wrapper, whatever its strategy. -/
theorem exec_runInstr (st : Strategy) (s : State) : exec (runInstr st) s = s.act (s.runStep st s.curIdx) := by
  cases st <;> rfl

/-- The engine that runs a RUN makes the micro-step `runStep` says. -/
theorem exec_runInstr_running {s t : State} {e : Engine} {q : Seq} (st : Strategy) (hr : s.running e q)
    (hs : s.runStep st s.curIdx e q = some t) : exec (runInstr st) s = .next t := by
  obtain ⟨hc, hq, hg, hf⟩ := hr
  rw [exec_runInstr, act_eq hc hq (mayStep_iff.mpr ⟨hg, hf⟩), hs, Option.getD_some]

/-- RUN's first micro-step of a pass, and of the command: IN_PTR. -/
theorem runStep_tableIn {s : State} {st : Strategy} {c : Nat} {e : Engine} {q : Seq} {it : Fin 4} {p : Pass}
    (h : q.pos.runPos = .tableIn it p) :
    s.runStep st c e q =
      some (s.putCur ((e.mapLanes fun l x => { x with inPtr := inTable s.cfg c p l }).moveTo q (.tableOut it p))) := by
  simp only [State.runStep, h]

/-- RUN's second micro-step of a pass: OUT_PTR. -/
theorem runStep_tableOut {s : State} {st : Strategy} {c : Nat} {e : Engine} {q : Seq} {it : Fin 4} {p : Pass}
    (h : q.pos.runPos = .tableOut it p) :
    s.runStep st c e q =
      some (s.putCur
        ((e.mapLanes fun l x => { x with outPtr := outTable s.cfg c p l }).moveTo q (.pass it p (.start st)))) := by
  simp only [State.runStep, h]

/-- Settles O38: the tables are regions 0, 1 and 2 of the context, 1024 bytes apart. -/
theorem runWritesThePassTables : Obligations.RunWritesThePassTables := by
  refine ⟨⟨rfl, rfl⟩, fun st s e q it p hr => ⟨fun hpos => ?_, fun hpos => ?_⟩⟩
  · have hrun : q.pos.runPos = .tableIn it p := by
      rcases hpos with hpos | ⟨hpos, rfl, rfl⟩ <;> rw [hpos] <;> rfl
    rw [exec_runInstr_running st hr (runStep_tableIn hrun)]
    simp only [Engine.mapLanes, Engine.moveTo, inTable_eq]
    cases p <;> rfl
  · have hrun : q.pos.runPos = .tableOut it p := by rw [hpos]; rfl
    rw [exec_runInstr_running st hr (runStep_tableOut hrun)]
    simp only [Engine.mapLanes, Engine.moveTo, outTable_eq_inTable_add, inTable_eq]
    cases p <;> cases st <;> rfl

/-! ### Every step answers (O56) -/

/-- `t` is the same block as `s`: the same parameters and as many engines (R7, R20). -/
def SameBlock (s t : State) : Prop := t.cfg = s.cfg ∧ t.engines.length = s.engines.length

/-- A step of an agent, where it has one, keeps the block's parameters and number of engines. -/
def KeepsBlock (s : State) (o : Option State) : Prop := ∀ t, o = some t → SameBlock s t

theorem sameBlock_refl (s : State) : SameBlock s s := ⟨rfl, rfl⟩

theorem sameBlock_putCur {s t : State} (h : SameBlock s t) (e : Engine) : SameBlock s (t.putCur e) :=
  ⟨h.1, by simpa using h.2⟩

theorem sameBlock_storeWord {s t : State} {a : Addr} {v : Word} {d : Draw} (h : s.storeWord a v d = some t) :
    SameBlock s t := by
  rw [storeWord_kept h]
  exact ⟨rfl, rfl⟩

theorem sameBlock_portWrite {s t : State} (d : Draw) (h : t = { s with mem := t.mem }) :
    SameBlock s (s.portWrite t d) := by
  rw [portWrite_kept s t d h]
  exact ⟨rfl, rfl⟩

theorem keepsBlock_none (s : State) : KeepsBlock s none := fun _ h => by cases h

theorem keepsBlock_putCur (s : State) (e : Engine) : KeepsBlock s (some (s.putCur e)) := fun _ h => by
  cases h
  exact sameBlock_putCur (sameBlock_refl s) e

theorem keepsBlock_checked {s : State} {o : Option State} (e : Engine) (q : Seq) (failing : Option (Group × LaneNo))
    (h : KeepsBlock s o) : KeepsBlock s (s.checked e q failing o) := by
  cases failing with
  | none => exact h
  | some gl => exact keepsBlock_putCur s _

/-- A read and then a register update. -/
theorem keepsBlock_map_putCur {α : Type} (s : State) (o : Option α) (f : α → Engine) :
    KeepsBlock s (o.map fun v => s.putCur (f v)) := fun _ h => by
  obtain ⟨v, -, rfl⟩ := Option.map_eq_some_iff.mp h
  exact sameBlock_putCur (sameBlock_refl s) _

/-- A store and then a register update. -/
theorem keepsBlock_storeWord_putCur (s : State) (a : Addr) (v : Word) (d : Draw) (e : Engine) :
    KeepsBlock s ((s.storeWord a v d).map fun t => t.putCur e) := fun _ h => by
  obtain ⟨t, ht, rfl⟩ := Option.map_eq_some_iff.mp h
  exact sameBlock_putCur (sameBlock_storeWord ht) _

theorem keepsBlock_bind {α : Type} {s : State} (o : Option α) {f : α → Option State} (h : ∀ v, KeepsBlock s (f v)) :
    KeepsBlock s (o.bind f) := fun t ht => by
  obtain ⟨v, -, hv⟩ := Option.bind_eq_some_iff.mp ht
  exact h v t hv

/-- A body's micro-step and then the move to its next position. -/
theorem keepsBlock_bodyMicro (s : State) (e : Engine) (n : Nat) (b : BodyPos) (f : Micro BodyPos → Engine) :
    KeepsBlock s ((s.bodyMicro e n b).map fun m => m.state.putCur (f m)) := fun _ h => by
  obtain ⟨m, hm, rfl⟩ := Option.map_eq_some_iff.mp h
  apply sameBlock_putCur
  rcases bodyMicro_some hm with ⟨hs, -⟩ | ⟨hs, -⟩ | ⟨hs, -⟩ | ⟨l, j, v, -, hstore, -⟩
  · rw [hs]; exact sameBlock_refl s
  · rw [hs]; exact sameBlock_refl s
  · rw [hs]; exact sameBlock_refl s
  · exact sameBlock_storeWord hstore

theorem keepsBlock_processStep (s : State) (st : Strategy) (n : Nat) (e : Engine) (q : Seq) :
    KeepsBlock s (s.processStep st n e q) := by
  refine keepsBlock_bind _ fun b => ?_
  split
  · exact keepsBlock_putCur s _
  · exact keepsBlock_bodyMicro s e n b _

theorem keepsBlock_decActive (s : State) (e k : Engine) (q : Seq) : KeepsBlock s (s.decActive e q k) := by
  refine keepsBlock_checked e q _ fun _ h => ?_
  cases h
  exact sameBlock_putCur (t := { s with active := s.active - 1 }) ⟨rfl, rfl⟩ k

theorem keepsBlock_enterWait (s : State) (e : Engine) (q : Seq) : KeepsBlock s (s.enterWait e q) :=
  keepsBlock_checked e q _ (keepsBlock_putCur s _)

theorem keepsBlock_pollActive (s : State) (k : Engine) : KeepsBlock s (s.pollActive k) := fun t h => by
  obtain ⟨-, rfl⟩ := pollActive_some h
  exact sameBlock_putCur (sameBlock_refl s) _

theorem keepsBlock_haltAll (s : State) : KeepsBlock s s.haltAll := fun t h => by
  obtain ⟨-, rfl⟩ := haltAll_some h
  exact ⟨rfl, rfl⟩

theorem keepsBlock_runStep (s : State) (st : Strategy) (c : Nat) (e : Engine) (q : Seq) :
    KeepsBlock s (s.runStep st c e q) := by
  unfold State.runStep
  split
  case h_3 it p b _ =>
    split
    · exact keepsBlock_putCur s _
    · exact keepsBlock_bodyMicro s e _ b _
  case h_4 => exact keepsBlock_decActive s e _ q
  case h_6 => exact keepsBlock_enterWait s e q
  case h_7 => exact keepsBlock_pollActive s _
  case h_8 => exact keepsBlock_haltAll s
  case h_9 => exact keepsBlock_none s
  all_goals exact keepsBlock_putCur s _

/-- The wrapper answers, with the same block where the micro-step keeps it. -/
theorem act_answers_sameBlock {s : State} {f : Engine → Seq → Option State} (hs : s.engines ≠ [])
    (hf : ∀ e q, KeepsBlock s (f e q)) : ∃ t, s.act f = .next t ∧ SameBlock s t := by
  obtain ⟨t, ht⟩ := act_answers f hs
  refine ⟨t, ht, ?_⟩
  rcases act_next ht with rfl | ⟨e, q, -, -, -, -, hstep⟩
  · exact sameBlock_refl t
  · exact hf e q t hstep

/-- Every command's micro-step answers with the same block. -/
theorem exec_answers_sameBlock (i : Instr) {s : State} (hs : s.engines ≠ []) :
    ∃ t, exec i s = .next t ∧ SameBlock s t := by
  cases i <;> refine act_answers_sameBlock hs fun e q => ?_
  case hinitL | hinitV => exact keepsBlock_putCur s _
  case wexpandL | wexpandV | compressL | compressV => exact keepsBlock_checked e q _ (keepsBlock_putCur s _)
  case wloadL =>
    split
    · exact keepsBlock_putCur s _
    · exact keepsBlock_map_putCur s _ _
    · exact keepsBlock_putCur s _
    · exact keepsBlock_none s
  case wloadV =>
    split
    · exact keepsBlock_putCur s _
    · exact keepsBlock_bind _ fun l => keepsBlock_map_putCur s _ _
    · exact keepsBlock_putCur s _
    · exact keepsBlock_none s
  case hstoreL =>
    split
    · exact keepsBlock_checked e q _ (keepsBlock_putCur s _)
    · exact keepsBlock_storeWord_putCur s _ _ _ _
    · exact keepsBlock_putCur s _
    · exact keepsBlock_none s
  case hstoreV =>
    split
    · exact keepsBlock_checked e q _ (keepsBlock_putCur s _)
    · exact keepsBlock_bind _ fun l => keepsBlock_storeWord_putCur s _ _ _ _
    · exact keepsBlock_putCur s _
    · exact keepsBlock_none s
  case processScalar | processVector | processSpmd => exact keepsBlock_processStep s _ _ e q
  case runScalar | runVector | runSpmd => exact keepsBlock_runStep s _ _ e q
  case syncDec => exact keepsBlock_decActive s e _ q
  case syncWait =>
    split
    · exact keepsBlock_enterWait s e q
    · exact keepsBlock_pollActive s _
    · exact keepsBlock_none s
  case halt => exact keepsBlock_haltAll s
  case idle =>
    split
    · exact keepsBlock_putCur s _
    · exact keepsBlock_none s

/-- An engine's move answers with the same block. -/
theorem engineStep_answers_sameBlock {s : State} (hs : s.engines ≠ []) :
    ∃ t, s.engineStep = .next t ∧ SameBlock s t := by
  unfold State.engineStep
  split
  · exact act_answers_sameBlock hs fun _ _ => keepsBlock_none s
  · split
    · exact exec_answers_sameBlock _ hs
    · exact act_answers_sameBlock hs fun _ _ => keepsBlock_putCur s _

/-- A host's move leaves the same block. -/
theorem hostMove_sameBlock (s : State) (m : HostMove) (d : Draw) : SameBlock s (s.hostMove m d) := by
  cases m with
  | writeReg c r v =>
    simp only [State.hostMove, State.hostWriteReg]
    split
    · exact sameBlock_refl s
    · split
      · exact ⟨rfl, List.length_set⟩
      · exact sameBlock_refl s
  | readReg c r => exact ⟨rfl, rfl⟩
  | writeShared r v =>
    simp only [State.hostMove, State.hostWriteShared]
    split <;> exact ⟨rfl, rfl⟩
  | readShared r => exact ⟨rfl, rfl⟩
  | writeWord a v =>
    simp only [State.hostMove]
    cases h : s.storeWord a v d with
    | none => exact sameBlock_refl s
    | some t => exact sameBlock_storeWord h
  | readWord a =>
    simp only [State.hostMove]
    cases s.loadWord a <;> exact ⟨rfl, rfl⟩
  | writeByte a v =>
    simp only [State.hostMove, State.hostWriteByte]
    split
    · split
      · exact sameBlock_portWrite d rfl
      · exact ⟨rfl, rfl⟩
    · exact sameBlock_refl s
  | readByte a =>
    simp only [State.hostMove, State.hostReadByte]
    split <;> exact ⟨rfl, rfl⟩
  | reset => exact ⟨rfl, List.length_map _⟩

/-- Choosing the next move leaves the parameters and the engines. -/
theorem nextMove_cfg_engines {s t : State} {m : Move} (h : s.nextMove = (m, t)) :
    t.cfg = s.cfg ∧ t.engines = s.engines := by
  obtain rfl : t = s.nextMove.2 := by rw [h]
  rw [nextMove_kept]
  exact ⟨rfl, rfl⟩

/-- Settles O56: there is an engine, so every move answers, and none touches the parameters or the list's length. -/
theorem everyStepAnswers : Obligations.EveryStepAnswers := by
  intro s hinv
  rcases hmove : s.nextMove with ⟨m, u⟩
  obtain ⟨hcfg, heng⟩ := nextMove_cfg_engines hmove
  cases m with
  | host m d =>
    obtain ⟨hc, hl⟩ := hostMove_sameBlock u m d
    exact ⟨_, step_host hmove, hc.trans hcfg, heng ▸ hl⟩
  | engine c d =>
    have hne : (u.withTurn c d).engines ≠ [] := heng ▸ hinv.engines
    obtain ⟨t, ht, hc, hl⟩ := engineStep_answers_sameBlock hne
    exact ⟨t, (step_engine hmove).trans ht, hc.trans hcfg, heng ▸ hl⟩

/-! ### The command a step runs (O5) -/

/-- A fetched command is run. -/
theorem engineStep_of_fetch {s : State} {w : Word} {i : Instr} (hf : s.fetch = some w) (hd : decode w = .command i) :
    s.engineStep = exec i s := by
  simp only [State.engineStep, hf, hd]

/-- With nothing fetched the state stays. -/
theorem engineStep_of_fetch_none {s : State} (hs : s.engines ≠ []) (hf : s.fetch = none) : s.engineStep = .next s := by
  obtain ⟨t, ht⟩ := act_answers (fun _ _ => none) hs
  simp only [State.engineStep, hf, State.actNothing, ht]
  rcases act_next ht with rfl | ⟨_, _, -, -, -, -, hnone⟩
  · rfl
  · cases hnone

/-- The engines of a placed word begin with one that holds the word and has no fault. -/
theorem placed_eq_cons (es : List Engine) (w : Word) :
    ∃ e rest, State.placed es w = e :: rest ∧ e.seq = some { cmd := w, pos := .start } ∧ e.fault = none := by
  cases es with
  | nil => exact ⟨_, _, rfl, rfl, rfl⟩
  | cons e rest => exact ⟨_, _, rfl, rfl, rfl⟩

/-- The word `withFetchWord` places is the one engine 0 fetches. -/
theorem fetch_withFetchWord (s : State) (nbits w : Nat) (script : List Move) (d : Draw) :
    ({ s.withFetchWord nbits w with script := script }.withTurn 0 d).fetch = some (tableWord nbits w) := by
  obtain ⟨e, rest, hplaced, hseq, hfault⟩ := placed_eq_cons s.engines (tableWord nbits w)
  have hcur : ({ s.withFetchWord nbits w with script := script }.withTurn 0 d).cur = some e := by
    simp [State.cur, State.curIdx, State.withFetchWord, hplaced]
  have hmay : ({ s.withFetchWord nbits w with script := script }.withTurn 0 d).mayStep e = true :=
    mayStep_iff.mpr ⟨rfl, hfault⟩
  simp only [State.fetch, hcur, hmay, hseq, if_true, Option.map_some]

/-- Settles O5: an engine's move is its `engineStep`, and a placed word is what engine 0 then fetches. -/
theorem stepRunsTheDecodedCommand : Obligations.StepRunsTheDecodedCommand := by
  refine ⟨fun s t c d w i hmove hfetch hdec => ?_, fun s t c d hmove hne hfetch => ?_, fun s w i hdec => ?_⟩
  · exact (step_engine hmove).trans (engineStep_of_fetch hfetch hdec)
  · exact (step_engine hmove).trans (engineStep_of_fetch_none hne hfetch)
  · exact (step_engine (nextMove_cons rfl)).trans (engineStep_of_fetch (fetch_withFetchWord s 32 w _ _) hdec)

/-! ### The state after reset (O13) -/

/-- Every engine of `State.reset` is a reset one. -/
theorem reset_engines_eq {c : Nat} {e : Engine} (h : State.reset.engines[c]? = some e) : e = Engine.reset := by
  have hmem : e ∈ Engine.reset :: List.replicate Config.openWorkers Engine.reset := List.mem_of_getElem? h
  rw [← List.replicate_succ] at hmem
  exact List.eq_of_mem_replicate hmem

theorem lane_reset (l : LaneNo) : Engine.reset.lane l = Lane.reset := by
  simp [Engine.lane, Engine.reset]

/-- Settles O13: every engine is `Engine.reset`, whose registers are R42's. -/
theorem resetStateIsAsTheTable : Obligations.ResetStateIsAsTheTable := by
  refine ⟨fun c e he => ?_, by simp [State.reset], rfl, rfl, rfl, rfl⟩
  obtain rfl := reset_engines_eq he
  refine ⟨rfl, rfl, rfl, rfl, fun l => ?_⟩
  rw [lane_reset]
  exact ⟨rfl, rfl, rfl⟩

end Sys2Proof.Proofs
end

section
/-! PROOFS of the scope's obligations of the block's state: the host's window (O7 to O11), reset (O12, O55), what a step can
do and the invariant (O54, O57, O58), PROCESS.SPMD (O34), the frames (O48, O51) and the lanes (O53). -/

namespace Sys2Proof.Proofs

open Sys2Proof.Machine Sys2Proof.Laws

/-! ### The host's window (O7 to O11) -/

/-- The word numbers of a lane's registers (R34). -/
theorem regAt_lane (l : LaneNo) :
    regAt (16 + l.val) = .inPtr l ∧ regAt (32 + l.val) = .outPtr l ∧ regAt (1408 + l.val) = .valid l ∧
      (∀ j : Fin 8, regAt (64 + 8 * l.val + j.val) = .hash l j) ∧
      (∀ i : Fin 64, regAt (256 + 64 * l.val + i.val) = .sched l i) ∧
      (∀ j : Fin 8, regAt (1280 + 8 * l.val + j.val) = .work l j) := by
  have hl := l.isLt
  refine ⟨?_, ?_, ?_, fun j => ?_, fun i => ?_, fun j => ?_⟩
  all_goals
    rw [regAt]
    repeat rw [if_neg (by omega)]
    rw [if_pos (by omega)]
    simp only [Reg.inPtr.injEq, Reg.outPtr.injEq, Reg.valid.injEq, Reg.hash.injEq, Reg.sched.injEq, Reg.work.injEq,
      Fin.ext_iff, Fin.val_ofNat]
    omega

/-- The word numbers that name no register (R34). -/
theorem regAt_reserved {r : Nat} (h : (4 ≤ r ∧ r ≤ 15) ∨ (48 ≤ r ∧ r ≤ 63) ∨ (192 ≤ r ∧ r ≤ 255) ∨ 1424 ≤ r) :
    regAt r = .reserved := by
  rcases h with h | h | h | h <;> rw [regAt]
  case inr.inr.inr => repeat rw [if_neg (by omega)]
  all_goals
    repeat rw [if_neg (by omega)]
    rw [if_pos (by omega)]

/-- Outside CMD and the lane tables no register takes a host's write (R35 a). -/
theorem writeReg_regAt_dropped (e : Engine) (v : Word) {r : Nat} (h : (1 ≤ r ∧ r ≤ 15) ∨ 48 ≤ r) :
    e.writeReg v (regAt r) = e := by
  rw [regAt, if_neg (by omega)]
  rcases h with h | h
  · rw [if_pos (show r < 16 by omega)]
    simp only [apply_ite (e.writeReg v)]
    simp only [Engine.writeReg, ite_self]
  · repeat rw [if_neg (by omega)]
    simp only [apply_ite (e.writeReg v)]
    simp only [Engine.writeReg, ite_self]

/-- A ready engine takes a host's write to its window (R35 b). -/
theorem hostMove_writeReg_ready {s : State} {c : Nat} {e : Engine} (he : s.engines[c]? = some e) (hseq : e.seq = none)
    (hfault : e.fault = none) (hhalt : s.ghalt = false) (r : Nat) (v : Word) (d : Draw) :
    s.hostMove (.writeReg c r v) d = { s with engines := s.engines.set c (e.writeReg v (regAt r)) } := by
  have htakes : e.takesWrites s.ghalt = true := by simp [Engine.takesWrites, Engine.busy, hseq, hfault, hhalt]
  simp only [State.hostMove, State.hostWriteReg, he, htakes, if_true]

/-- An engine that is busy, faulted or halted drops it. -/
theorem hostMove_writeReg_dropped {s : State} {c : Nat} {e : Engine} (he : s.engines[c]? = some e)
    (h : e.takesWrites s.ghalt = false) (r : Nat) (v : Word) (d : Draw) : s.hostMove (.writeReg c r v) d = s := by
  simp [State.hostMove, State.hostWriteReg, he, h]

theorem takesWrites_iff {e : Engine} {halted : Bool} :
    e.takesWrites halted = true ↔ e.seq = none ∧ e.fault = none ∧ halted = false := by
  simp [Engine.takesWrites, Engine.busy, and_assoc]

/-- Settles O7: such an engine takes no write. -/
theorem writesToUnreadyEnginesAreDropped : Obligations.WritesToUnreadyEnginesAreDropped := by
  intro s c r e v d he h
  refine hostMove_writeReg_dropped he ?_ r v d
  rw [← Bool.not_eq_true, takesWrites_iff]
  rintro ⟨hseq, hfault, hhalt⟩
  simp [hseq, hfault, hhalt] at h

/-- Settles O8: the lane tables stand at word numbers 16 to 47; no other register but CMD takes a write. -/
theorem hostWritesReachTheirRegisters : Obligations.HostWritesReachTheirRegisters := by
  refine ⟨fun s c e v d l he hseq hfault hhalt => ?_, fun s v d => ⟨fun h => ?_, fun h => ?_, ?_⟩⟩
  · obtain ⟨hin, hout, -⟩ := regAt_lane l
    have write := fun r => hostMove_writeReg_ready he hseq hfault hhalt r v d
    refine ⟨by rw [write, hin]; rfl, by rw [write, hout]; rfl, fun r hr => ?_⟩
    obtain ⟨hc, rfl⟩ := List.getElem?_eq_some_iff.mp he
    rw [write, writeReg_regAt_dropped _ _ hr, List.set_getElem_self]
  · simp [State.hostMove, State.hostWriteShared, h]
  · simp [State.hostMove, State.hostWriteShared, h]
  · simp [State.hostMove, State.hostWriteShared]

/-- What the host reads in an engine's window: the register's value, or the draw where it has none (R34, R41). -/
theorem readData_readReg {s : State} {c : Nat} {e : Engine} (he : s.engines[c]? = some e) (r : Nat) (d : Draw) :
    (s.hostMove (.readReg c r) d).readData = (e.regValue s.ghalt c (regAt r)).getD d.word := by
  simp [State.hostMove, State.hostReadReg, he]

/-- Settles O9: each register stands at its word number, and holds a value where its valid bit is 1. -/
theorem hostReadsTheRegisterMap : Obligations.HostReadsTheRegisterMap := by
  refine ⟨fun s c e d he => ?_, fun s d => ⟨fun h => ?_, ?_⟩⟩
  · have read := fun r => readData_readReg he r d
    refine ⟨read 0, read 1, read 2, read 3, fun r hr => ?_, fun l => ?_⟩
    · rw [read, regAt_reserved hr]
      rfl
    · obtain ⟨hin, hout, hvalid, hhash, hsched, hwork⟩ := regAt_lane l
      refine ⟨?_, ?_, ?_, fun j h => ?_, fun i hw hx => ?_, fun j h => ?_⟩
      · rw [read, hin]; rfl
      · rw [read, hout]; rfl
      · rw [read, hvalid]; rfl
      · rw [read, hhash]; simp [Engine.regValue, h]
      · rw [read, hsched]
        by_cases hi : i.val < 16
        · simp [Engine.regValue, hi, hw hi]
        · simp [Engine.regValue, hi, hx (by omega)]
      · rw [read, hwork]; simp [Engine.regValue, h]
  · simp [State.hostMove, State.hostReadShared, h]
  · simp [State.hostMove, State.hostReadShared]

/-- Settles O10: a register whose valid bit is 0 has no value, and the read returns the draw. -/
theorem unwrittenRegistersReadAsTheDraw : Obligations.UnwrittenRegistersReadAsTheDraw := by
  refine ⟨fun s c e d l he => ?_, fun s d h => ?_⟩
  · have read := fun r => readData_readReg he r d
    obtain ⟨-, -, -, hhash, hsched, hwork⟩ := regAt_lane l
    refine ⟨fun j h => ?_, fun i h => ?_, fun j h => ?_⟩
    · rw [read, hhash]; simp [Engine.regValue, h]
    · rw [read, hsched]
      rcases h with ⟨hi, h⟩ | ⟨hi, h⟩
      · simp [Engine.regValue, hi, h]
      · simp [Engine.regValue, Nat.not_lt.mpr hi, h]
    · rw [read, hwork]; simp [Engine.regValue, h]
  · simp [State.hostMove, State.hostReadShared, h]

/-! ### The status words (O11) -/

/-- A word laid out as STATUS is (R31), field by field. The widths stay as sums, by which the parts are told apart. -/
theorem statusLayout_fields (high : BitVec 14) (group : BitVec 2) (lane : BitVec 4) (mid : BitVec 1)
    (halted idle waiting : Bool) (cause : BitVec 4) (low : BitVec 2) (fault busy : Bool) :
    let x := high ++ group ++ lane ++ mid ++ BitVec.ofBool halted ++ BitVec.ofBool idle ++ BitVec.ofBool waiting
      ++ cause ++ low ++ BitVec.ofBool fault ++ BitVec.ofBool busy
    x.getLsbD 0 = busy ∧ x.getLsbD 1 = fault ∧ x.extractLsb' 2 2 = low ∧ x.extractLsb' 4 4 = cause ∧
      x.getLsbD 8 = waiting ∧ x.getLsbD 9 = idle ∧ x.getLsbD 10 = halted ∧ x.getLsbD 11 = mid.getLsbD 0 ∧
      x.extractLsb' 12 4 = lane ∧ x.extractLsb' 16 2 = group ∧ x.extractLsb' 18 14 = high := by
  simp [-Nat.reduceAdd, BitVec.getElem_append, BitVec.extractLsb'_append_eq_of_le,
    BitVec.extractLsb'_append_eq_of_add_le]

/-- FGROUP stands right above FLANE (R31). -/
theorem extractLsb'_laneAndGroup (x : Word) : x.extractLsb' 12 6 = x.extractLsb' 16 2 ++ x.extractLsb' 12 4 :=
  (BitVec.extractLsb'_append_extractLsb'_eq_extractLsb' (len₁ := 4) (len₂ := 2) rfl).symm

/-- Settles O11: STATUS by its layout, the two short words by all values of their bits. -/
theorem statusFieldsStandWhereTheTableSays : Obligations.StatusFieldsStandWhereTheTableSays := by
  refine ⟨fun e halted => ?_, fun s => ?_, fun x => ?_⟩
  · obtain ⟨hbusy, hfault, hlow, hcause, hwaiting, hidle, hhalted, hmid, hlane, hgroup, hhigh⟩ :=
      statusLayout_fields 0 ((e.fault.map fun f => f.cause.group).getD 0) ((e.fault.map fun f => f.cause.lane).getD 0) 0
        halted e.idle e.waiting ((e.fault.map fun f => f.cause.code).getD 0) 0 e.fault.isSome e.busy
    rw [extractLsb'_laneAndGroup, show (e.status halted).extractLsb' 16 2 = _ from hgroup,
      show (e.status halted).extractLsb' 12 4 = _ from hlane]
    refine ⟨hbusy, hfault, hlow, fun h => ⟨hcause.trans ?_, ?_⟩, fun w h => ⟨hcause.trans ?_, ?_⟩,
      fun w g l h => ⟨hcause.trans ?_, ?_, ?_⟩, hwaiting, hidle, hhalted, hmid, hhigh⟩
      <;> rw [h]
    case refine_1 | refine_3 | refine_5 => rfl
    case refine_2 | refine_4 => exact (by decide : 0#2 ++ 0#4 = 0#6)
    case refine_6 => exact BitVec.eq_of_toNat_eq (by simp [FaultCause.lane])
    case refine_7 => cases g <;> rfl
  · unfold State.sharedStatus
    generalize s.ghalt = ghalt
    generalize s.av = av
    revert ghalt av
    decide
  · unfold Lane.valid
    generalize x.hv = hv
    generalize x.wlv = wlv
    generalize x.wev = wev
    generalize x.vv = vv
    revert hv wlv wev vv
    decide

/-! ### Reset (O12, O55) -/

/-- Settles O12: every engine of the block is `Engine.reset` then, and memory is untouched. -/
theorem resetEventRestoresResetValues : Obligations.ResetEventRestoresResetValues := by
  intro s u d hmove
  obtain rfl : u = s.nextMove.2 := by rw [hmove]
  refine ⟨_, step_host hmove, fun e he => ?_, rfl, rfl, ?_, ?_, ?_, ?_, fun a => ?_⟩
  · obtain ⟨-, -, rfl⟩ := List.mem_map.mp he
    refine ⟨rfl, rfl, rfl, rfl, rfl, fun l => ?_⟩
    rw [lane_reset]
    exact ⟨rfl, rfl, rfl⟩
  · simp [State.sharedStatus, State.hostMove]
  all_goals rw [nextMove_kept]
  · exact List.length_map _
  all_goals rfl

/-! ### What a micro-step of a body keeps (R121 to R124) -/

/-- The lanes of an engine after one of them is changed. -/
theorem forall_lane_updLane {e : Engine} {l : LaneNo} {f : Lane → Lane} {P : LaneNo → Lane → Prop}
    (h : ∀ k, k ≠ l → P k (e.lane k)) (hl : P l (f (e.lane l))) (k : LaneNo) : P k ((e.updLane l f).lane k) := by
  by_cases hk : k = l
  · subst hk
    rwa [lane_updLane_same]
  · rw [lane_updLane_other e f hk]
    exact h k hk

theorem ok_hinit {x : Lane} (h : x.ok) : x.hinit.ok := ⟨h.1, fun _ => rfl⟩

theorem ok_clearWev {x : Lane} (h : x.ok) : x.clearWev.ok := ⟨nofun, h.2⟩

theorem ok_loadWord {x : Lane} (h : x.ok) (j : Fin 16) (v : Word) : (x.loadWord j v).ok := h

theorem ok_markLoaded {x : Lane} (h : x.ok) : x.markLoaded.ok := ⟨fun _ => rfl, h.2⟩

theorem ok_expandSchedule {x : Lane} (h : x.ok) (hw : x.wlv = true) (v : SchedVariant) : (x.expandSchedule v).ok :=
  ⟨fun _ => by simpa using hw, by simpa using h.2⟩

theorem ok_compressBlock {x : Lane} (h : x.ok) (hh : x.hv = true) : x.compressBlock.ok := ⟨h.1, fun _ => hh⟩

/-- The lanes waiting in the next gather or scatter step: all of them, each once. -/
theorem todoFits_allLanes : todoFits allLanes = true := by decide

theorem todoFits_erase {todo : List LaneNo} {l : LaneNo} (h : todoFits todo = true) (hne : todo.erase l ≠ []) :
    todoFits (todo.erase l) = true := by
  simp only [todoFits, Bool.and_eq_true, decide_eq_true_eq] at h ⊢
  exact ⟨hne, h.2.erase l⟩

theorem lanePos_afterBlocks_fits (n b : Nat) : (LanePos.afterBlocks n b).fits n = true := by
  unfold LanePos.afterBlocks
  split <;> simp [LanePos.fits, *]

/-- Between blocks, and before the digest is stored, H alone is needed. -/
theorem lanePos_afterBlocks_ready (n b : Nat) (x : Lane) : (LanePos.afterBlocks n b).ready x = x.hv := by
  unfold LanePos.afterBlocks
  split <;> rfl

theorem vecPos_afterBlocks_fits (n b : Nat) : (VecPos.afterBlocks n b).fits n = true := by
  unfold VecPos.afterBlocks
  split <;> simp [VecPos.fits, todoFits_allLanes, *]

theorem vecPos_afterBlocks_ready (n b : Nat) (x : Lane) : (VecPos.afterBlocks n b).ready x = x.hv := by
  unfold VecPos.afterBlocks
  split <;> rfl

theorem gatherNext_fits {n b : Nat} {todo : List LaneNo} {l : LaneNo} (j : Fin 16) (hb : b < n)
    (h : todoFits todo = true) : (VecPos.gatherNext b j (todo.erase l)).fits n = true := by
  unfold VecPos.gatherNext
  split
  · cases nextIndex j <;> simp [VecPos.fits, hb, todoFits_allLanes]
  · simp [VecPos.fits, hb, todoFits_erase h ‹_›]

theorem gatherNext_ready (b : Nat) (j : Fin 16) (todo : List LaneNo) (x : Lane) :
    (VecPos.gatherNext b j todo).ready x = x.hv := by
  unfold VecPos.gatherNext
  split
  · cases nextIndex j <;> rfl
  · rfl

theorem scatterNext_fits {todo : List LaneNo} {l : LaneNo} (n : Nat) (j : Fin 8) (h : todoFits todo = true) :
    (VecPos.scatterNext j (todo.erase l)).fits n = true := by
  unfold VecPos.scatterNext
  split
  · cases nextIndex j <;> simp [VecPos.fits, todoFits_allLanes]
  · simp [VecPos.fits, todoFits_erase h ‹_›]

theorem scatterNext_ready {x : Lane} (j : Fin 8) (todo : List LaneNo) (h : x.hv = true) :
    (VecPos.scatterNext j todo).ready x = true := by
  unfold VecPos.scatterNext
  split
  · cases nextIndex j
    · rfl
    · exact h
  · exact h

/-- A micro-step of LaneSeq leads to a position of LaneSeq, at which the registers that are read next are written. -/
theorem laneMicro_keeps {s : State} {e : Engine} {n : Nat} {l : LaneNo} {p : LanePos} {m : Micro LanePos}
    (hm : s.laneMicro e n l p = some m) (hfit : p.fits n = true) (hready : p.ready (e.lane l) = true)
    (hok : (e.lane l).ok) :
    m.pos.fits n = true ∧ m.pos.ready (m.engine.lane l) = true ∧ (m.engine.lane l).ok := by
  cases p <;> simp only [State.laneMicro, Option.map_eq_some_iff, Option.some.injEq] at hm
  case init =>
    subst hm
    rw [lane_updLane_same, lanePos_afterBlocks_ready]
    exact ⟨lanePos_afterBlocks_fits n 0, rfl, ok_hinit hok⟩
  case clear b =>
    subst hm
    rw [lane_updLane_same]
    exact ⟨hfit, hready, ok_clearWev hok⟩
  case load b j =>
    obtain ⟨v, -, rfl⟩ := hm
    rw [lane_updLane_same]
    refine ⟨?_, ?_, ok_loadWord hok j v⟩ <;> cases nextIndex j <;> assumption
  case mark b =>
    subst hm
    rw [lane_updLane_same]
    exact ⟨hfit, Bool.and_eq_true_iff.mpr ⟨hready, rfl⟩, ok_markLoaded hok⟩
  case expand b =>
    subst hm
    rw [lane_updLane_same]
    obtain ⟨-, hw⟩ := Bool.and_eq_true_iff.mp hready
    exact ⟨hfit, by simpa [LanePos.ready] using hready, ok_expandSchedule hok hw _⟩
  case compress b =>
    subst hm
    rw [lane_updLane_same, lanePos_afterBlocks_ready]
    obtain ⟨hh, -⟩ := Bool.and_eq_true_iff.mp (Bool.and_eq_true_iff.mp hready).1
    exact ⟨lanePos_afterBlocks_fits n _, hh, ok_compressBlock hok hh⟩
  case store j =>
    obtain ⟨t, -, rfl⟩ := hm
    cases nextIndex j
    · exact ⟨rfl, rfl, hok⟩
    · exact ⟨rfl, hready, hok⟩
  case done => cases hm

/-- The same of the vector sequence, in every lane. -/
theorem vecMicro_keeps {s : State} {e : Engine} {n : Nat} {p : VecPos} {m : Micro VecPos}
    (hm : s.vecMicro e n p = some m) (hfit : p.fits n = true) (hready : ∀ l, p.ready (e.lane l) = true)
    (hok : ∀ l, (e.lane l).ok) :
    m.pos.fits n = true ∧ (∀ l, m.pos.ready (m.engine.lane l) = true) ∧ ∀ l, (m.engine.lane l).ok := by
  cases p <;> simp only [State.vecMicro, Option.bind_eq_some_iff, Option.map_eq_some_iff, Option.some.injEq] at hm
  case init =>
    subst hm
    simp only [lane_mapLanes, vecPos_afterBlocks_ready]
    exact ⟨vecPos_afterBlocks_fits n 0, fun l => rfl, fun l => ok_hinit (hok l)⟩
  case clear b =>
    subst hm
    simp only [lane_mapLanes]
    exact ⟨Bool.and_eq_true_iff.mpr ⟨hfit, todoFits_allLanes⟩, hready, fun l => ok_clearWev (hok l)⟩
  case gather b j todo =>
    obtain ⟨l, -, v, -, rfl⟩ := hm
    obtain ⟨hb, htodo⟩ := Bool.and_eq_true_iff.mp hfit
    simp only [gatherNext_ready]
    exact ⟨gatherNext_fits j (of_decide_eq_true hb) htodo,
      forall_lane_updLane (P := fun _ x => x.hv = true) (fun k _ => hready k) (hready l),
      forall_lane_updLane (P := fun _ x => x.ok) (fun k _ => hok k) (ok_loadWord (hok l) j v)⟩
  case mark b =>
    subst hm
    simp only [lane_mapLanes]
    exact ⟨hfit, fun l => Bool.and_eq_true_iff.mpr ⟨hready l, rfl⟩, fun l => ok_markLoaded (hok l)⟩
  case expand b =>
    subst hm
    simp only [lane_mapLanes]
    exact ⟨hfit, fun l => by simpa [VecPos.ready] using hready l,
      fun l => ok_expandSchedule (hok l) (Bool.and_eq_true_iff.mp (hready l)).2 _⟩
  case compress b =>
    subst hm
    simp only [lane_mapLanes, vecPos_afterBlocks_ready]
    have hh (l : LaneNo) : (e.lane l).hv = true :=
      (Bool.and_eq_true_iff.mp (Bool.and_eq_true_iff.mp (hready l)).1).1
    exact ⟨vecPos_afterBlocks_fits n _, hh, fun l => ok_compressBlock (hok l) (hh l)⟩
  case scatter j todo =>
    obtain ⟨l, -, t, -, rfl⟩ := hm
    exact ⟨scatterNext_fits n j hfit, fun k => scatterNext_ready j _ (hready k), hok⟩
  case done => cases hm

/-- What the invariant says of an engine inside a body. -/
structure BodyOk (st : Strategy) (n : Nat) (e : Engine) (b : BodyPos) : Prop where
  fits : b.fits st n = true
  ready : b.ready e = true
  lanes : ∀ l, (e.lane l).ok

/-- A body may start with any registers: its first micro-step writes H (R121). -/
theorem bodyOk_start (st : Strategy) (n : Nat) {e : Engine} (h : ∀ l, (e.lane l).ok) : BodyOk st n e (.start st) := by
  refine ⟨?_, ?_, h⟩ <;> cases st <;> rfl

theorem bodyOk_finished (st : Strategy) (n : Nat) {e : Engine} (h : ∀ l, (e.lane l).ok) : BodyOk st n e .finished :=
  ⟨rfl, rfl, h⟩

/-- A lane's micro-step leaves the other lanes. -/
theorem laneMicro_lanesKeptBut {s : State} {e : Engine} {n : Nat} {l : LaneNo} {p : LanePos} {m : Micro LanePos}
    (hm : s.laneMicro e n l p = some m) : e.lanesKeptBut m.engine l := by
  intro k hk
  rcases laneMicro_some hm with ⟨-, f, hf⟩ | ⟨-, -, he, -, -⟩
  · rw [hf, lane_updLane_other e f hk]
  · rw [he]

/-- A micro-step of a body keeps it. -/
theorem bodyMicro_keeps {s : State} {st : Strategy} {e : Engine} {n : Nat} {b : BodyPos} {m : Micro BodyPos}
    (hm : s.bodyMicro e n b = some m) (h : BodyOk st n e b) : BodyOk st n m.engine m.pos := by
  obtain ⟨hfit, hready, hok⟩ := h
  cases b <;> simp only [State.bodyMicro] at hm
  case scalar l p =>
    obtain ⟨u, hu, rfl⟩ := Option.map_eq_some_iff.mp hm
    simp only [BodyPos.fits, Bool.and_eq_true, decide_eq_true_eq] at hfit
    obtain ⟨⟨rfl, hfit⟩, -⟩ := hfit
    obtain ⟨hfit', hready', hok'⟩ := laneMicro_keeps hu hfit hready (hok l)
    have hlanes (k : LaneNo) : (u.engine.lane k).ok := by
      by_cases hk : k = l
      · rwa [hk]
      · rw [laneMicro_lanesKeptBut hu k hk]
        exact hok k
    simp only [BodyPos.afterScalar]
    split
    · cases nextIndex l
      · exact bodyOk_finished _ _ hlanes
      · exact ⟨rfl, rfl, hlanes⟩
    · exact ⟨by simp [BodyPos.fits, *], hready', hlanes⟩
  case vector p =>
    obtain ⟨u, hu, rfl⟩ := Option.map_eq_some_iff.mp hm
    simp only [BodyPos.fits, Bool.and_eq_true, decide_eq_true_eq] at hfit
    obtain ⟨⟨rfl, hfit⟩, -⟩ := hfit
    obtain ⟨hfit', hready', hok'⟩ := vecMicro_keeps hu hfit (by simpa [BodyPos.ready, allLanes] using hready) hok
    simp only [BodyPos.afterVector]
    split
    · exact bodyOk_finished _ _ hok'
    · exact ⟨by simp [BodyPos.fits, *], by simpa [BodyPos.ready, allLanes] using hready', hok'⟩
  case spmd ps =>
    split at hm
    · cases hm
      exact bodyOk_finished _ _ hok
    · obtain ⟨u, hu, rfl⟩ := Option.map_eq_some_iff.mp hm
      simp only [BodyPos.fits, BodyPos.ready, allLanes, List.all_eq_true, Bool.and_eq_true, decide_eq_true_eq,
        List.mem_finRange, forall_const] at hfit hready
      obtain ⟨rfl, hfit⟩ := hfit
      obtain ⟨hfit', hready', hok'⟩ := laneMicro_keeps hu (hfit _) (hready _) (hok _)
      have agents (k : LaneNo) : (ps.set s.turn.draw.lane u.pos)[k].fits n = true ∧
          (ps.set s.turn.draw.lane u.pos)[k].ready (u.engine.lane k) = true ∧ (u.engine.lane k).ok := by
        by_cases hk : k = s.turn.draw.lane
        · subst hk
          simpa using ⟨hfit', hready', hok'⟩
        · have hne : s.turn.draw.lane.val ≠ k.val := fun h => hk (Fin.ext h.symm)
          rw [laneMicro_lanesKeptBut hu k hk]
          simpa [hne] using ⟨hfit k, hready k, hok k⟩
      exact ⟨by simpa [BodyPos.fits, allLanes] using fun k => (agents k).1,
        by simpa [BodyPos.ready, allLanes] using fun k => (agents k).2.1, fun k => (agents k).2.2⟩
  case finished => cases hm

theorem controlKept_updLane (e : Engine) (l : LaneNo) (f : Lane → Lane) : e.controlKept (e.updLane l f) :=
  ⟨rfl, rfl, rfl, rfl⟩

theorem controlKept_mapLanes (e : Engine) (f : LaneNo → Lane → Lane) : e.controlKept (e.mapLanes f) :=
  ⟨mapLanes_lastCmd e f, mapLanes_fault e f, mapLanes_waiting e f, mapLanes_idle e f⟩

theorem controlKept_refl (e : Engine) : e.controlKept e := ⟨rfl, rfl, rfl, rfl⟩

/-- The engine's control registers are no body's to change. -/
theorem bodyMicro_controlKept {s : State} {e : Engine} {n : Nat} {b : BodyPos} {m : Micro BodyPos}
    (hm : s.bodyMicro e n b = some m) : e.controlKept m.engine := by
  rcases bodyMicro_some hm with ⟨-, he⟩ | ⟨-, f, he⟩ | ⟨-, l, f, he⟩ | ⟨l, j, v, he, -, -⟩ <;> rw [he]
  · exact controlKept_refl e
  · exact controlKept_mapLanes e f
  · exact controlKept_updLane e l f
  · exact controlKept_refl e

/-! ### What the invariant says of one engine (R30 to R36, R150) -/

/-- The two positions an engine holds at (R155). -/
def isHold : Pos → Bool
  | .polling | .idling => true
  | _ => false

/-- A sound engine `c` that executes command `i` and is not faulted. -/
structure Executes (c : Nat) (i : Instr) (e : Engine) (q : Seq) : Prop where
  ok : e.Ok c
  seq : e.seq = some q
  fault : e.fault = none
  dec : decode q.cmd = .command i

section
variable {c : Nat} {i : Instr} {e e' : Engine} {q : Seq} {p : Pos}

/-- It stands at one of the command's positions. -/
theorem Executes.fits (h : Executes c i e q) : q.pos.fits c i = true := by
  obtain ⟨-, j, hj, hfit⟩ := h.ok.seq q h.seq
  rw [h.dec] at hj
  cases hj
  exact hfit

/-- Outside the holds WAITING and IDLE are 0. -/
theorem Executes.not_holding (h : Executes c i e q) (hq : isHold q.pos = false) :
    e.waiting = false ∧ e.idle = false := by
  constructor <;> rw [← Bool.not_eq_true]
  · rw [h.ok.waiting, Engine.pos?, h.seq, Option.map_some, Option.some.injEq]
    intro hp
    rw [hp] at hq
    cases hq
  · rw [h.ok.idle, Engine.pos?, h.seq, Option.map_some, Option.some.injEq]
    intro hp
    rw [hp] at hq
    cases hq

/-- An engine at a position of the command it executed before. -/
theorem ok_at (h : Executes c i e q) (hcmd : e'.lastCmd = e.lastCmd) (hfault : e'.fault = none)
    (hseq : e'.seq = some { q with pos := p }) (hfit : p.fits c i = true) (hready : p.ready e' = true)
    (hwaiting : e'.waiting = true ↔ p = .polling) (hidle : e'.idle = true ↔ p = .idling)
    (hlanes : ∀ l, (e'.lane l).ok) : e'.Ok c where
  cmd := by rw [hcmd]; exact h.ok.cmd
  seq := by
    rw [hseq, hcmd]
    rintro _ ⟨⟩
    exact ⟨(h.ok.seq q h.seq).1, i, h.dec, hfit⟩
  ready := by
    rw [hseq]
    rintro _ ⟨⟩
    exact hready
  waiting := by rw [hwaiting, Engine.pos?, hseq, Option.map_some, Option.some.injEq]
  idle := by rw [hidle, Engine.pos?, hseq, Option.map_some, Option.some.injEq]
  fault := by simp [hfault]
  lanes := hlanes

/-- An engine without a command. -/
theorem ok_free (hcmd : e'.lastCmd = 0 ∨ ∃ j, decode e'.lastCmd = .command j) (hseq : e'.seq = none)
    (hwaiting : e'.waiting = false) (hidle : e'.idle = false) (hlanes : ∀ l, (e'.lane l).ok) : e'.Ok c where
  cmd := hcmd
  seq := by simp [hseq]
  ready := by simp [hseq]
  waiting := by simp [hwaiting, Engine.pos?, hseq]
  idle := by simp [hidle, Engine.pos?, hseq]
  fault := fun _ => hseq
  lanes := hlanes

/-- What is read next depends on the lanes alone. -/
theorem ready_congr (h : ∀ l, e'.lane l = e.lane l) (p : Pos) : p.ready e' = p.ready e := by
  have body (b : BodyPos) : b.ready e' = b.ready e := by cases b <;> simp only [BodyPos.ready, h]
  cases p <;> simp only [Pos.ready, body]

theorem ok_moveTo (h : Executes c i e q) (hk : e.controlKept e') (hlanes : ∀ l, (e'.lane l).ok)
    (hq : isHold q.pos = false) (hp : isHold p = false) (hfit : p.fits c i = true) (hready : p.ready e' = true) :
    (e'.moveTo q p).Ok c := by
  obtain ⟨hcmd, hfault, hwaiting, hidle⟩ := hk
  obtain ⟨hw, hi⟩ := h.not_holding hq
  refine ok_at h hcmd (hfault.trans h.fault) rfl hfit ((ready_congr (fun l => rfl) p).trans hready) ?_ ?_ hlanes
  · rw [moveTo_waiting, hwaiting, hw]
    exact ⟨nofun, fun hpos => by rw [hpos] at hp; cases hp⟩
  · rw [moveTo_idle, hidle, hi]
    exact ⟨nofun, fun hpos => by rw [hpos] at hp; cases hp⟩

theorem ok_complete (h : Executes c i e q) (hk : e.controlKept e') (hlanes : ∀ l, (e'.lane l).ok)
    (hq : isHold q.pos = false) : e'.complete.Ok c := by
  obtain ⟨hcmd, -, hwaiting, hidle⟩ := hk
  obtain ⟨hw, hi⟩ := h.not_holding hq
  exact ok_free (hcmd ▸ h.ok.cmd) rfl (hwaiting.trans hw) (hidle.trans hi) hlanes

theorem ok_raise (h : Executes c i e q) (hq : isHold q.pos = false) (cause : FaultCause) (w : Word) :
    (e.raise cause w).Ok c :=
  ok_free h.ok.cmd rfl rfl (h.not_holding hq).2 h.ok.lanes

/-- SYNC.WAIT begins its hold (R142). -/
theorem ok_enterWait (h : Executes c i e q) (hq : isHold q.pos = false) (hfit : Pos.polling.fits c i = true) :
    ({ e with waiting := true }.moveTo q .polling).Ok c := by
  refine ok_at h rfl h.fault rfl hfit rfl (by simp) ?_ h.ok.lanes
  rw [moveTo_idle, (h.not_holding hq).2]
  exact ⟨nofun, nofun⟩

/-- IDLE begins its hold (R144). -/
theorem ok_enterIdle (h : Executes c i e q) (hq : isHold q.pos = false) (hfit : Pos.idling.fits c i = true) :
    ({ e with idle := true }.moveTo q .idling).Ok c := by
  refine ok_at h rfl h.fault rfl hfit rfl ?_ (by simp) h.ok.lanes
  rw [moveTo_waiting, (h.not_holding hq).1]
  exact ⟨nofun, nofun⟩

/-- In SYNC.WAIT's hold IDLE is 0. -/
theorem idle_of_polling (h : Executes c i e q) (hq : q.pos = .polling) : e.idle = false := by
  rw [← Bool.not_eq_true, h.ok.idle, Engine.pos?, h.seq, Option.map_some, hq]
  nofun

/-- SYNC.WAIT's hold ends, and the command with it (R142). -/
theorem ok_wait_complete (h : Executes c i e q) (hq : q.pos = .polling) :
    Engine.Ok c { e.complete with waiting := false } := by
  have hidle := idle_of_polling h hq
  exact ok_free h.ok.cmd rfl rfl hidle h.ok.lanes

/-- SYNC.WAIT's hold ends in a RUN (R136, R142). -/
theorem ok_wait_moveTo (h : Executes c i e q) (hq : q.pos = .polling) (hfit : Pos.halting.fits c i = true) :
    Engine.Ok c { e.moveTo q .halting with waiting := false } := by
  refine ok_at h rfl h.fault rfl hfit rfl ⟨nofun, nofun⟩ ?_ h.ok.lanes
  rw [moveTo_idle, idle_of_polling h hq]
  exact ⟨nofun, nofun⟩
end

/-! ### What a micro-step of an engine can do (O54, O57, O58) -/

/-- `u` differs from `s` at most in memory, ACTIVE and GHALT, and keeps memory's canonical form. -/
def Outside (s u : State) : Prop :=
  u = { s with mem := u.mem, active := u.active, ghalt := u.ghalt } ∧ (s.memWf → u.memWf)

/-- A micro-step of the current engine leads to `t`: that engine is replaced, by a sound one where `G` holds, and of the
rest of the block at most memory, ACTIVE and GHALT change. -/
def LeadsTo (s : State) (G : Prop) (t : State) : Prop :=
  ∃ u e, t = u.putCur e ∧ Outside s u ∧ (G → e.Ok s.curIdx)

/-- Where a micro-step is one at all, it is such a one. -/
def Leads (s : State) (G : Prop) (o : Option State) : Prop := ∀ t, o = some t → LeadsTo s G t

theorem outside_refl (s : State) : Outside s s := ⟨rfl, id⟩

theorem outside_storeWord {s t : State} {a : Addr} {v : Word} {d : Draw} (h : s.storeWord a v d = some t) :
    Outside s t := by
  have hkept := storeWord_kept h
  have hcfg : t.cfg = s.cfg := by rw [hkept]
  refine ⟨?_, fun hw => ?_⟩
  · rw [hkept]
  · unfold State.memWf
    rw [hcfg]
    exact storeWord_wf h hw

section
variable {s : State} {G : Prop} {e : Engine} {q : Seq}

theorem leads_none : Leads s G none := nofun

theorem leads_putCur (h : G → e.Ok s.curIdx) : Leads s G (some (s.putCur e)) := fun _ ht => by
  cases ht
  exact ⟨s, e, rfl, outside_refl s, h⟩

/-- A check, and the step where it passes. -/
theorem leads_checked {failing : Option (Group × LaneNo)} {o : Option State}
    (hraise : G → ∀ g l, (e.raise (.uninitRead g l) q.cmd).Ok s.curIdx) (ho : failing = none → Leads s G o) :
    Leads s G (s.checked e q failing o) := by
  cases failing with
  | none => exact ho rfl
  | some gl => exact leads_putCur fun hg => hraise hg gl.1 gl.2

theorem leads_bind {α : Type} {o : Option α} {f : α → Option State} (h : ∀ v, o = some v → Leads s G (f v)) :
    Leads s G (o.bind f) := fun t ht => by
  obtain ⟨v, hv, ht⟩ := Option.bind_eq_some_iff.mp ht
  exact h v hv t ht

/-- A read and then a register update. -/
theorem leads_map_putCur {α : Type} {o : Option α} {f : α → Engine} (h : ∀ v, G → (f v).Ok s.curIdx) :
    Leads s G (o.map fun v => s.putCur (f v)) := fun t ht => by
  obtain ⟨v, -, ht⟩ := Option.map_eq_some_iff.mp ht
  exact leads_putCur (h v) t (congrArg some ht)

/-- A store and then a register update. -/
theorem leads_storeWord {a : Addr} {v : Word} {d : Draw} (h : G → e.Ok s.curIdx) :
    Leads s G ((s.storeWord a v d).map fun t => t.putCur e) := fun _ ht => by
  obtain ⟨u, hu, rfl⟩ := Option.map_eq_some_iff.mp ht
  exact ⟨u, e, rfl, outside_storeWord hu, h⟩

/-- A body's micro-step and then the move to its next position. -/
theorem leads_bodyMicro {n : Nat} {b : BodyPos} {f : BodyPos → Pos}
    (h : ∀ m, s.bodyMicro e n b = some m → G → (m.engine.moveTo q (f m.pos)).Ok s.curIdx) :
    Leads s G ((s.bodyMicro e n b).map fun m => m.state.putCur (m.engine.moveTo q (f m.pos))) := fun _ ht => by
  obtain ⟨m, hm, rfl⟩ := Option.map_eq_some_iff.mp ht
  refine ⟨m.state, _, rfl, ?_, h m hm⟩
  rcases bodyMicro_some hm with ⟨hs, -⟩ | ⟨hs, -⟩ | ⟨hs, -⟩ | ⟨l, j, v, -, hstore, -⟩
  · rw [hs]; exact outside_refl s
  · rw [hs]; exact outside_refl s
  · rw [hs]; exact outside_refl s
  · exact outside_storeWord hstore

theorem leads_decActive {k : Engine} (hraise : G → ∀ g l, (e.raise (.uninitRead g l) q.cmd).Ok s.curIdx)
    (hk : G → k.Ok s.curIdx) : Leads s G (s.decActive e q k) :=
  leads_checked hraise fun _ _ ht => by
    cases ht
    exact ⟨{ s with active := s.active - 1 }, k, rfl, ⟨rfl, id⟩, hk⟩

theorem leads_enterWait (hraise : G → ∀ g l, (e.raise (.uninitRead g l) q.cmd).Ok s.curIdx)
    (hwait : G → ({ e with waiting := true }.moveTo q .polling).Ok s.curIdx) : Leads s G (s.enterWait e q) :=
  leads_checked hraise fun _ => leads_putCur hwait

theorem leads_pollActive {k : Engine} (h : G → Engine.Ok s.curIdx { k with waiting := false }) :
    Leads s G (s.pollActive k) := fun t ht => by
  obtain ⟨-, rfl⟩ := pollActive_some ht
  exact leads_putCur h _ rfl

/-- HALT leaves the engines as they are. -/
theorem leads_haltAll (hc : s.cur = some e) (h : G → e.Ok s.curIdx) : Leads s G s.haltAll := fun t ht => by
  obtain ⟨ha, rfl⟩ := haltAll_some ht
  refine ⟨{ s.setWord s.cfg.haltAddr s.cfg.haltValue with ghalt := true }, e, ?_, ⟨rfl, fun hw => ?_⟩, h⟩
  case refine_2 => exact wf_writeWord _ _ _ _ _ hw (aligned_room (admits_aligned ha))
  obtain ⟨hlt, rfl⟩ := List.getElem?_eq_some_iff.mp hc
  simp [State.putCur, State.curIdx]
end

/-! ### Every command leads from a sound engine to a sound engine (O54) -/

/-- The commands with a hold (R155). -/
def mayHold : Instr → Bool
  | .runScalar | .runVector | .runSpmd | .syncWait | .idle => true
  | _ => false

/-- The other commands never stand in one. -/
theorem isHold_of_fits {c : Nat} {i : Instr} {p : Pos} (h : p.fits c i = true) (hi : mayHold i = false) :
    isHold p = false := by
  cases p with
  | polling =>
    cases i with
    | runScalar | runVector | runSpmd | syncWait => cases hi
    | _ => exact (Bool.false_ne_true h).elim
  | idling =>
    cases i with
    | runScalar | runVector | runSpmd | idle => cases hi
    | _ => exact (Bool.false_ne_true h).elim
  | _ => rfl

section
variable {s : State} {e : Engine} {q : Seq}

theorem lanesOk_updLane (h : ∀ l, (e.lane l).ok) {f : Lane → Lane} {l : LaneNo} (hf : (f (e.lane l)).ok) :
    ∀ k, ((e.updLane l f).lane k).ok :=
  forall_lane_updLane (P := fun _ x => x.ok) (fun k _ => h k) hf

theorem lanesOk_mapLanes {f : LaneNo → Lane → Lane} (h : ∀ l, (f l (e.lane l)).ok) :
    ∀ k, ((e.mapLanes f).lane k).ok := by
  simpa only [lane_mapLanes] using h

/-- A failed check of a command without a hold. -/
theorem ok_raise_of_fits {c : Nat} {i : Instr} (hi : mayHold i = false) (h : Executes c i e q) (g : Group) (l : LaneNo) :
    (e.raise (.uninitRead g l) q.cmd).Ok c :=
  ok_raise h (isHold_of_fits h.fits hi) _ _

/-- A micro-step of a command without a hold that changes no lane. -/
theorem ok_advance {c : Nat} {i : Instr} (hi : mayHold i = false) {p : Pos} (h : Executes c i e q)
    (hfit : p.fits c i = true) (hready : p.ready e = true) : (e.moveTo q p).Ok c :=
  ok_moveTo h (controlKept_refl e) h.ok.lanes (isHold_of_fits h.fits hi) (isHold_of_fits hfit hi) hfit hready

theorem ok_finish {c : Nat} {i : Instr} (hi : mayHold i = false) (h : Executes c i e q) : e.complete.Ok c :=
  ok_complete h (controlKept_refl e) h.ok.lanes (isHold_of_fits h.fits hi)

/-- The last micro-step of a command without a hold: one lane changes. -/
theorem ok_updLane_complete {c : Nat} {i : Instr} (hi : mayHold i = false) {l : LaneNo} {f : Lane → Lane}
    (h : Executes c i e q) (hf : (f (e.lane l)).ok) : (e.updLane l f).complete.Ok c :=
  ok_complete h (controlKept_updLane e l f) (lanesOk_updLane h.ok.lanes hf) (isHold_of_fits h.fits hi)

/-- The same where every lane changes. -/
theorem ok_mapLanes_complete {c : Nat} {i : Instr} (hi : mayHold i = false) {f : LaneNo → Lane → Lane}
    (h : Executes c i e q) (hf : ∀ l, (f l (e.lane l)).ok) : (e.mapLanes f).complete.Ok c :=
  ok_complete h (controlKept_mapLanes e f) (lanesOk_mapLanes hf) (isHold_of_fits h.fits hi)

/-- An earlier micro-step, of one lane. -/
theorem ok_updLane_moveTo {c : Nat} {i : Instr} (hi : mayHold i = false) {l : LaneNo} {f : Lane → Lane} {p : Pos}
    (h : Executes c i e q) (hf : (f (e.lane l)).ok) (hfit : p.fits c i = true)
    (hready : p.ready (e.updLane l f) = true) :
    ((e.updLane l f).moveTo q p).Ok c :=
  ok_moveTo h (controlKept_updLane e l f) (lanesOk_updLane h.ok.lanes hf) (isHold_of_fits h.fits hi)
    (isHold_of_fits hfit hi) hfit hready

theorem ok_mapLanes_moveTo {c : Nat} {i : Instr} (hi : mayHold i = false) {f : LaneNo → Lane → Lane} {p : Pos}
    (h : Executes c i e q) (hf : ∀ l, (f l (e.lane l)).ok) (hfit : p.fits c i = true)
    (hready : p.ready (e.mapLanes f) = true) : ((e.mapLanes f).moveTo q p).Ok c :=
  ok_moveTo h (controlKept_mapLanes e f) (lanesOk_mapLanes hf) (isHold_of_fits h.fits hi)
    (isHold_of_fits hfit hi) hfit hready
end

/-! ### PROCESS and RUN lead from a sound engine to a sound engine (O54) -/

/-- Where a PROCESS stands in its body. -/
theorem bodyPos_some {st : Strategy} {p : Pos} {b : BodyPos} (h : p.bodyPos st = some b) :
    (p = .start ∧ b = .start st) ∨ p = .body b := by
  cases p <;> cases h
  · exact .inl ⟨rfl, rfl⟩
  · exact .inr rfl

theorem fits_processInstr (st : Strategy) (n : BitVec 16) (c : Nat) (p : Pos) :
    p.fits c (processInstr st n) = p.fitsProcess st n.toNat := by
  cases st <;> rfl

theorem mayHold_processInstr (st : Strategy) (n : BitVec 16) : mayHold (processInstr st n) = false := by
  cases st <;> rfl

theorem fits_runInstr (st : Strategy) (c : Nat) (p : Pos) : p.fits c (runInstr st) = p.fitsRun st c := by
  cases st <;> rfl

section
variable {s : State} {e : Engine} {q : Seq}

theorem bodyOk_of_process {st : Strategy} {n : BitVec 16} {c : Nat} {b : BodyPos}
    (h : Executes c (processInstr st n) e q) (hb : q.pos.bodyPos st = some b) : BodyOk st n.toNat e b := by
  have hfit := h.fits
  have hready := h.ok.ready q h.seq
  rw [fits_processInstr] at hfit
  rcases bodyPos_some hb with ⟨-, rfl⟩ | hpos
  · exact bodyOk_start st _ h.ok.lanes
  · rw [hpos] at hfit hready
    exact ⟨hfit, hready, h.ok.lanes⟩

theorem leads_processStep (st : Strategy) (n : BitVec 16) :
    Leads s (Executes s.curIdx (processInstr st n) e q) (s.processStep st n.toNat e q) := by
  have hmay := mayHold_processInstr st n
  refine leads_bind fun b hb => ?_
  split
  · exact leads_putCur fun h => ok_finish hmay h
  · refine leads_bodyMicro fun m hm h => ?_
    obtain ⟨hfit, hready, hlanes⟩ := bodyMicro_keeps hm (bodyOk_of_process h hb)
    exact ok_moveTo h (bodyMicro_controlKept hm) hlanes (isHold_of_fits h.fits hmay) rfl
      ((fits_processInstr ..).trans hfit) hready

/-- What the invariant says of an engine at a position of a RUN, `.start` taken as RUN's first. -/
structure RunOk (st : Strategy) (c : Nat) (e : Engine) (q : Seq) (p : Pos) : Prop where
  executes : Executes c (runInstr st) e q
  fits : p.fitsRun st c = true
  ready : p.ready e = true
  hold : isHold q.pos = isHold p
  polling : p = .polling → q.pos = .polling

theorem runPos_cases (p : Pos) : (p = .start ∧ p.runPos = .tableIn 0 .first) ∨ p.runPos = p := by
  cases p with
  | start => exact .inl ⟨rfl, rfl⟩
  | _ => exact .inr rfl

theorem runOk_of_runPos {st : Strategy} {c : Nat} {p : Pos} (hp : q.pos.runPos = p)
    (h : Executes c (runInstr st) e q) : RunOk st c e q p := by
  subst hp
  rcases runPos_cases q.pos with ⟨hpos, hrun⟩ | hrun <;> rw [hrun]
  · exact ⟨h, rfl, rfl, by rw [hpos]; rfl, nofun⟩
  · exact ⟨h, (fits_runInstr ..).symm.trans h.fits, h.ok.ready q h.seq, rfl, id⟩

/-- A RUN's micro-step from outside the holds to a position outside them. -/
theorem RunOk.moveTo {st : Strategy} {c : Nat} {p p' : Pos} {e' : Engine} (h : RunOk st c e q p) (hk : e.controlKept e')
    (hlanes : ∀ l, (e'.lane l).ok) (hp : isHold p = false) (hp' : isHold p' = false) (hfit : p'.fitsRun st c = true)
    (hready : p'.ready e' = true) : (e'.moveTo q p').Ok c :=
  ok_moveTo h.executes hk hlanes (h.hold.trans hp) hp' ((fits_runInstr ..).trans hfit) hready

theorem RunOk.raise {st : Strategy} {c : Nat} {p : Pos} (h : RunOk st c e q p) (hp : isHold p = false) (g : Group)
    (l : LaneNo) : (e.raise (.uninitRead g l) q.cmd).Ok c :=
  ok_raise h.executes (h.hold.trans hp) _ _

/-- After a pass comes the next pass, the next iteration, or the context's part in the completion (R132, R136). -/
theorem afterPass_fits (st : Strategy) (c : Nat) (it : Fin 4) (p : Pass) (e : Engine) :
    (afterPass c it p).fitsRun st c = true ∧ (afterPass c it p).ready e = true ∧ isHold (afterPass c it p) = false := by
  cases p with
  | first => exact ⟨rfl, rfl, rfl⟩
  | second =>
    simp only [afterPass]
    cases nextIndex it with
    | some it => exact ⟨rfl, rfl, rfl⟩
    | none =>
      simp only [Option.map_none, Option.getD_none, completionPos]
      split
      · exact ⟨decide_eq_true ‹_›, rfl, rfl⟩
      · exact ⟨decide_eq_true ‹_›, rfl, rfl⟩

theorem leads_runStep (st : Strategy) (hc : s.cur = some e) :
    Leads s (Executes s.curIdx (runInstr st) e q) (s.runStep st s.curIdx e q) := by
  unfold State.runStep
  split
  case h_1 it p hp =>
    refine leads_putCur fun h => ?_
    exact (runOk_of_runPos hp h).moveTo (controlKept_mapLanes e _) (lanesOk_mapLanes fun l => h.ok.lanes l) rfl rfl rfl
      rfl
  case h_2 it p hp =>
    refine leads_putCur fun h => ?_
    obtain ⟨hfit, hready, hlanes⟩ := bodyOk_start st (passBlocks p)
      (lanesOk_mapLanes (f := fun l x => { x with outPtr := outTable s.cfg s.curIdx p l }) fun l => h.ok.lanes l)
    exact (runOk_of_runPos hp h).moveTo (controlKept_mapLanes e _) hlanes rfl rfl hfit hready
  case h_3 it p b hp =>
    split
    · refine leads_putCur fun h => ?_
      obtain ⟨hfit, hready, hhold⟩ := afterPass_fits st s.curIdx it p e
      exact (runOk_of_runPos hp h).moveTo (controlKept_refl e) h.ok.lanes rfl hhold hfit hready
    · refine leads_bodyMicro fun m hm h => ?_
      have hrun := runOk_of_runPos hp h
      obtain ⟨hfit, hready, hlanes⟩ := bodyMicro_keeps hm ⟨hrun.fits, hrun.ready, h.ok.lanes⟩
      exact hrun.moveTo (bodyMicro_controlKept hm) hlanes rfl rfl hfit hready
  case h_4 hp =>
    exact leads_decActive (fun h => (runOk_of_runPos hp h).raise rfl) fun h =>
      (runOk_of_runPos hp h).moveTo (controlKept_refl e) h.ok.lanes rfl rfl (runOk_of_runPos hp h).fits rfl
  case h_5 hp =>
    exact leads_putCur fun h => ok_enterIdle h ((runOk_of_runPos hp h).hold.trans rfl)
      ((fits_runInstr ..).trans (runOk_of_runPos hp h).fits)
  case h_6 hp =>
    exact leads_enterWait (fun h => (runOk_of_runPos hp h).raise rfl) fun h =>
      ok_enterWait h ((runOk_of_runPos hp h).hold.trans rfl) ((fits_runInstr ..).trans (runOk_of_runPos hp h).fits)
  case h_7 hp =>
    exact leads_pollActive fun h => ok_wait_moveTo h ((runOk_of_runPos hp h).polling rfl)
      ((fits_runInstr ..).trans (runOk_of_runPos hp h).fits)
  case h_8 => exact leads_haltAll hc fun h => h.ok
  case h_9 => exact leads_none
end

/-! ### Every command's micro-step (O54, O57, O58) -/

/-- The wrapper: the state stays, or the current engine, which may step, makes its micro-step. -/
theorem leadsTo_of_act {s t : State} {f : Engine → Seq → Option State} {G : Engine → Seq → Prop}
    (hf : ∀ e q, s.cur = some e → Leads s (G e q) (f e q)) (h : s.act f = .next t) :
    t = s ∨ ∃ e q, s.running e q ∧ LeadsTo s (G e q) t := by
  rcases act_next h with rfl | ⟨e, q, hc, hq, hg, hfault, ht⟩
  · exact .inl rfl
  · exact .inr ⟨e, q, ⟨hc, hq, hg, hfault⟩, hf e q hc t ht⟩

/-- The position after an element of WLOAD.V's gather or HSTORE.V's scatter is one of theirs. -/
theorem gatherNext_fits_wloadV {todo : List LaneNo} (b : BitVec 16) (c : Nat) (j : Fin 16) (l : LaneNo)
    (h : todoFits todo = true) (e : Engine) :
    (gatherNext j (todo.erase l)).fits c (.wloadV b) = true ∧ (gatherNext j (todo.erase l)).ready e = true := by
  unfold gatherNext
  split
  · cases nextIndex j <;> exact ⟨rfl, rfl⟩
  · exact ⟨todoFits_erase h ‹_›, rfl⟩

theorem scatterNext_fits_hstoreV {todo : List LaneNo} (c : Nat) (j : Fin 8) (l : LaneNo)
    (h : todoFits todo = true) (e : Engine) :
    (scatterNext j (todo.erase l)).fits c .hstoreV = true ∧ (scatterNext j (todo.erase l)).ready e = true := by
  unfold scatterNext
  split
  · cases nextIndex j <;> exact ⟨rfl, rfl⟩
  · exact ⟨todoFits_erase h ‹_›, rfl⟩

/-- A lane that COMPRESS finds written. -/
theorem ok_compressBlock_of_check {x : Lane} (h : x.ok) (hc : x.compressCheck = none) : x.compressBlock.ok :=
  ok_compressBlock h ((compressCheck_none_iff x).mp hc).1

/-- A lane that WEXPAND finds loaded. -/
theorem ok_expandSchedule_of_check {x : Lane} (h : x.ok) (hc : x.expandCheck = none) (v : SchedVariant) :
    (x.expandSchedule v).ok :=
  ok_expandSchedule h ((expandCheck_none_iff x).mp hc) v

/-- All a command's micro-step can do. -/
theorem exec_leadsTo {i : Instr} {s t : State} (h : exec i s = .next t) :
    t = s ∨ ∃ e q, s.running e q ∧ LeadsTo s (Executes s.curIdx i e q) t := by
  cases i <;> refine leadsTo_of_act (fun e q hc => ?_) h
  case hinitL l => exact leads_putCur fun h => ok_updLane_complete rfl h (ok_hinit (h.ok.lanes l))
  case hinitV => exact leads_putCur fun h => ok_mapLanes_complete rfl h fun l => ok_hinit (h.ok.lanes l)
  case wloadL l b =>
    split
    case h_1 => exact leads_putCur fun h => ok_updLane_moveTo rfl h (ok_clearWev (h.ok.lanes l)) rfl rfl
    case h_2 j _ =>
      refine leads_map_putCur fun v h => ?_
      have hnext : (((nextIndex j).map Pos.load).getD .mark).fits s.curIdx (.wloadL l b) = true ∧
          (((nextIndex j).map Pos.load).getD .mark).ready (e.updLane l (·.loadWord j v)) = true := by
        cases nextIndex j <;> exact ⟨rfl, rfl⟩
      exact ok_updLane_moveTo rfl h (ok_loadWord (h.ok.lanes l) j v) hnext.1 hnext.2
    case h_3 => exact leads_putCur fun h => ok_updLane_complete rfl h (ok_markLoaded (h.ok.lanes l))
    case h_4 => exact leads_none
  case wloadV b =>
    split
    case h_1 => exact leads_putCur fun h => ok_mapLanes_moveTo rfl h (fun l => ok_clearWev (h.ok.lanes l)) rfl rfl
    case h_2 j todo hpos =>
      refine leads_bind fun l _ => leads_map_putCur fun v h => ?_
      have hfit := h.fits
      rw [hpos] at hfit
      obtain ⟨hfit, hready⟩ := gatherNext_fits_wloadV b s.curIdx j l hfit (e.updLane l (·.loadWord j v))
      exact ok_updLane_moveTo rfl h (ok_loadWord (h.ok.lanes l) j v) hfit hready
    case h_3 => exact leads_putCur fun h => ok_mapLanes_complete rfl h fun l => ok_markLoaded (h.ok.lanes l)
    case h_4 => exact leads_none
  case wexpandL l =>
    refine leads_checked (ok_raise_of_fits rfl) fun hc => leads_putCur fun h => ?_
    exact ok_updLane_complete rfl h (ok_expandSchedule_of_check (h.ok.lanes l) (Option.map_eq_none_iff.mp hc) _)
  case wexpandV =>
    refine leads_checked (ok_raise_of_fits rfl) fun hc => leads_putCur fun h => ?_
    exact ok_mapLanes_complete rfl h fun l =>
      ok_expandSchedule_of_check (h.ok.lanes l) ((firstFailing_none_iff e _).mp hc l) _
  case compressL l =>
    refine leads_checked (ok_raise_of_fits rfl) fun hc => leads_putCur fun h => ?_
    exact ok_updLane_complete rfl h (ok_compressBlock_of_check (h.ok.lanes l) (Option.map_eq_none_iff.mp hc))
  case compressV =>
    refine leads_checked (ok_raise_of_fits rfl) fun hc => leads_putCur fun h => ?_
    exact ok_mapLanes_complete rfl h fun l =>
      ok_compressBlock_of_check (h.ok.lanes l) ((firstFailing_none_iff e _).mp hc l)
  case hstoreL l =>
    split
    case h_1 =>
      exact leads_checked (ok_raise_of_fits rfl) fun _ => leads_putCur fun h => ok_advance rfl h rfl rfl
    case h_2 j _ =>
      refine leads_storeWord fun h => ?_
      cases nextIndex j <;> exact ok_advance rfl h rfl rfl
    case h_3 => exact leads_putCur fun h => ok_finish rfl h
    case h_4 => exact leads_none
  case hstoreV =>
    split
    case h_1 =>
      exact leads_checked (ok_raise_of_fits rfl) fun _ => leads_putCur fun h => ok_advance rfl h rfl rfl
    case h_2 j todo hpos =>
      refine leads_bind fun l _ => leads_storeWord fun h => ?_
      have hfit := h.fits
      rw [hpos] at hfit
      obtain ⟨hfit, hready⟩ := scatterNext_fits_hstoreV s.curIdx j l hfit e
      exact ok_advance rfl h hfit hready
    case h_3 => exact leads_putCur fun h => ok_finish rfl h
    case h_4 => exact leads_none
  case processScalar n => exact leads_processStep .scalar n
  case processVector n => exact leads_processStep .vector n
  case processSpmd n => exact leads_processStep .spmd n
  case runScalar => exact leads_runStep .scalar hc
  case runVector => exact leads_runStep .vector hc
  case runSpmd => exact leads_runStep .spmd hc
  case syncDec =>
    exact leads_decActive (ok_raise_of_fits rfl) fun h => ok_finish rfl h
  case syncWait =>
    split
    case h_1 hpos =>
      exact leads_enterWait (fun h _ _ => ok_raise h (by rw [hpos]; rfl) _ _) fun h =>
        ok_enterWait h (by rw [hpos]; rfl) rfl
    case h_2 hpos => exact leads_pollActive fun h => ok_wait_complete h hpos
    case h_3 => exact leads_none
  case halt => exact leads_haltAll hc fun h => h.ok
  case idle =>
    split
    case h_1 hpos => exact leads_putCur fun h => ok_enterIdle h (by rw [hpos]; rfl) rfl
    case h_2 => exact leads_none

/-- A sound engine holds no illegal word. -/
theorem not_ok_of_illegal {c : Nat} {e : Engine} {q : Seq} {r : Reject} (hq : e.seq = some q)
    (hdec : decode q.cmd = .illegal r) : ¬ e.Ok c := by
  intro h
  obtain ⟨-, i, hi, -⟩ := h.seq q hq
  rw [hdec] at hi
  cases hi

/-- All an engine's move can do. -/
theorem engineStep_leadsTo {s t : State} (h : s.engineStep = .next t) :
    t = s ∨ ∃ e q, s.running e q ∧ LeadsTo s (e.Ok s.curIdx) t := by
  unfold State.engineStep at h
  split at h
  case h_1 =>
    rcases act_next h with rfl | ⟨_, _, -, -, -, -, hnone⟩
    · exact .inl rfl
    · cases hnone
  case h_2 w hfetch =>
    obtain ⟨e, q, hc, hq, rfl, hg, hfault⟩ := fetch_some hfetch
    split at h
    case h_1 i hdec =>
      rcases exec_leadsTo h with rfl | ⟨e', q', hr, u, k, ht, hu, hok⟩
      · exact .inl rfl
      · obtain rfl : e' = e := by simpa [hc] using hr.1.symm
        obtain rfl : q' = q := by simpa [hq] using hr.2.1.symm
        exact .inr ⟨e', q', hr, u, k, ht, hu, fun ho => hok ⟨ho, hq, hfault, hdec⟩⟩
    case h_2 r hdec =>
      rw [State.actIllegal, act_eq hc hq (mayStep_iff.mpr ⟨hg, hfault⟩)] at h
      cases h
      exact .inr ⟨e, q, ⟨hc, hq, hg, hfault⟩, s, _, rfl, outside_refl s,
        fun ho => absurd ho (not_ok_of_illegal hq hdec)⟩

/-! ### What a host's move can do -/

/-- A host's move other than reset leads from `s` to `t`: a register of a ready engine is written, or ACTIVE, or at most
memory, GHALT (set, never cleared) and the host's last read change. -/
inductive HostLeadsTo (s : State) : State → Prop where
  | register {c : Nat} {e : Engine} (v : Word) (r : Reg) (he : s.engines[c]? = some e)
      (ready : e.takesWrites s.ghalt = true) :
      HostLeadsTo s { s with engines := s.engines.set c (e.writeReg v r) }
  | active (v : Word) (running : s.ghalt = false) : HostLeadsTo s { s with active := v, av := true }
  | outside {t : State} (kept : t = { s with mem := t.mem, ghalt := t.ghalt, readData := t.readData })
      (wf : s.memWf → t.memWf) (halt : s.ghalt = true → t.ghalt = true) : HostLeadsTo s t

theorem hostLeadsTo_refl (s : State) : HostLeadsTo s s := .outside rfl id id

/-- A write that may fall on HALT_ADDR. -/
theorem hostLeadsTo_portWrite {s : State} {m : List Host.Cell} (d : Draw)
    (hwf : s.memWf → Mem.wf s.cfg.background m = true) : HostLeadsTo s (s.portWrite { s with mem := m } d) := by
  unfold State.portWrite
  cases d.portStores <;> cases d.portHalts
  · exact hostLeadsTo_refl s
  · exact .outside rfl id fun _ => rfl
  · exact .outside rfl hwf id
  · exact .outside rfl hwf fun _ => rfl

theorem hostMove_leadsTo (s : State) {m : HostMove} (hm : m ≠ .reset) (d : Draw) : HostLeadsTo s (s.hostMove m d) := by
  cases m with
  | writeReg c r v =>
    simp only [State.hostMove, State.hostWriteReg]
    split
    · exact hostLeadsTo_refl s
    · split
      · exact .register v (regAt r) ‹_› ‹_›
      · exact hostLeadsTo_refl s
  | readReg c r => exact .outside rfl id id
  | writeShared r v =>
    simp only [State.hostMove, State.hostWriteShared]
    split
    · exact .active v (And.right ‹_›)
    · exact hostLeadsTo_refl s
  | readShared r => exact .outside rfl id id
  | writeWord a v =>
    simp only [State.hostMove]
    cases h : s.storeWord a v d with
    | none => exact hostLeadsTo_refl s
    | some t =>
      have hwf := fun hw => wf_writeWord s.cfg.memEndian s.cfg.background s.mem a.toNat v hw
        (aligned_room (admits_aligned (storeWord_some h).1))
      obtain ⟨-, ⟨-, rfl⟩ | ⟨-, rfl⟩⟩ := storeWord_some h
      · exact .outside rfl hwf id
      · exact hostLeadsTo_portWrite d hwf
  | readWord a =>
    simp only [State.hostMove]
    cases s.loadWord a <;> exact .outside rfl id id
  | writeByte a v =>
    have hwf := fun hw => wf_writeByte s.cfg.background s.mem a.toNat v hw a.isLt
    simp only [State.hostMove, State.hostWriteByte]
    split
    · split
      · exact hostLeadsTo_portWrite d hwf
      · exact .outside rfl hwf id
    · exact hostLeadsTo_refl s
  | readByte a =>
    simp only [State.hostMove, State.hostReadByte]
    split <;> exact .outside rfl id id
  | reset => exact absurd rfl hm

/-! ### The invariant of the block (O54, O55) -/

theorem outside_engines {s u : State} (h : Outside s u) : u.engines = s.engines ∧ u.curIdx = s.curIdx := by
  rw [h.1]
  exact ⟨rfl, rfl⟩

/-- The invariant speaks of the engines and memory alone. -/
theorem inv_of_engines_eq {s t : State} (hs : s.Inv) (he : t.engines = s.engines) (hm : t.memWf) : t.Inv where
  engines := he ▸ hs.engines
  mem := hm
  ok c e h := hs.ok c e (he ▸ h)

/-- One engine may be replaced by a sound one. -/
theorem inv_set {s : State} (hs : s.Inv) {c : Nat} {e : Engine} (he : e.Ok c) :
    State.Inv { s with engines := s.engines.set c e } where
  engines := by simpa using hs.engines
  mem := hs.mem
  ok k f hk := by
    by_cases hkc : k = c
    · subst hkc
      obtain ⟨-, rfl⟩ : _ ∧ e = f := by simpa [List.getElem?_set] using hk
      exact he
    · exact hs.ok k f (by simpa [Ne.symm hkc] using hk)

theorem inv_of_leadsTo {s t : State} {e : Engine} (hs : s.Inv) (hc : s.cur = some e)
    (h : LeadsTo s (e.Ok s.curIdx) t) : t.Inv := by
  obtain ⟨u, e', rfl, hu, hok⟩ := h
  obtain ⟨heng, hcur⟩ := outside_engines hu
  exact inv_set (inv_of_engines_eq hs heng (hu.2 hs.mem)) (hcur ▸ hok (hs.ok _ e hc))

theorem ok_reset (c : Nat) : Engine.reset.Ok c := by
  refine ok_free (.inl rfl) rfl rfl rfl fun l => ?_
  rw [lane_reset]
  exact ⟨nofun, nofun⟩

/-- A ready engine is in no hold. -/
theorem not_holding_of_free {c : Nat} {e : Engine} (h : e.Ok c) (hseq : e.seq = none) :
    e.waiting = false ∧ e.idle = false := by
  constructor <;> rw [← Bool.not_eq_true]
  · rw [h.waiting, Engine.pos?, hseq]
    nofun
  · rw [h.idle, Engine.pos?, hseq]
    nofun

/-- A CMD write to a ready engine leaves it sound: it executes a legal word from its start, or has faulted. -/
theorem ok_issue {c : Nat} {e : Engine} (h : e.Ok c) (hseq : e.seq = none) (hfault : e.fault = none) (w : Word) :
    (e.issue w).Ok c := by
  obtain ⟨hw, hi⟩ := not_holding_of_free h hseq
  unfold Engine.issue
  split
  · rename_i i hdec
    have hexec : ∀ q, (e.accept w).seq = some q → q = { cmd := w, pos := .start } := by
      rintro _ ⟨⟩
      rfl
    exact {
      cmd := .inr ⟨i, hdec⟩
      seq := fun q hq => by
        obtain rfl := hexec q hq
        exact ⟨rfl, i, hdec, by cases i <;> rfl⟩
      ready := fun q hq => by
        obtain rfl := hexec q hq
        rfl
      waiting := by simp [hw, Engine.pos?]
      idle := by simp [hi, Engine.pos?]
      fault := by simp [hfault]
      lanes := h.lanes }
  · exact ok_free h.cmd rfl rfl hi h.lanes

/-- A host's write to a ready engine leaves it sound. -/
theorem ok_writeReg {c : Nat} {e : Engine} {halted : Bool} (h : e.Ok c) (ht : e.takesWrites halted = true) (v : Word)
    (r : Reg) : (e.writeReg v r).Ok c := by
  obtain ⟨hseq, hfault, -⟩ := takesWrites_iff.mp ht
  obtain ⟨hw, hi⟩ := not_holding_of_free h hseq
  cases r with
  | cmd => exact ok_issue h hseq hfault v
  | inPtr l => exact ok_free h.cmd hseq hw hi (lanesOk_updLane h.lanes (h.lanes l))
  | outPtr l => exact ok_free h.cmd hseq hw hi (lanesOk_updLane h.lanes (h.lanes l))
  | _ => exact h

theorem inv_of_hostLeadsTo {s t : State} (hs : s.Inv) (h : HostLeadsTo s t) : t.Inv := by
  cases h with
  | register v r he ready => exact inv_set hs (ok_writeReg (hs.ok _ _ he) ready v r)
  | active v => exact inv_of_engines_eq hs rfl hs.mem
  | outside kept wf =>
    have heng : t.engines = s.engines := by rw [kept]
    exact inv_of_engines_eq hs heng (wf hs.mem)

theorem inv_resetBlock {s : State} (hs : s.Inv) : s.resetBlock.Inv where
  engines h := hs.engines (List.map_eq_nil_iff.mp h)
  mem := hs.mem
  ok c e h := by
    obtain ⟨-, -, rfl⟩ := List.mem_map.mp (List.mem_of_getElem? h)
    exact ok_reset c

theorem inv_nextMove {s u : State} {m : Move} (hs : s.Inv) (h : s.nextMove = (m, u)) : u.Inv := by
  obtain rfl : u = s.nextMove.2 := by rw [h]
  rw [nextMove_kept]
  exact inv_of_engines_eq hs rfl hs.mem

/-- Settles O54: an engine's move leads from a sound engine to a sound one, and so does a host's write. -/
theorem everyStepKeepsTheInvariant : Obligations.EveryStepKeepsTheInvariant := by
  intro s t hs ht
  rcases hmove : s.nextMove with ⟨m, u⟩
  have hu := inv_nextMove hs hmove
  cases m with
  | host m d =>
    rw [step_host hmove] at ht
    cases ht
    by_cases hm : m = .reset
    · subst hm
      exact inv_resetBlock hu
    · exact inv_of_hostLeadsTo hu (hostMove_leadsTo u hm d)
  | engine c d =>
    rw [step_engine hmove] at ht
    have hturn : (u.withTurn c d).Inv := inv_of_engines_eq hu rfl hu.mem
    rcases engineStep_leadsTo ht with rfl | ⟨e, q, hr, hlead⟩
    · exact hturn
    · exact inv_of_leadsTo hturn hr.1 hlead

/-- Settles O55: an engine at its reset values is sound. -/
theorem resetMeetsTheInvariant : Obligations.ResetMeetsTheInvariant where
  engines := nofun
  mem := rfl
  ok c e he := by
    obtain rfl := reset_engines_eq he
    exact ok_reset c

/-! ### What stands until reset (O57, O58) -/

/-- A host's move other than reset leaves a faulted engine. -/
theorem faulted_of_hostLeadsTo {s t : State} {c : Nat} {e : Engine} (he : s.engines[c]? = some e)
    (hfault : e.fault ≠ none) (h : HostLeadsTo s t) : t.engines[c]? = some e := by
  cases h with
  | @register k f v r hf ready =>
    have hne : k ≠ c := by
      rintro rfl
      obtain rfl : e = f := by simpa [he] using hf
      exact hfault (takesWrites_iff.mp ready).2.1
    simpa [hne] using he
  | active => exact he
  | outside kept =>
    rw [kept]
    exact he

/-- An engine's micro-step leaves every other engine. -/
theorem engines_of_leadsTo {s t : State} {G : Prop} {c : Nat} (h : LeadsTo s G t) (hc : c ≠ s.curIdx) :
    t.engines[c]? = s.engines[c]? := by
  obtain ⟨u, e, rfl, hu, -⟩ := h
  obtain ⟨heng, hcur⟩ := outside_engines hu
  rw [engines_putCur_other u e (hcur ▸ hc), heng]

/-- Settles O57: an engine's move replaces an engine that has not faulted, and a host's write reaches none that has. -/
theorem faultedEnginesChangeOnlyByReset : Obligations.FaultedEnginesChangeOnlyByReset := by
  intro s t c e he hfault ht hreset
  rcases hmove : s.nextMove with ⟨m, u⟩
  have heu : u.engines[c]? = some e := (nextMove_cfg_engines hmove).2 ▸ he
  rw [hmove] at hreset
  cases m with
  | host m d =>
    rw [step_host hmove] at ht
    cases ht
    exact faulted_of_hostLeadsTo heu hfault (hostMove_leadsTo u (fun hm => hreset d (hm ▸ rfl)) d)
  | engine k d =>
    rw [step_engine hmove] at ht
    rcases engineStep_leadsTo ht with rfl | ⟨f, q, ⟨hcur, -, -, hf⟩, hlead⟩
    · exact heu
    · have hne : c ≠ (u.withTurn k d).curIdx := by
        rintro rfl
        obtain rfl : e = f := Option.some.inj (heu.symm.trans hcur)
        exact hfault hf
      exact (engines_of_leadsTo hlead hne).trans heu

/-- A host's move other than reset leaves a halted block's engines and ACTIVE. -/
theorem halted_of_hostLeadsTo {s t : State} (hhalt : s.ghalt = true) (h : HostLeadsTo s t) :
    t.ghalt = true ∧ t.engines = s.engines ∧ t.active = s.active ∧ t.av = s.av := by
  cases h with
  | register v r he ready =>
    obtain ⟨-, -, hrun⟩ := takesWrites_iff.mp ready
    simp [hhalt] at hrun
  | active v running => simp [hhalt] at running
  | outside kept _ halt =>
    refine ⟨halt hhalt, ?_⟩
    rw [kept]
    exact ⟨rfl, rfl, rfl⟩

/-- Choosing the next move leaves the completion unit. -/
theorem nextMove_completion {s u : State} {m : Move} (h : s.nextMove = (m, u)) :
    u.ghalt = s.ghalt ∧ u.active = s.active ∧ u.av = s.av := by
  obtain rfl : u = s.nextMove.2 := by rw [h]
  rw [nextMove_kept]
  exact ⟨rfl, rfl, rfl⟩

/-- Settles O58: in a halted block no engine steps or takes a write, and ACTIVE takes none. -/
theorem haltedBlockChangesOnlyByReset : Obligations.HaltedBlockChangesOnlyByReset := by
  intro s t hhalt ht hreset
  rcases hmove : s.nextMove with ⟨m, u⟩
  obtain ⟨hg, ha, hav⟩ := nextMove_completion hmove
  rw [hmove] at hreset
  rw [← hg] at hhalt
  rw [← (nextMove_cfg_engines hmove).2, ← ha, ← hav]
  cases m with
  | host m d =>
    rw [step_host hmove] at ht
    cases ht
    exact halted_of_hostLeadsTo hhalt (hostMove_leadsTo u (fun hm => hreset d (hm ▸ rfl)) d)
  | engine k d =>
    rw [step_engine hmove] at ht
    rcases engineStep_leadsTo ht with rfl | ⟨f, q, ⟨-, -, hrun, -⟩, -⟩
    · exact ⟨hhalt, rfl, rfl, rfl⟩
    · rw [withTurn_ghalt, hhalt] at hrun
      cases hrun

/-! ### PROCESS.SPMD (O34) -/

/-- The next index, where what follows is a position. -/
theorem nextIndex_map_getD {n : Nat} {α : Type} (j : Fin n) (f : Fin n → α) (a : α) :
    ((nextIndex j).map f).getD a = if h : j.val + 1 < n then f ⟨j.val + 1, h⟩ else a := by
  unfold nextIndex
  split <;> rfl

/-- Replacing the current engine twice leaves the second. -/
theorem putCur_putCur (s : State) (e e' : Engine) : (s.putCur e).putCur e' = s.putCur e' := by
  simp [State.putCur, State.curIdx]

theorem exec_processInstr (st : Strategy) (n : BitVec 16) (s : State) :
    exec (processInstr st n) s = s.act (s.processStep st n.toNat) := by
  cases st <;> rfl

/-- An admitted word that is not HALT_ADDR's is stored. -/
theorem storeWord_of_admits {s : State} {a : Addr} (v : Word) (d : Draw) (ha : s.admits a = true)
    (hp : a ≠ s.cfg.haltAddr) : s.storeWord a v d = some (s.setWord a v) := by
  simp [State.storeWord, ha, hp]

theorem loadWord_of_admits {s : State} {a : Addr} (ha : s.admits a = true) : s.loadWord a = some (s.wordAt a) := by
  simp [State.loadWord, ha]

/-- PROCESS's micro-step at a position of its body is the body's (R122 to R124). -/
theorem processStep_eq_bodyMicro {s : State} {st : Strategy} {q : Seq} {b : BodyPos} (hpos : q.pos.bodyPos st = some b)
    (hb : b ≠ .finished) (n : Nat) (e : Engine) :
    s.processStep st n e q = (s.bodyMicro e n b).map fun m => m.state.putCur (m.engine.moveTo q (.body m.pos)) := by
  simp [State.processStep, hpos, hb]

/-- While some lane agent has not finished, PROCESS.SPMD's micro-step is the drawn agent's (R124). -/
theorem exec_processSpmd_agent {s : State} {e : Engine} {q : Seq} {ps : Vector LanePos 16} {p : LanePos} (n : BitVec 16)
    (hr : s.running e q) (hpos : q.pos.bodyPos .spmd = some (.spmd ps)) (hp : ps[s.turn.draw.lane] = p)
    (h : ∃ k : LaneNo, ps[k] ≠ .done) :
    exec (.processSpmd n) s =
      .next (((s.laneMicro e n.toNat s.turn.draw.lane p).map fun m =>
        m.state.putCur (m.engine.moveTo q (.body (.spmd (ps.set s.turn.draw.lane m.pos))))).getD s) := by
  obtain ⟨hc, hq, hg, hf⟩ := hr
  have hnot : allDone ps = false := by
    obtain ⟨k, hk⟩ := h
    rw [← Bool.not_eq_true, allDone_iff]
    exact fun hall => hk (hall k)
  refine (act_eq hc hq (mayStep_iff.mpr ⟨hg, hf⟩) _).trans ?_
  rw [processStep_eq_bodyMicro hpos nofun, ← hp]
  simp [State.bodyMicro, hnot, Function.comp_def]

/-- Settles O34: an agent that has not finished makes its LaneSeq micro-step; the join and the completion are the
body's end. -/
theorem processSpmdRunsLaneAgents : Obligations.ProcessSpmdRunsLaneAgents := by
  intro s e q n ps hr hpos run l x at' goes after
  have hbody : q.pos.bodyPos .spmd = some (.spmd ps) := by
    rcases hpos with hpos | ⟨hpos, rfl⟩ <;> rw [hpos] <;> rfl
  have agent {p : LanePos} (hl : ps[l] = p) (hp : p ≠ .done) :=
    exec_processSpmd_agent n hr hbody hl ⟨l, hl ▸ hp⟩
  refine ⟨fun h => agent h nofun, fun b h => agent h nofun, fun b j h ha => ?_, fun b h => agent h nofun,
    fun b h => agent h nofun, fun b h => agent h nofun, fun j h ha hp => ?_,
    fun h hne => exec_processSpmd_agent n hr hbody h hne, fun h => ?_, ?_⟩
  · refine (agent h nofun).trans ?_
    rw [State.laneMicro, loadWord_of_admits ha]
    simp only [Option.map_some, Option.getD_some, nextIndex_map_getD]
    rfl
  · refine (agent h nofun).trans ?_
    rw [State.laneMicro, storeWord_of_admits _ _ ha hp]
    simp only [Option.map_some, Option.getD_some, nextIndex_map_getD]
    rfl
  · obtain ⟨hc, hq, hg, hf⟩ := hr
    refine (act_eq hc hq (mayStep_iff.mpr ⟨hg, hf⟩) _).trans ?_
    rw [processStep_eq_bodyMicro hbody nofun, State.bodyMicro, if_pos ((allDone_iff ps).mpr h)]
    rfl
  · obtain ⟨hc, hq, hg, hf⟩ := hr
    have hcur := cur_putCur hc { e with seq := some { q with pos := .body .finished } }
    refine (act_eq hcur rfl (mayStep_iff.mpr ⟨hg, hf⟩) _).trans ?_
    exact congrArg _ (putCur_putCur s _ _)

/-! ### HINIT, WEXPAND and COMPRESS (O48, O53) -/

/-- The register-only commands' effect on one lane (R101, R108, R92). -/
def laneEffect (v : SchedVariant) : Instr → Lane → Lane
  | .hinitL _ | .hinitV => Lane.hinit
  | .wexpandL _ | .wexpandV => Lane.expandSchedule v
  | .compressL _ | .compressV => Lane.compressBlock
  | _ => id

/-- The .L forms among them. -/
def isLaneForm (i : Instr) (l : LaneNo) : Prop := i = .hinitL l ∨ i = .wexpandL l ∨ i = .compressL l

/-- The .V forms among them. -/
def isVectorForm (i : Instr) : Prop := i = .hinitV ∨ i = .wexpandV ∨ i = .compressV

/-- A check raises a fault or lets the step be made. -/
theorem checked_cases {s t : State} {e : Engine} {q : Seq} {failing : Option (Group × LaneNo)} {u : State}
    (h : .next ((s.checked e q failing (some u)).getD s) = (.next t : Host.Outcome State Fault Refusal)) :
    (∃ g l, t = s.putCur (e.raise (.uninitRead g l) q.cmd)) ∨ t = u := by
  cases h
  cases failing with
  | none => exact .inr rfl
  | some gl => exact .inl ⟨gl.1, gl.2, rfl⟩

section
variable {i : Instr} {s t : State} {e e' : Engine} {q : Seq} {l : LaneNo}

/-- All the micro-step of a .L form can do. -/
theorem exec_laneForm (hr : s.running e q) (hi : isLaneForm i l) (h : exec i s = .next t) :
    (∃ g k, t = s.putCur (e.raise (.uninitRead g k) q.cmd)) ∨
      t = s.putCur (e.updLane l (laneEffect s.cfg.schedVariant i)).complete := by
  obtain ⟨hc, hq, hg, hf⟩ := hr
  rcases hi with rfl | rfl | rfl <;> have h := (act_eq hc hq (mayStep_iff.mpr ⟨hg, hf⟩) _).symm.trans h
  · cases h
    exact .inr rfl
  · exact checked_cases h
  · exact checked_cases h

/-- All the micro-step of a .V form can do. -/
theorem exec_vectorForm (hr : s.running e q) (hi : isVectorForm i) (h : exec i s = .next t) :
    (∃ g k, t = s.putCur (e.raise (.uninitRead g k) q.cmd)) ∨
      t = s.putCur (e.mapLanes fun _ => laneEffect s.cfg.schedVariant i).complete := by
  obtain ⟨hc, hq, hg, hf⟩ := hr
  rcases hi with rfl | rfl | rfl <;> have h := (act_eq hc hq (mayStep_iff.mpr ⟨hg, hf⟩) _).symm.trans h
  · cases h
    exact .inr rfl
  · exact checked_cases h
  · exact checked_cases h
end

/-- The schedule grows at its end: the words so far, newest first, stay (R104). -/
theorem extendSchedule_eq_append (v : SchedVariant) (n : Nat) (ws : List Word) :
    ∃ new, extendSchedule v n ws = new ++ ws := by
  induction n generalizing ws with
  | zero => exact ⟨[], rfl⟩
  | succ n ih =>
    obtain ⟨new, hnew⟩ := ih (scheduleWord v (ws.getD 1 0) (ws.getD 6 0) (ws.getD 14 0) (ws.getD 15 0) :: ws)
    exact ⟨new ++ [_], by rw [extendSchedule, hnew, List.append_assoc]; rfl⟩

/-- The first 16 words of a schedule are the block's (R104). -/
theorem expand_block (v : SchedVariant) (w : Vector Word 64) (j : Fin 16) : (expand v w)[j.val] = w[j.val] := by
  obtain ⟨new, hnew⟩ := extendSchedule_eq_append v 48 (w.toList.take 16).reverse
  simp [expand, hnew, List.getElem?_append, j.isLt]

/-- What a register-only command leaves of one lane (R92, R101, R108). -/
def RegisterFrame (i : Instr) (x y : Lane) : Prop :=
  y.inPtr = x.inPtr ∧ y.outPtr = x.outPtr ∧ y.wlv = x.wlv ∧
    (i = .hinitV ∨ (∃ l, i = .hinitL l) → y.w = x.w ∧ y.v = x.v ∧ y.wev = x.wev ∧ y.vv = x.vv) ∧
    (i = .wexpandV ∨ (∃ l, i = .wexpandL l) →
      y.h = x.h ∧ y.v = x.v ∧ y.hv = x.hv ∧ y.vv = x.vv ∧ ∀ j : Fin 16, y.w[j.val] = x.w[j.val]) ∧
    (i = .compressV ∨ (∃ l, i = .compressL l) → y.w = x.w ∧ y.wev = x.wev ∧ y.hv = x.hv)

theorem registerFrame_refl (i : Instr) (x : Lane) : RegisterFrame i x x := by simp [RegisterFrame]

theorem registerFrame_laneEffect (v : SchedVariant) (i : Instr) (x : Lane) : RegisterFrame i x (laneEffect v i x) := by
  cases i with
  | hinitL | hinitV | wexpandL | wexpandV | compressL | compressV => simp [RegisterFrame, laneEffect, expand_block]
  | _ => exact registerFrame_refl _ x

/-- What a register-only command leaves of its engine. -/
structure RegisterOnly (i : Instr) (e e' : Engine) : Prop where
  cmd : e'.lastCmd = e.lastCmd
  idle : e'.idle = e.idle
  waiting : e'.fault = none → e'.waiting = e.waiting
  faulted : e'.fault ≠ none → e.lanesKept e'
  others : ∀ l, isLaneForm i l → e.lanesKeptBut e' l
  lanes : ∀ k, RegisterFrame i (e.lane k) (e'.lane k)

theorem isLaneForm_unique {i : Instr} {l k : LaneNo} (hl : isLaneForm i l) (hk : isLaneForm i k) : k = l := by
  rcases hl with rfl | rfl | rfl <;> simpa [isLaneForm, eq_comm] using hk

theorem isVectorForm_not_laneForm {i : Instr} {l : LaneNo} (hi : isVectorForm i) : ¬ isLaneForm i l := by
  rcases hi with rfl | rfl | rfl <;> simp [isLaneForm]

theorem registerOnly_raise (i : Instr) (e : Engine) (c : FaultCause) (w : Word) : RegisterOnly i e (e.raise c w) where
  cmd := rfl
  idle := rfl
  waiting := nofun
  faulted _ _ := rfl
  others _ _ _ _ := rfl
  lanes _ := registerFrame_refl i _

theorem registerOnly_complete {i : Instr} {e e' : Engine} (hk : e.controlKept e') (hf : e.fault = none)
    (others : ∀ l, isLaneForm i l → e.lanesKeptBut e' l) (lanes : ∀ k, RegisterFrame i (e.lane k) (e'.lane k)) :
    RegisterOnly i e e'.complete := by
  obtain ⟨hcmd, hfault, hwaiting, hidle⟩ := hk
  exact ⟨hcmd, hidle, fun _ => hwaiting, fun h => absurd (hfault.trans hf) h, others, lanes⟩

/-- A register-only command replaces the current engine alone. -/
theorem exec_registerOnly {i : Instr} {s t : State} {e : Engine} {q : Seq} (hr : s.running e q)
    (hi : (∃ l, isLaneForm i l) ∨ isVectorForm i) (h : exec i s = .next t) :
    ∃ e', t = s.putCur e' ∧ RegisterOnly i e e' := by
  have ⟨_, _, _, hf⟩ := hr
  rcases hi with ⟨l, hi⟩ | hi
  · rcases exec_laneForm hr hi h with ⟨g, k, rfl⟩ | rfl
    · exact ⟨_, rfl, registerOnly_raise i e _ _⟩
    · refine ⟨_, rfl, registerOnly_complete (controlKept_updLane e l _) hf (fun k hk => ?_) ?_⟩
      · rw [isLaneForm_unique hi hk]
        exact fun m hm => lane_updLane_other e _ hm
      · exact forall_lane_updLane (P := fun k x => RegisterFrame i (e.lane k) x) (fun k _ => registerFrame_refl i _)
          (registerFrame_laneEffect _ i _)
  · rcases exec_vectorForm hr hi h with ⟨g, k, rfl⟩ | rfl
    · exact ⟨_, rfl, registerOnly_raise i e _ _⟩
    · refine ⟨_, rfl, registerOnly_complete (controlKept_mapLanes e _) hf
        (fun k hk => absurd hk (isVectorForm_not_laneForm hi)) fun k => ?_⟩
      rw [lane_mapLanes]
      exact registerFrame_laneEffect _ i _

/-- Replacing the current engine leaves the others. -/
theorem othersKept_putCur (s : State) (e : Engine) : s.othersKept (s.putCur e) :=
  ⟨List.length_set, fun _ hk => engines_putCur_other s e hk⟩

/-- Settles O48: such a command replaces the current engine, by one with the fault or with the effect on its lanes. -/
theorem registerOnlyCommandsFrame : Obligations.RegisterOnlyCommandsFrame := by
  intro i s t e e' q hr h he' hi
  obtain ⟨k, rfl, hk⟩ := exec_registerOnly hr hi h
  obtain rfl : k = e' := Option.some.inj ((cur_putCur hr.1 k).symm.trans he')
  exact ⟨fun _ => rfl, ⟨rfl, rfl, rfl, rfl, rfl, rfl, rfl, rfl⟩, othersKept_putCur s k, hk.cmd, hk.idle, hk.waiting,
    hk.faulted, hk.others, hk.lanes⟩

/-- Without a fault a .V form leaves its effect in every lane. -/
theorem lane_of_vectorForm {i : Instr} {s t : State} {e e' : Engine} {q : Seq} (hr : s.running e q)
    (hi : isVectorForm i) (h : exec i s = .next t) (he' : t.cur = some e') (hf : e'.fault = none) (l : LaneNo) :
    e'.lane l = laneEffect s.cfg.schedVariant i (e.lane l) := by
  rcases exec_vectorForm hr hi h with ⟨g, k, rfl⟩ | rfl <;>
    obtain rfl := Option.some.inj ((cur_putCur hr.1 _).symm.trans he')
  · cases hf
  · rw [lane_complete, lane_mapLanes]

/-- Without a fault a .L form leaves its effect in its lane. -/
theorem lane_of_laneForm {i : Instr} {s t : State} {e e' : Engine} {q : Seq} {l : LaneNo} (hr : s.running e q)
    (hi : isLaneForm i l) (h : exec i s = .next t) (he' : t.cur = some e') (hf : e'.fault = none) :
    e'.lane l = laneEffect s.cfg.schedVariant i (e.lane l) := by
  rcases exec_laneForm hr hi h with ⟨g, k, rfl⟩ | rfl <;>
    obtain rfl := Option.some.inj ((cur_putCur hr.1 _).symm.trans he')
  · cases hf
  · rw [lane_complete, lane_updLane_same]

/-- Settles O53: in lane `l` both engines hold the command's effect on what it held, and so does the .L form's. -/
theorem lanesDoNotLeak : Obligations.LanesDoNotLeak := by
  rintro s t s' t' e f e' f' q l i hs ht rfl hl hi hs' ht' he' hf' hfe hff
  have hlane := lane_of_vectorForm hs hi hs' he' hfe l
  refine ⟨?_, fun u g one hone hu hg hfg => ?_⟩
  · rw [hlane, lane_of_vectorForm ht hi ht' hf' hff l, hl]
    rfl
  · have hform : isLaneForm (one l) l := by
      rcases hone with ⟨-, rfl⟩ | ⟨-, rfl⟩ | ⟨-, rfl⟩ <;> simp [isLaneForm]
    rw [hlane, lane_of_laneForm hs hform hu hg hfg]
    rcases hone with ⟨rfl, rfl⟩ | ⟨rfl, rfl⟩ | ⟨rfl, rfl⟩ <;> rfl

/-! ### PROCESS and RUN (O51) -/

/-- A micro-step that stores at `addr`, if anywhere, leaves every other byte, and GHALT unless `addr` is HALT_ADDR. -/
structure MemFrame (s : State) (addr : Option Addr) (t : State) : Prop where
  stored : ∀ a, addr = some a → s.memKeptOutside t a
  kept : addr = none → s.memKept t
  halt : addr ≠ some s.cfg.haltAddr → t.ghalt = s.ghalt

/-- A micro-step that touches neither stores nowhere. -/
theorem memFrame_of_mem_eq {s t : State} (hc : t.cfg = s.cfg) (hm : t.mem = s.mem) (hg : t.ghalt = s.ghalt)
    (addr : Option Addr) : MemFrame s addr t := by
  have hread (a : Nat) : t.readByte a = s.readByte a := by rw [State.readByte, hc, hm, State.readByte]
  exact ⟨fun _ _ b _ => hread b, fun _ => hread, fun _ => hg⟩

theorem memFrame_storeWord {s t : State} {a : Addr} {v : Word} {d : Draw} (h : s.storeWord a v d = some t)
    (hw : s.memWf) : MemFrame s (some a) t where
  stored := by
    rintro _ ⟨⟩ b hb
    exact storeWord_readByte_other h hw hb
  kept := nofun
  halt hne := by
    obtain ⟨-, ⟨-, rfl⟩ | ⟨ha, -⟩⟩ := storeWord_some h
    · rfl
    · exact absurd (congrArg some ha) hne

theorem memFrame_haltAll {s t : State} (h : s.haltAll = some t) (hw : s.memWf) :
    MemFrame s (some s.cfg.haltAddr) t := by
  obtain ⟨ha, rfl⟩ := haltAll_some h
  refine ⟨?_, nofun, fun hne => absurd rfl hne⟩
  rintro _ ⟨⟩
  exact memKeptOutside_setWord _ hw (aligned_room (admits_aligned ha))

/-- A lane's micro-step stores the digest word its position names, or nothing. -/
theorem laneMicro_store {s : State} {e : Engine} {n : Nat} {l : LaneNo} {p : LanePos} {m : Micro LanePos}
    (hm : s.laneMicro e n l p = some m) :
    m.state = s ∨ ∃ j v, p = .store j ∧ s.storeWord ((e.lane l).digaddr j) v s.turn.draw = some m.state := by
  cases p with
  | store j =>
    obtain ⟨t, ht, rfl⟩ := Option.map_eq_some_iff.mp hm
    exact .inr ⟨j, _, rfl, ht⟩
  | load b j =>
    obtain ⟨v, -, rfl⟩ := Option.map_eq_some_iff.mp hm
    exact .inl rfl
  | _ => cases hm <;> exact .inl rfl

/-- The same of the vector sequence. -/
theorem vecMicro_store {s : State} {e : Engine} {n : Nat} {p : VecPos} {m : Micro VecPos}
    (hm : s.vecMicro e n p = some m) :
    m.state = s ∨ ∃ j todo l v, p = .scatter j todo ∧ pickLane todo s.turn.draw = some l ∧
      s.storeWord ((e.lane l).digaddr j) v s.turn.draw = some m.state := by
  cases p with
  | scatter j todo =>
    obtain ⟨l, hl, hm⟩ := Option.bind_eq_some_iff.mp hm
    obtain ⟨t, ht, rfl⟩ := Option.map_eq_some_iff.mp hm
    exact .inr ⟨j, todo, l, _, rfl, hl, ht⟩
  | gather b j todo =>
    obtain ⟨l, -, hm⟩ := Option.bind_eq_some_iff.mp hm
    obtain ⟨v, -, rfl⟩ := Option.map_eq_some_iff.mp hm
    exact .inl rfl
  | _ => cases hm <;> exact .inl rfl

/-- A body's micro-step stores at the address its position names, or nothing. -/
theorem bodyMicro_store {s : State} {e : Engine} {n : Nat} {b : BodyPos} {m : Micro BodyPos}
    (hm : s.bodyMicro e n b = some m) :
    m.state = s ∨ ∃ a v, b.storeAddr e s.turn.draw = some a ∧ s.storeWord a v s.turn.draw = some m.state := by
  cases b with
  | scalar l p =>
    obtain ⟨u, hu, rfl⟩ := Option.map_eq_some_iff.mp hm
    rcases laneMicro_store hu with hs | ⟨j, v, rfl, hv⟩
    · exact .inl hs
    · exact .inr ⟨_, v, rfl, hv⟩
  | vector p =>
    obtain ⟨u, hu, rfl⟩ := Option.map_eq_some_iff.mp hm
    rcases vecMicro_store hu with hs | ⟨j, todo, l, v, rfl, hl, hv⟩
    · exact .inl hs
    · exact .inr ⟨_, v, by rw [BodyPos.storeAddr, hl]; rfl, hv⟩
  | spmd ps =>
    simp only [State.bodyMicro] at hm
    split at hm
    · cases hm
      exact .inl rfl
    · obtain ⟨u, hu, rfl⟩ := Option.map_eq_some_iff.mp hm
      rcases laneMicro_store hu with hs | ⟨j, v, hp, hv⟩
      · exact .inl hs
      · exact .inr ⟨_, v, by simp only [BodyPos.storeAddr, hp], hv⟩
  | finished => cases hm

/-- Every lane's table entries are as before. -/
def TablesKept (e e' : Engine) : Prop :=
  ∀ k, (e'.lane k).inPtr = (e.lane k).inPtr ∧ (e'.lane k).outPtr = (e.lane k).outPtr

theorem tablesKept_refl (e : Engine) : TablesKept e e := fun _ => ⟨rfl, rfl⟩

theorem tablesKept_updLane (e : Engine) (l : LaneNo) {f : Lane → Lane}
    (hf : ∀ x, (f x).inPtr = x.inPtr ∧ (f x).outPtr = x.outPtr) : TablesKept e (e.updLane l f) :=
  forall_lane_updLane (P := fun k x => x.inPtr = (e.lane k).inPtr ∧ x.outPtr = (e.lane k).outPtr)
    (fun _ _ => ⟨rfl, rfl⟩) (hf _)

theorem tablesKept_mapLanes (e : Engine) {f : LaneNo → Lane → Lane}
    (hf : ∀ l x, (f l x).inPtr = x.inPtr ∧ (f l x).outPtr = x.outPtr) : TablesKept e (e.mapLanes f) := by
  intro k
  rw [lane_mapLanes]
  exact hf k _

theorem laneMicro_tablesKept {s : State} {e : Engine} {n : Nat} {l : LaneNo} {p : LanePos} {m : Micro LanePos}
    (hm : s.laneMicro e n l p = some m) : TablesKept e m.engine := by
  cases p <;> simp only [State.laneMicro, Option.map_eq_some_iff, Option.some.injEq] at hm
  case load b j =>
    obtain ⟨v, -, rfl⟩ := hm
    exact tablesKept_updLane e l fun _ => ⟨rfl, rfl⟩
  case expand b =>
    subst hm
    exact tablesKept_updLane e l fun x => ⟨expandSchedule_inPtr _ x, expandSchedule_outPtr _ x⟩
  case store j =>
    obtain ⟨t, -, rfl⟩ := hm
    exact tablesKept_refl e
  case done => cases hm
  all_goals
    subst hm
    exact tablesKept_updLane e l fun _ => ⟨rfl, rfl⟩

theorem vecMicro_tablesKept {s : State} {e : Engine} {n : Nat} {p : VecPos} {m : Micro VecPos}
    (hm : s.vecMicro e n p = some m) : TablesKept e m.engine := by
  cases p <;> simp only [State.vecMicro, Option.bind_eq_some_iff, Option.map_eq_some_iff, Option.some.injEq] at hm
  case gather b j todo =>
    obtain ⟨l, -, v, -, rfl⟩ := hm
    exact tablesKept_updLane e l fun _ => ⟨rfl, rfl⟩
  case expand b =>
    subst hm
    exact tablesKept_mapLanes e fun _ x => ⟨expandSchedule_inPtr _ x, expandSchedule_outPtr _ x⟩
  case scatter j todo =>
    obtain ⟨l, -, t, -, rfl⟩ := hm
    exact tablesKept_refl e
  case done => cases hm
  all_goals
    subst hm
    exact tablesKept_mapLanes e fun _ _ => ⟨rfl, rfl⟩

/-- What a body's micro-step leaves. -/
structure BodyFrame (s : State) (e : Engine) (b : BodyPos) (u : State) (e' : Engine) : Prop where
  mem : MemFrame s (b.storeAddr e s.turn.draw) u
  control : e.controlKept e'
  tables : TablesKept e e'
  scalar : ∀ l p, b = .scalar l p → e.lanesKeptBut e' l
  spmd : ∀ ps, b = .spmd ps → e.lanesKeptBut e' s.turn.draw.lane

theorem bodyMicro_memFrame {s : State} {e : Engine} {n : Nat} {b : BodyPos} {m : Micro BodyPos}
    (hm : s.bodyMicro e n b = some m) (hw : s.memWf) : MemFrame s (b.storeAddr e s.turn.draw) m.state := by
  rcases bodyMicro_store hm with hs | ⟨a, v, ha, hv⟩
  · rw [hs]
    exact memFrame_of_mem_eq rfl rfl rfl _
  · rw [ha]
    exact memFrame_storeWord hv hw

theorem bodyMicro_frame {s : State} {e : Engine} {n : Nat} {b : BodyPos} {m : Micro BodyPos}
    (hm : s.bodyMicro e n b = some m) (hw : s.memWf) : BodyFrame s e b m.state m.engine := by
  have hmem := bodyMicro_memFrame hm hw
  have hcontrol := bodyMicro_controlKept hm
  cases b with
  | scalar l p =>
    obtain ⟨u, hu, rfl⟩ := Option.map_eq_some_iff.mp hm
    refine ⟨hmem, hcontrol, laneMicro_tablesKept hu, ?_, nofun⟩
    rintro _ _ ⟨⟩
    exact laneMicro_lanesKeptBut hu
  | vector p =>
    obtain ⟨u, hu, rfl⟩ := Option.map_eq_some_iff.mp hm
    exact ⟨hmem, hcontrol, vecMicro_tablesKept hu, nofun, nofun⟩
  | spmd ps =>
    simp only [State.bodyMicro] at hm
    split at hm
    · cases hm
      exact ⟨hmem, hcontrol, tablesKept_refl e, nofun, fun _ _ _ _ => rfl⟩
    · obtain ⟨u, hu, rfl⟩ := Option.map_eq_some_iff.mp hm
      exact ⟨hmem, hcontrol, laneMicro_tablesKept hu, nofun, fun _ _ => laneMicro_lanesKeptBut hu⟩
  | finished => cases hm

/-- What a micro-step of the PROCESS or RUN `i` at position `p` leaves, but for what every engine's step leaves. -/
structure CompositeFrame (i : Instr) (s : State) (e : Engine) (p : Pos) (u : State) (e' : Engine) : Prop where
  mem : MemFrame s (p.storeAddr s.cfg e s.turn.draw i) u
  active : p ≠ .decrement → u.active = s.active
  cmd : e'.lastCmd = e.lastCmd
  control : (∃ st n, i = processInstr st n) → e.controlKept e'
  tables : (∃ st n, i = processInstr st n) ∨ (∃ it r b, p = .pass it r b) → TablesKept e e'
  scalar : ∀ l r, p = .body (.scalar l r) → e.lanesKeptBut e' l
  spmd : ∀ ps, p = .body (.spmd ps) → e.lanesKeptBut e' s.turn.draw.lane

theorem compositeFrame_refl (i : Instr) (s : State) (e : Engine) (p : Pos) : CompositeFrame i s e p s e where
  mem := memFrame_of_mem_eq rfl rfl rfl _
  active _ := rfl
  cmd := rfl
  control _ := controlKept_refl e
  tables _ := tablesKept_refl e
  scalar _ _ _ _ _ := rfl
  spmd _ _ _ _ := rfl

theorem processInstr_ne_runInstr (st st' : Strategy) (n : BitVec 16) : runInstr st ≠ processInstr st' n := by
  cases st <;> cases st' <;> nofun

/-- A body's micro-step changes memory and GHALT at most, outside the engines. -/
theorem bodyMicro_engines {s : State} {e : Engine} {n : Nat} {b : BodyPos} {m : Micro BodyPos}
    (hm : s.bodyMicro e n b = some m) :
    m.state.engines = s.engines ∧ m.state.turn = s.turn ∧ m.state.active = s.active := by
  rcases bodyMicro_store hm with hs | ⟨a, v, -, hv⟩
  · rw [hs]
    exact ⟨rfl, rfl, rfl⟩
  · rw [storeWord_kept hv]
    exact ⟨rfl, rfl, rfl⟩

theorem memFrame_putCur_self (s : State) (addr : Option Addr) (e : Engine) : MemFrame s addr (s.putCur e) :=
  memFrame_of_mem_eq (s := s) (t := s.putCur e) rfl rfl rfl addr

theorem memFrame_putCur {s u : State} {addr : Option Addr} (h : MemFrame s addr u) (e : Engine) :
    MemFrame s addr (u.putCur e) := ⟨h.stored, h.kept, h.halt⟩

/-- The current engine once it has been replaced in a state with the same engines and turn. -/
theorem cur_putCur_of_eq {s u : State} {e : Engine} (hc : s.cur = some e) (he : u.engines = s.engines)
    (ht : u.turn = s.turn) (k : Engine) : (u.putCur k).cur = some k := by
  refine cur_putCur (e := e) ?_ k
  rwa [State.cur, State.curIdx, he, ht]

/-- A body's first micro-step stores nothing. -/
theorem storeAddr_start (st : Strategy) (e : Engine) (d : Draw) : (BodyPos.start st).storeAddr e d = none := by
  cases st with
  | scalar => rfl
  | vector => rfl
  | spmd => simp [BodyPos.start, BodyPos.storeAddr]

/-- PROCESS's micro-step stores where its body's does. -/
theorem processStep_memFrame {s : State} {e : Engine} {st : Strategy} {n : BitVec 16} {p : Pos} {b : BodyPos}
    {m : Micro BodyPos} (hb : p.bodyPos st = some b) (hm : s.bodyMicro e n.toNat b = some m) (hw : s.memWf) :
    MemFrame s (p.storeAddr s.cfg e s.turn.draw (processInstr st n)) m.state := by
  rcases bodyPos_some hb with ⟨-, rfl⟩ | rfl
  · rcases bodyMicro_store hm with hs | ⟨a, v, ha, -⟩
    · rw [hs]
      exact memFrame_of_mem_eq rfl rfl rfl _
    · rw [storeAddr_start] at ha
      cases ha
  · have hbody := bodyMicro_memFrame hm hw
    cases st <;> exact hbody

/-- PROCESS's micro-step. -/
theorem processStep_frame {s t : State} {e e' : Engine} {q : Seq} {st : Strategy} {n : BitVec 16}
    (hc : s.cur = some e) (hw : s.memWf) (h : s.processStep st n.toNat e q = some t) (he' : t.cur = some e') :
    CompositeFrame (processInstr st n) s e q.pos t e' := by
  obtain ⟨b, hb, h⟩ := Option.bind_eq_some_iff.mp h
  split at h
  · cases h
    obtain rfl := Option.some.inj ((cur_putCur hc _).symm.trans he')
    exact {
      mem := memFrame_putCur_self s _ _
      active := fun _ => rfl
      cmd := rfl
      control := fun _ => controlKept_refl e
      tables := fun _ => tablesKept_refl e
      scalar := fun _ _ _ _ _ => rfl
      spmd := fun _ _ _ _ => rfl }
  · obtain ⟨m, hm, rfl⟩ := Option.map_eq_some_iff.mp h
    obtain ⟨heng, hturn, hactive⟩ := bodyMicro_engines hm
    obtain rfl := Option.some.inj ((cur_putCur_of_eq hc heng hturn _).symm.trans he')
    have frame := bodyMicro_frame hm hw
    have at_body (r : BodyPos) (hr : q.pos = .body r) : b = r := by
      rw [hr] at hb
      exact (Option.some.inj hb).symm
    exact {
      mem := memFrame_putCur (processStep_memFrame hb hm hw) _
      active := fun _ => hactive
      cmd := frame.control.1
      control := fun _ => frame.control
      tables := fun _ => frame.tables
      scalar := fun l r hr => frame.scalar l r (at_body _ hr)
      spmd := fun ps hr => frame.spmd ps (at_body _ hr) }

/-- The frame of a RUN's micro-step at `p`, RUN's first position for `.start`. -/
theorem runFrame_of_runPos {st : Strategy} {s t : State} {e e' : Engine} {q : Seq} {p : Pos} (hp : q.pos.runPos = p)
    (hbody : ∀ b, p ≠ .body b) (hmem : MemFrame s (q.pos.storeAddr s.cfg e s.turn.draw (runInstr st)) t)
    (hactive : p ≠ .decrement → t.active = s.active) (hcmd : e'.lastCmd = e.lastCmd)
    (hpass : ∀ it r b, p = .pass it r b → TablesKept e e') : CompositeFrame (runInstr st) s e q.pos t e' := by
  have not_process : ¬ ∃ st' n, runInstr st = processInstr st' n :=
    fun ⟨st', n, h⟩ => processInstr_ne_runInstr st st' n h
  have not_body (b : BodyPos) : q.pos ≠ .body b := fun h => hbody b (by rw [← hp, h]; rfl)
  refine ⟨hmem, fun h => hactive ?_, hcmd, fun h => absurd h not_process, fun h => ?_,
    fun l r h => absurd h (not_body _), fun ps h => absurd h (not_body _)⟩
  · rcases runPos_cases q.pos with ⟨-, hrun⟩ | hrun <;> rw [← hp, hrun]
    · nofun
    · exact h
  · obtain ⟨it, r, b, h⟩ := h.resolve_left not_process
    exact hpass it r b (by rw [← hp, h]; rfl)

/-- Where RUN's position is not its first, it is the sequencer's. -/
theorem pos_eq_of_runPos {q p : Pos} (h : q.runPos = p) (hp : p ≠ .tableIn 0 .first) : q = p := by
  rcases runPos_cases q with ⟨-, hrun⟩ | hrun
  · exact absurd (h.symm.trans hrun) hp
  · exact hrun.symm.trans h

/-- RUN's micro-step. -/
theorem runStep_frame {s t : State} {e e' : Engine} {q : Seq} {st : Strategy} {c : Nat}
    (hc : s.cur = some e) (hw : s.memWf) (h : s.runStep st c e q = some t) (he' : t.cur = some e') :
    CompositeFrame (runInstr st) s e q.pos t e' := by
  have replaced {k : Engine} (hk : (s.putCur k).cur = some e') : k = e' :=
    Option.some.inj ((cur_putCur hc k).symm.trans hk)
  unfold State.runStep at h
  split at h
  case h_1 it p hp =>
    cases h
    obtain rfl := replaced he'
    exact runFrame_of_runPos hp nofun (memFrame_putCur_self s _ _) (fun _ => rfl)
      ((moveTo_lastCmd ..).trans (mapLanes_lastCmd e _)) nofun
  case h_2 it p hp =>
    cases h
    obtain rfl := replaced he'
    exact runFrame_of_runPos hp nofun (memFrame_putCur_self s _ _) (fun _ => rfl)
      ((moveTo_lastCmd ..).trans (mapLanes_lastCmd e _)) nofun
  case h_3 it p b hp =>
    split at h
    · cases h
      obtain rfl := replaced he'
      exact runFrame_of_runPos hp nofun (memFrame_putCur_self s _ _) (fun _ => rfl) rfl
        fun _ _ _ _ => tablesKept_refl e
    · obtain ⟨m, hm, rfl⟩ := Option.map_eq_some_iff.mp h
      obtain ⟨heng, hturn, hactive⟩ := bodyMicro_engines hm
      obtain rfl := Option.some.inj ((cur_putCur_of_eq hc heng hturn _).symm.trans he')
      have frame := bodyMicro_frame hm hw
      refine runFrame_of_runPos hp nofun (memFrame_putCur ?_ _) (fun _ => hactive) frame.control.1
        fun _ _ _ _ => frame.tables
      rw [pos_eq_of_runPos hp nofun]
      cases st <;> exact frame.mem
  case h_4 hp =>
    rcases decActive_some h with ⟨-, rfl⟩ | ⟨-, rfl⟩
    · obtain rfl := replaced he'
      exact runFrame_of_runPos hp nofun (memFrame_putCur_self s _ _) (fun _ => rfl) rfl nofun
    · obtain rfl := Option.some.inj ((cur_putCur_of_eq hc rfl rfl _).symm.trans he')
      exact runFrame_of_runPos hp nofun
        (memFrame_putCur (memFrame_of_mem_eq (s := s) (t := { s with active := s.active - 1 }) rfl rfl rfl _) _)
        (fun hne => absurd rfl hne) rfl nofun
  case h_5 hp =>
    cases h
    obtain rfl := replaced he'
    exact runFrame_of_runPos hp nofun (memFrame_putCur_self s _ _) (fun _ => rfl) rfl nofun
  case h_6 hp =>
    rcases enterWait_some h with ⟨-, rfl⟩ | ⟨-, rfl⟩ <;> obtain rfl := replaced he' <;>
      exact runFrame_of_runPos hp nofun (memFrame_putCur_self s _ _) (fun _ => rfl) rfl nofun
  case h_7 hp =>
    obtain ⟨-, rfl⟩ := pollActive_some h
    obtain rfl := replaced he'
    exact runFrame_of_runPos hp nofun (memFrame_putCur_self s _ _) (fun _ => rfl) rfl nofun
  case h_8 hp =>
    have hmem := memFrame_haltAll h hw
    obtain ⟨-, rfl⟩ := haltAll_some h
    obtain rfl := Option.some.inj (hc.symm.trans he')
    refine runFrame_of_runPos hp nofun ?_ (fun _ => rfl) rfl nofun
    rw [pos_eq_of_runPos hp nofun]
    cases st <;> exact hmem
  case h_9 => cases h

/-- What every command's micro-step leaves. -/
theorem kept_of_exec {i : Instr} {s t : State} (h : exec i s = .next t) :
    t.cfg = s.cfg ∧ t.av = s.av ∧ t.turn = s.turn ∧ t.script = s.script ∧ t.tick = s.tick ∧ t.readData = s.readData ∧
      s.othersKept t := by
  rcases exec_leadsTo h with rfl | ⟨_, _, -, hlead⟩
  · exact ⟨rfl, rfl, rfl, rfl, rfl, rfl, rfl, fun _ _ => rfl⟩
  · have hothers (k : Nat) (hk : k ≠ s.curIdx) : t.engines[k]? = s.engines[k]? := engines_of_leadsTo hlead hk
    obtain ⟨u, e, rfl, hu, -⟩ := hlead
    refine ⟨?_, ?_, ?_, ?_, ?_, ?_, List.length_set.trans (congrArg _ (outside_engines hu).1), hothers⟩
    all_goals
      rw [hu.1]
      rfl

/-- All the running engine's micro-step can do: nothing, or what `f` says. -/
theorem act_next_running {s t : State} {e : Engine} {q : Seq} {f : Engine → Seq → Option State} (hr : s.running e q)
    (h : s.act f = .next t) : t = s ∨ f e q = some t := by
  rcases act_next h with rfl | ⟨e', q', hc, hq, -, -, ht⟩
  · exact .inl rfl
  · obtain rfl : e' = e := Option.some.inj (hc.symm.trans hr.1)
    obtain rfl : q' = q := Option.some.inj (hq.symm.trans hr.2.1)
    exact .inr ht

/-- The frame of a PROCESS's or RUN's micro-step, where it has one. -/
theorem exec_compositeFrame {i : Instr} {st : Strategy} {s t : State} {e e' : Engine} {q : Seq} (hr : s.running e q)
    (hw : s.memWf) (h : exec i s = .next t) (he' : t.cur = some e')
    (hi : (∃ n, i = processInstr st n) ∨ i = runInstr st) : CompositeFrame i s e q.pos t e' := by
  have stays (hs : t = s) : CompositeFrame i s e q.pos t e' := by
    subst hs
    obtain rfl : e = e' := Option.some.inj (hr.1.symm.trans he')
    exact compositeFrame_refl i t e q.pos
  rcases hi with ⟨n, rfl⟩ | rfl
  · rw [exec_processInstr] at h
    exact (act_next_running hr h).elim stays fun h => processStep_frame hr.1 hw h he'
  · rw [exec_runInstr] at h
    exact (act_next_running hr h).elim stays fun h => runStep_frame hr.1 hw h he'

/-- Settles O51: the frame of the micro-step itself, with what every engine's micro-step leaves. -/
theorem compositeCommandsFrame : Obligations.CompositeCommandsFrame := by
  intro st i s t e e' q hr hw h he' hi
  have frame := exec_compositeFrame hr hw h he' hi
  obtain ⟨hcfg, hav, hturn, hscript, htick, hread, hothers⟩ := kept_of_exec h
  exact ⟨frame.mem.stored, frame.mem.kept, frame.mem.halt, frame.active, hcfg, hav, hturn, hscript, htick, hread,
    hothers, frame.cmd, fun ⟨n, hn⟩ => frame.control ⟨st, n, hn⟩,
    fun h => frame.tables (h.imp_left fun ⟨n, hn⟩ => ⟨st, n, hn⟩), frame.scalar, frame.spmd⟩

end Sys2Proof.Proofs
end

section
/-! PROOFS of the scope's obligations of memory: canonical memories (O18), SYNC.DEC (O43), WLOAD.V (O22, O23), HSTORE.V
(O30), PROCESS.VECTOR (O33), accesses memory does not admit (O47), the frames of WLOAD and HSTORE (O49, O50) and what an
engine writes (O59). -/

namespace Sys2Proof.Proofs

open Sys2Proof.Machine Sys2Proof.Laws

/-! ### Canonical memories (O18) -/

section
variable {bg v v' : Byte} {lo lo' k k' : Nat} {rest rest' : List Host.Cell}

theorem wfFrom_cons :
    Mem.wfFrom bg lo ((k, v) :: rest) = true ↔ lo ≤ k ∧ k < 2 ^ 32 ∧ v ≠ bg ∧ Mem.wfFrom bg (k + 1) rest = true := by
  simp [Mem.wfFrom, and_assoc]

theorem readByte_cons_same : Mem.readByte bg ((k, v) :: rest) k = v := if_pos rfl

theorem readByte_cons_other {a : Nat} (h : a ≠ k) : Mem.readByte bg ((k, v) :: rest) a = Mem.readByte bg rest a :=
  if_neg h

/-- A cell below the first key of another canonical list is told apart there: it is not `bg`, which that list reads. -/
theorem key_le_of_readByte_eq (h : Mem.wfFrom bg lo ((k, v) :: rest) = true)
    (h' : Mem.wfFrom bg lo' ((k', v') :: rest') = true)
    (hread : Mem.readByte bg ((k, v) :: rest) k = Mem.readByte bg ((k', v') :: rest') k) : k' ≤ k := by
  obtain ⟨-, -, hv, -⟩ := wfFrom_cons.mp h
  obtain ⟨-, hcell'⟩ := wfFrom_cons.mp h'
  by_contra hlt
  have below := readByte_below bg _ k' k (wfFrom_cons.mpr ⟨le_rfl, hcell'⟩) (Nat.lt_of_not_le hlt)
  exact hv (readByte_cons_same.symm.trans (hread.trans below))
end

/-- Canonical lists that read alike are equal: their first keys bound each other, and what is left reads alike too. -/
theorem wfFrom_ext {bg : Byte} {m m' : List Host.Cell} {lo lo' : Nat} (h : Mem.wfFrom bg lo m = true)
    (h' : Mem.wfFrom bg lo' m' = true) (hread : ∀ a, Mem.readByte bg m a = Mem.readByte bg m' a) : m = m' := by
  induction m generalizing lo lo' m' with
  | nil =>
    cases m' with
    | nil => rfl
    | cons c' rest' =>
      obtain ⟨-, -, hv', -⟩ := wfFrom_cons.mp h'
      exact absurd (readByte_cons_same.symm.trans (hread c'.1).symm) hv'
  | cons c rest ih =>
    cases m' with
    | nil =>
      obtain ⟨-, -, hv, -⟩ := wfFrom_cons.mp h
      exact absurd (readByte_cons_same.symm.trans (hread c.1)) hv
    | cons c' rest' =>
      obtain ⟨k, v⟩ := c
      obtain ⟨k', v'⟩ := c'
      obtain rfl : k = k' :=
        le_antisymm (key_le_of_readByte_eq h' h (hread k').symm) (key_le_of_readByte_eq h h' (hread k))
      obtain rfl : v = v' := by simpa [readByte_cons_same] using hread k
      obtain ⟨-, -, -, hrest⟩ := wfFrom_cons.mp h
      obtain ⟨-, -, -, hrest'⟩ := wfFrom_cons.mp h'
      refine congrArg _ (ih hrest hrest' fun a => ?_)
      by_cases ha : a = k
      · rw [ha, readByte_below bg rest _ k hrest k.lt_succ_self, readByte_below bg rest' _ k hrest' k.lt_succ_self]
      · simpa only [readByte_cons_other ha] using hread a

/-- Settles O18, by induction on the two lists. -/
theorem canonicalMemoriesAreDetermined : Obligations.CanonicalMemoriesAreDetermined :=
  fun _ _ _ h h' hread => wfFrom_ext h h' hread

/-! ### The running engine's micro-step -/

/-- The running engine steps as `f` says, and stays where `f` says nothing. -/
theorem act_running {s : State} {e : Engine} {q : Seq} (hr : s.running e q) (f : Engine → Seq → Option State) :
    s.act f = .next ((f e q).getD s) := by
  obtain ⟨hc, hq, hg, hf⟩ := hr
  exact act_eq hc hq (mayStep_iff.mpr ⟨hg, hf⟩) f

/-! ### SYNC.DEC (O43) -/

/-- Subtracting 1 adds 2^32 − 1 (R10). -/
theorem sub_one_eq_ofNat (x : Word) : x - 1 = BitVec.ofNat 32 (x.toNat + (2 ^ 32 - 1)) := by
  bv_omega

/-- Settles O43: the operation's two branches. -/
theorem syncDecDecrementsOnce : Obligations.SyncDecDecrementsOnce := by
  refine ⟨by decide, fun s e q hr => ⟨fun hav => ?_, fun hav => ?_⟩⟩
  · refine (act_running hr _).trans ?_
    rw [State.decActive, hav, ← sub_one_eq_ofNat]
    rfl
  · refine (act_running hr _).trans ?_
    rw [State.decActive, hav]
    rfl

/-- Every lane changed and the engine moved on, as one update. -/
theorem mapLanes_moveTo (e : Engine) (f : LaneNo → Lane → Lane) (q : Seq) (p : Pos) :
    (e.mapLanes f).moveTo q p =
      { e with lanes := Vector.ofFn fun l => f l (e.lane l), seq := some { q with pos := p } } := by
  rw [Engine.mapLanes, Engine.moveTo]

/-- Every lane changed and the command complete, as one update. -/
theorem mapLanes_complete (e : Engine) (f : LaneNo → Lane → Lane) :
    (e.mapLanes f).complete = { e with lanes := Vector.ofFn fun l => f l (e.lane l), seq := none } := by
  rw [Engine.mapLanes, Engine.complete]

theorem updLane_moveTo (e : Engine) (q : Seq) (p : Pos) (l : LaneNo) (f : Lane → Lane) :
    (e.moveTo q p).updLane l f = (e.updLane l f).moveTo q p := rfl

theorem moveTo_moveTo (e : Engine) (q : Seq) (p p' : Pos) :
    (e.moveTo q p).moveTo { q with pos := p } p' = e.moveTo q p' := rfl

/-- The position is discarded when the command completes. -/
theorem mapLanes_of_moveTo_complete (e : Engine) (q : Seq) (p : Pos) (f : LaneNo → Lane → Lane) :
    ((e.moveTo q p).mapLanes f).complete = (e.mapLanes f).complete := by
  rw [mapLanes_complete, mapLanes_complete]
  rfl

/-! ### WLOAD.V's micro-steps (O22) -/

section
variable {s : State} {e : Engine} {q : Seq}

theorem exec_wloadV_start (b : BitVec 16) (hr : s.running e q) (hpos : q.pos = .start) :
    exec (.wloadV b) s =
      .next (s.putCur ((e.mapLanes fun _ => Lane.clearWev).moveTo q (.gather 0 allLanes))) := by
  refine (act_running hr _).trans ?_
  rw [hpos]
  rfl

/-- One element of a gather step: the drawn lane reads its word (R69). -/
theorem exec_wloadV_gather {b : BitVec 16} {j : Fin 16} {todo : List LaneNo} {l : LaneNo} (hr : s.running e q)
    (hpos : q.pos = .gather j todo) (hl : pickLane todo s.turn.draw = some l)
    (ha : s.admits ((e.lane l).blkaddr b.toNat j) = true) :
    exec (.wloadV b) s =
      .next (s.putCur ((e.updLane l (·.loadWord j (s.wordAt ((e.lane l).blkaddr b.toNat j)))).moveTo q
        (gatherNext j (todo.erase l)))) := by
  refine (act_running hr _).trans ?_
  simp only [hpos, hl, loadWord_of_admits ha, Option.bind_some, Option.map_some, Option.getD_some]

theorem exec_wloadV_mark (b : BitVec 16) (hr : s.running e q) (hpos : q.pos = .mark) :
    exec (.wloadV b) s = .next (s.putCur (e.mapLanes fun _ => Lane.markLoaded).complete) := by
  refine (act_running hr _).trans ?_
  rw [hpos]
  rfl
end

/-- Settles O22: the three forms of the micro-step. -/
theorem wloadVMakesItsMicroSteps : Obligations.WloadVMakesItsMicroSteps := by
  refine fun s e q b hr => ⟨fun hpos => ?_, fun j todo l hpos hl ha => ?_, fun hpos => ?_⟩
  · rw [exec_wloadV_start b hr hpos, mapLanes_moveTo]
    rfl
  · refine (exec_wloadV_gather hr hpos hl ha).trans ?_
    rw [gatherNext, nextIndex_map_getD]
    rfl
  · rw [exec_wloadV_mark b hr hpos, mapLanes_complete]
    rfl

/-! ### HSTORE.V's micro-steps (O30) -/

/-- A store on HALT_ADDR, by the two bits of the draw (R57). -/
theorem storeWord_haltAddr {s : State} (v : Word) (d : Draw) (ha : s.admits s.cfg.haltAddr = true)
    (hg : s.ghalt = false) :
    s.storeWord s.cfg.haltAddr v d =
      some { (if d.portStores then s.setWord s.cfg.haltAddr v else s) with ghalt := d.portHalts } := by
  rw [State.storeWord, if_pos ha, if_pos rfl, State.portWrite]
  cases s
  obtain rfl : _ = false := hg
  cases d.portStores <;> cases d.portHalts <;> rfl

section
variable {s t : State} {e : Engine} {q : Seq}

theorem exec_hstoreV_start (hr : s.running e q) (hpos : q.pos = .start) (hv : ∀ l, (e.lane l).hv = true) :
    exec .hstoreV s = .next (s.putCur (e.moveTo q (.scatter 0 allLanes))) := by
  have hcheck : e.firstFailing Lane.storeCheck = none :=
    (firstFailing_none_iff e _).mpr fun l => (storeCheck_none_iff _).mpr (hv l)
  refine (act_running hr _).trans ?_
  simp only [hpos, hcheck, checked_none, Option.getD_some]

/-- One element of a scatter step: the drawn lane writes its digest word (R69). -/
theorem exec_hstoreV_scatter {j : Fin 8} {todo : List LaneNo} {l : LaneNo} (hr : s.running e q)
    (hpos : q.pos = .scatter j todo) (hl : pickLane todo s.turn.draw = some l)
    (ht : s.storeWord ((e.lane l).digaddr j) (e.lane l).h[j] s.turn.draw = some t) :
    exec .hstoreV s = .next (t.putCur (e.moveTo q (scatterNext j (todo.erase l)))) := by
  refine (act_running hr _).trans ?_
  simp only [hpos, hl, ht, Option.bind_some, Option.map_some, Option.getD_some]

theorem exec_hstoreV_finish (hr : s.running e q) (hpos : q.pos = .finish) :
    exec .hstoreV s = .next (s.putCur e.complete) := by
  refine (act_running hr _).trans ?_
  rw [hpos]
  rfl
end

/-- Settles O30: the forms of the micro-step; a store away from HALT_ADDR stores, one on it is the draw's. -/
theorem hstoreVMakesItsMicroSteps : Obligations.HstoreVMakesItsMicroSteps := by
  refine fun s e q hr => ⟨exec_hstoreV_start hr, fun j todo l hpos hl ha hne => ?_,
    fun j todo l hpos hl ha heq => ?_, exec_hstoreV_finish hr⟩
  · refine (exec_hstoreV_scatter hr hpos hl (storeWord_of_admits _ _ ha hne)).trans ?_
    rw [scatterNext, nextIndex_map_getD]
    rfl
  · have hstore := storeWord_haltAddr (e.lane l).h[j] s.turn.draw ha hr.2.2.1
    rw [← heq] at hstore
    refine (exec_hstoreV_scatter hr hpos hl hstore).trans ?_
    rw [scatterNext, nextIndex_map_getD, heq]
    rfl

/-! ### PROCESS.VECTOR's micro-steps (O33) -/

/-- One element of a gather step: the drawn lane reads its word (R69). -/
theorem vecMicro_gather {s : State} {e : Engine} (n : Nat) {b : Nat} {j : Fin 16} {todo : List LaneNo} {l : LaneNo}
    (hl : pickLane todo s.turn.draw = some l) (ha : s.admits ((e.lane l).blkaddr b j) = true) :
    s.vecMicro e n (.gather b j todo) =
      some ⟨s, e.updLane l (·.loadWord j (s.wordAt ((e.lane l).blkaddr b j))), .gatherNext b j (todo.erase l)⟩ := by
  rw [State.vecMicro, hl, Option.bind_some, loadWord_of_admits ha, Option.map_some]

/-- One element of a scatter step: the drawn lane writes its digest word (R69). -/
theorem vecMicro_scatter {s t : State} {e : Engine} (n : Nat) {j : Fin 8} {todo : List LaneNo} {l : LaneNo}
    (hl : pickLane todo s.turn.draw = some l)
    (ht : s.storeWord ((e.lane l).digaddr j) (e.lane l).h[j] s.turn.draw = some t) :
    s.vecMicro e n (.scatter j todo) = some ⟨t, e, .scatterNext j (todo.erase l)⟩ := by
  rw [State.vecMicro, hl, Option.bind_some, ht, Option.map_some]

/-- PROCESS.VECTOR's micro-step is the vector sequence's (R123). -/
theorem exec_processVector_at {s : State} {e : Engine} {q : Seq} {p : VecPos} {m : Micro VecPos} (n : BitVec 16)
    (hr : s.running e q) (hpos : q.pos.bodyPos .vector = some (.vector p)) (hm : s.vecMicro e n.toNat p = some m) :
    exec (.processVector n) s =
      .next (m.state.putCur (m.engine.moveTo q (.body (.afterVector m.pos)))) := by
  refine (act_running hr _).trans ?_
  rw [processStep_eq_bodyMicro hpos nofun, State.bodyMicro, hm]
  rfl

theorem afterVector_afterBlocks (n b : Nat) :
    BodyPos.afterVector (.afterBlocks n b) = .vector (.afterBlocks n b) := by
  refine if_neg ?_
  unfold VecPos.afterBlocks
  split <;> nofun

/-- The position after an element of a gather step. -/
theorem afterVector_gatherNext (b : Nat) (j : Fin 16) (todo : List LaneNo) :
    BodyPos.afterVector (.gatherNext b j todo) =
      .vector (if todo = [] then
        if h : j.val + 1 < 16 then .gather b ⟨j.val + 1, h⟩ allLanes else .mark b
      else .gather b j todo) := by
  rw [VecPos.gatherNext, nextIndex_map_getD]
  refine if_neg ?_
  split_ifs <;> nofun

/-- The position after an element of a scatter step. -/
theorem afterVector_scatterNext (j : Fin 8) (todo : List LaneNo) :
    BodyPos.afterVector (.scatterNext j todo) =
      if todo = [] then
        if h : j.val + 1 < 8 then .vector (.scatter ⟨j.val + 1, h⟩ allLanes) else .finished
      else .vector (.scatter j todo) := by
  rw [VecPos.scatterNext, nextIndex_map_getD]
  split_ifs <;> rfl

/-- Settles O33: at each position the vector sequence's micro-step, and once the body has finished the completion. -/
theorem processVectorRunsOnePass : Obligations.ProcessVectorRunsOnePass := by
  intro s e q n hr run goes after
  have at_body {p : VecPos} (hpos : q.pos = .body (.vector p)) : q.pos.bodyPos .vector = some (.vector p) :=
    congrArg (Pos.bodyPos .vector) hpos
  have every_lane {p p' : VecPos} {f : Lane → Lane} (hpos : q.pos.bodyPos .vector = some (.vector p))
      (hm : s.vecMicro e n.toNat p = some ⟨s, e.mapLanes fun _ => f, p'⟩)
      (hnext : BodyPos.afterVector p' = .vector p') : run = goes f p' := by
    refine (exec_processVector_at n hr hpos hm).trans ?_
    rw [hnext, mapLanes_moveTo]
  refine ⟨fun hpos => every_lane (p := .init) (f := Lane.hinit) ?_ rfl (afterVector_afterBlocks _ _),
    fun b hpos => every_lane (f := Lane.clearWev) (at_body hpos) rfl rfl,
    fun b j todo l hpos hl ha => ?_,
    fun b hpos => every_lane (f := Lane.markLoaded) (at_body hpos) rfl rfl,
    fun b hpos => every_lane (f := Lane.expandSchedule s.cfg.schedVariant) (at_body hpos) rfl rfl,
    fun b hpos => every_lane (f := Lane.compressBlock) (at_body hpos) rfl (afterVector_afterBlocks _ _),
    fun j todo l hpos hl ha hne => ?_, fun hpos => ?_⟩
  · rcases hpos with hpos | hpos <;> rw [hpos] <;> rfl
  · refine (exec_processVector_at n hr (at_body hpos) (vecMicro_gather n.toNat hl ha)).trans ?_
    rw [afterVector_gatherNext]
    rfl
  · have hstore := storeWord_of_admits (e.lane l).h[j] s.turn.draw ha hne
    refine (exec_processVector_at n hr (at_body hpos) (vecMicro_scatter n.toNat hl hstore)).trans ?_
    rw [afterVector_scatterNext]
    rfl
  · refine (act_running hr _).trans ?_
    rw [State.processStep, hpos]
    rfl

/-! ### WLOAD.V as a whole (O23) -/

theorem controlKept_trans {e e' e'' : Engine} (h : e.controlKept e') (h' : e'.controlKept e'') : e.controlKept e'' := by
  obtain ⟨hcmd, hfault, hwaiting, hidle⟩ := h
  obtain ⟨hcmd', hfault', hwaiting', hidle'⟩ := h'
  exact ⟨hcmd'.trans hcmd, hfault'.trans hfault, hwaiting'.trans hwaiting, hidle'.trans hidle⟩

theorem controlKept_complete {e e' : Engine} (h : e.controlKept e') : e.controlKept e'.complete := h

/-- The state with the current engine's next draw decided. -/
def withDraw (s : State) (d : Draw) : State := { s with turn := { s.turn with draw := d } }

/-- A run of one engine alone begins with its first micro-step. -/
theorem turns_cons {i : Instr} {s t : State} {d : Draw} (h : exec i (withDraw s d) = .next t) (ds : List Draw) :
    turns i (d :: ds) s = turns i ds t := by
  rw [withDraw] at h
  rw [turns, h]

/-- An engine put in the place of a running one runs too. -/
theorem running_withDraw_putCur {s : State} {e k : Engine} {q p : Seq} (hr : s.running e q) (d : Draw)
    (hseq : k.seq = some p) (hfault : k.fault = none) : ((withDraw s d).putCur k).running k p := by
  obtain ⟨hc, -, hg, -⟩ := hr
  exact ⟨cur_putCur (s := withDraw s d) hc k, hseq, hg, hfault⟩

theorem mapLanes_congr (e : Engine) {f g : LaneNo → Lane → Lane} (h : ∀ l, f l (e.lane l) = g l (e.lane l)) :
    e.mapLanes f = e.mapLanes g := by
  rw [Engine.mapLanes, funext h, Engine.mapLanes]

/-- One more change of one lane, after a change of every lane. -/
theorem updLane_mapLanes (e : Engine) (f : LaneNo → Lane → Lane) (l : LaneNo) (g : Lane → Lane) :
    (e.mapLanes f).updLane l g = e.mapLanes fun k x => if k = l then g (f k x) else f k x := by
  have hlanes : (e.mapLanes f).lanes.set l (g ((e.mapLanes f).lane l)) =
      (e.mapLanes fun k x => if k = l then g (f k x) else f k x).lanes := by
    refine lanes_ext (e' := (e.mapLanes f).updLane l g) fun k => ?_
    by_cases hk : k = l
    · rw [hk, lane_updLane_same, lane_mapLanes, lane_mapLanes, if_pos rfl]
    · rw [lane_updLane_other _ _ hk, lane_mapLanes, lane_mapLanes, if_neg hk]
  rw [Engine.updLane, hlanes]
  simp only [Engine.mapLanes]

/-- A lane in a WLOAD of block `b`, once its first `n` words are those in the memory of `s` (R106). -/
def partlyLoaded (s : State) (b n : Nat) (x : Lane) : Lane :=
  { x with w := Vector.ofFn fun i => if i.val < n then s.wordAt (x.blkaddr b i) else x.w[i], wev := false }

theorem partlyLoaded_zero (s : State) (b : Nat) (x : Lane) : partlyLoaded s b 0 x = x.clearWev := by
  simp only [partlyLoaded, Lane.clearWev, Lane.mk.injEq, and_true, true_and]
  exact Vector.ext fun i hi => by simp

theorem blkaddr_partlyLoaded (s : State) (b n : Nat) (x : Lane) (c j : Nat) :
    (partlyLoaded s b n x).blkaddr c j = x.blkaddr c j := by
  simp only [Lane.blkaddr, partlyLoaded]

theorem loadWord_partlyLoaded (s : State) (b : Nat) (x : Lane) (j : Fin 16) :
    (partlyLoaded s b j x).loadWord j (s.wordAt (x.blkaddr b j)) = partlyLoaded s b (j + 1) x := by
  simp only [partlyLoaded, Lane.loadWord, Lane.mk.injEq, and_true, true_and]
  refine Vector.ext fun i hi => ?_
  by_cases hij : j.val = i
  · simp [hij]
  · have hlt : i < j.val + 1 ↔ i < j.val := by omega
    simp only [Vector.getElem_set, Vector.getElem_ofFn, if_neg hij, hlt]

/-- How many words a lane has read in gather step `j`: word `j` too, once it waits no longer. -/
def wordsRead (j : Nat) (todo : List LaneNo) (l : LaneNo) : Nat := if l ∈ todo then j else j + 1

/-- An engine in a WLOAD.V of block `b`, once lane `l` has read its first `n l` words. -/
def gathered (s : State) (e : Engine) (b : Nat) (n : LaneNo → Nat) : Engine :=
  e.mapLanes fun l => partlyLoaded s b (n l)

theorem wordsRead_allLanes (j : Nat) : wordsRead j allLanes = fun _ => j :=
  funext fun l => if_pos (List.mem_finRange l)

theorem wordsRead_nil (j : Nat) : wordsRead j [] = fun _ => j + 1 :=
  funext fun _ => if_neg List.not_mem_nil

/-- The read of one waiting lane. -/
theorem gathered_erase (s : State) (e : Engine) (b : Nat) (j : Fin 16) {todo : List LaneNo} {l : LaneNo}
    (hl : l ∈ todo) (hnd : todo.Nodup) :
    (gathered s e b (wordsRead j todo)).updLane l (·.loadWord j (s.wordAt ((e.lane l).blkaddr b j))) =
      gathered s e b (wordsRead j (todo.erase l)) := by
  rw [gathered, updLane_mapLanes]
  refine mapLanes_congr e fun k => ?_
  by_cases hk : k = l
  · subst hk
    simp [wordsRead, hl, hnd.not_mem_erase, loadWord_partlyLoaded]
  · simp [wordsRead, hk, List.mem_erase_of_ne hk]

theorem gathered_lane (s : State) (e : Engine) (b : Nat) (n : LaneNo → Nat) (l : LaneNo) :
    (gathered s e b n).lane l = partlyLoaded s b (n l) (e.lane l) := lane_mapLanes e _ l

theorem gathered_fault (s : State) (e : Engine) (b : Nat) (n : LaneNo → Nat) : (gathered s e b n).fault = e.fault :=
  mapLanes_fault e _

theorem pickLane_mem {todo : List LaneNo} {d : Draw} {l : LaneNo} (h : pickLane todo d = some l) : l ∈ todo :=
  List.mem_of_getElem? h

/-- Where a lane waits, every draw picks one. -/
theorem pickLane_some {todo : List LaneNo} (h : todo ≠ []) (d : Draw) : ∃ l, pickLane todo d = some l :=
  ⟨_, List.getElem?_eq_getElem (Nat.mod_lt _ (List.length_pos_iff.mpr h))⟩

section
variable {s : State} {e : Engine} {q : Seq} {b : BitVec 16}

/-- The state in a WLOAD.V whose last draw was `d`. -/
def inWloadV (s : State) (e : Engine) (q : Seq) (b : BitVec 16) (d : Draw) (n : LaneNo → Nat) (p : Pos) : State :=
  (withDraw s d).putCur ((gathered s e b.toNat n).moveTo q p)

theorem wordAt_inWloadV (b : BitVec 16) (d d' : Draw) (n : LaneNo → Nat) (p : Pos) (a : Addr) :
    (withDraw (inWloadV s e q b d n p) d').wordAt a = s.wordAt a := rfl

theorem running_inWloadV (hr : s.running e q) (b : BitVec 16) (d d' : Draw) (n : LaneNo → Nat) (p : Pos) :
    (withDraw (inWloadV s e q b d n p) d').running ((gathered s e b.toNat n).moveTo q p) { q with pos := p } := by
  refine running_withDraw_putCur hr d' (moveTo_seq _ q p) ?_
  rw [moveTo_fault, gathered_fault, hr.2.2.2]

/-- The micro-step of a gather step: one lane fewer waits. -/
theorem exec_inWloadV_gather (hr : s.running e q) {j : Fin 16} {todo : List LaneNo} {l : LaneNo} (d d' : Draw)
    (ha : s.admits ((e.lane l).blkaddr b.toNat j) = true) (hnd : todo.Nodup) (hl : pickLane todo d' = some l) :
    exec (.wloadV b) (withDraw (inWloadV s e q b d (wordsRead j todo) (.gather j todo)) d') =
      .next (inWloadV s e q b d' (wordsRead j (todo.erase l)) (gatherNext j (todo.erase l))) := by
  have haddr : (((gathered s e b.toNat (wordsRead j todo)).moveTo q (.gather j todo)).lane l).blkaddr b.toNat j =
      (e.lane l).blkaddr b.toNat j := by
    rw [lane_moveTo, gathered_lane, blkaddr_partlyLoaded]
  have hexec := exec_wloadV_gather (running_inWloadV hr b d d' (wordsRead j todo) (.gather j todo)) rfl hl (b := b)
    (by rw [haddr]; exact ha)
  rw [haddr, updLane_moveTo, moveTo_moveTo, wordAt_inWloadV,
    gathered_erase s e b.toNat j (pickLane_mem hl) hnd] at hexec
  exact hexec.trans (congrArg _ (putCur_putCur (withDraw s d') _ _))

/-- The last micro-step: every lane has read its 16 words. -/
theorem exec_inWloadV_mark (hr : s.running e q) (b : BitVec 16) (d d' : Draw) (n : LaneNo → Nat) :
    exec (.wloadV b) (withDraw (inWloadV s e q b d n .mark) d') =
      .next ((withDraw s d').putCur ((gathered s e b.toNat n).mapLanes fun _ => Lane.markLoaded).complete) := by
  rw [exec_wloadV_mark b (running_inWloadV hr b d d' n .mark) rfl, mapLanes_of_moveTo_complete]
  exact congrArg _ (putCur_putCur (withDraw s d') _ _)

/-- The first micro-step: no lane has read a word. -/
theorem exec_wloadV_first (hr : s.running e q) (hpos : q.pos = .start) (b : BitVec 16) (d : Draw) :
    exec (.wloadV b) (withDraw s d) = .next (inWloadV s e q b d (wordsRead 0 allLanes) (.gather 0 allLanes)) := by
  have hrun : (withDraw s d).running e q := hr
  rw [exec_wloadV_start b hrun hpos, inWloadV, wordsRead_allLanes, gathered,
    mapLanes_congr e fun l => partlyLoaded_zero s b.toNat (e.lane l)]

/-- The rest of a WLOAD.V from a gather step: a micro-step for every word still to be read, and the last one. -/
theorem turns_inWloadV (hr : s.running e q)
    (ha : ∀ (l : LaneNo) (j : Fin 16), s.admits ((e.lane l).blkaddr b.toNat j) = true) (ds : List Draw) (d : Draw)
    (j : Fin 16) {todo : List LaneNo} (hne : todo ≠ []) (hnd : todo.Nodup)
    (hlen : ds.length = 16 * (15 - j.val) + todo.length + 1) :
    ∃ d', turns (.wloadV b) ds (inWloadV s e q b d (wordsRead j todo) (.gather j todo)) =
      .next ((withDraw s d').putCur
        ((gathered s e b.toNat fun _ => 16).mapLanes fun _ => Lane.markLoaded).complete) := by
  induction ds generalizing d j todo with
  | nil => simp at hlen
  | cons d' ds ih =>
    obtain ⟨l, hl⟩ := pickLane_some hne d'
    rw [turns_cons (exec_inWloadV_gather hr d d' (ha l j) hnd hl)]
    have herase := List.length_erase_of_mem (pickLane_mem hl)
    have hpos := List.length_pos_iff.mpr hne
    rw [List.length_cons] at hlen
    by_cases hwait : todo.erase l = []
    · rw [hwait, List.length_nil] at herase
      rw [hwait, gatherNext, if_pos rfl, nextIndex_map_getD, wordsRead_nil]
      by_cases hj : j.val + 1 < 16
      · rw [dif_pos hj, ← wordsRead_allLanes]
        have hall : allLanes.length = 16 := List.length_finRange
        exact ih d' ⟨j.val + 1, hj⟩ (by decide) (List.nodup_finRange 16) (by simp only [hall]; omega)
      · obtain ⟨d'', rfl⟩ := List.length_eq_one_iff.mp (show ds.length = 1 by omega)
        have hlast : j.val + 1 = 16 := by omega
        rw [dif_neg hj, hlast, turns_cons (exec_inWloadV_mark hr b d' d'' _)]
        exact ⟨d'', rfl⟩
    · rw [gatherNext, if_neg hwait]
      exact ih d' j hwait (hnd.erase l) (by omega)
end

/-- What a whole WLOAD leaves in a lane (R106). -/
theorem markLoaded_partlyLoaded (s : State) (b : Nat) (x : Lane) :
    (∀ i : Fin 64, (partlyLoaded s b 16 x).markLoaded.w[i] =
        if i.val < 16 then s.wordAt (x.blkaddr b i.val) else x.w[i]) ∧
      (partlyLoaded s b 16 x).markLoaded.wlv = true ∧ (partlyLoaded s b 16 x).markLoaded.wev = false ∧
      (partlyLoaded s b 16 x).markLoaded.h = x.h ∧ (partlyLoaded s b 16 x).markLoaded.v = x.v := by
  simp [partlyLoaded]

/-- Settles O23: after the first micro-step, 256 reads and the last micro-step each lane holds its block. -/
theorem wloadVLoadsEveryLane : Obligations.WloadVLoadsEveryLane := by
  intro s e q b ds hr hpos ha hlen
  obtain ⟨d, ds, rfl⟩ := List.exists_cons_of_length_eq_add_one hlen
  obtain ⟨d', hturns⟩ := turns_inWloadV hr ha ds d 0 (todo := allLanes) (by decide) (List.nodup_finRange 16)
    (Nat.succ.inj hlen)
  refine ⟨_, _, (turns_cons (exec_wloadV_first hr hpos b d) ds).trans hturns, cur_putCur (s := withDraw s d') hr.1 _,
    rfl, rfl, othersKept_putCur (withDraw s d') _, controlKept_complete ?_, fun l => ?_⟩
  · exact controlKept_trans (controlKept_mapLanes e _) (controlKept_mapLanes _ _)
  · rw [lane_complete, lane_mapLanes, gathered_lane]
    exact markLoaded_partlyLoaded s b.toNat (e.lane l)

/-! ### Accesses memory does not admit (O47) -/

/-- Memory admits a word access at an aligned address whose four bytes the platform provides (R54, R55). -/
theorem admits_iff {s : State} {a : Addr} :
    s.admits a = true ↔ a.toNat % 4 = 0 ∧ ∀ k < 4, s.provides (a.toNat + k) = true := by
  simp only [State.admits, Bool.and_eq_true, decide_eq_true_eq]
  refine ⟨fun ⟨⟨⟨⟨hal, h0⟩, h1⟩, h2⟩, h3⟩ => ⟨hal, fun k hk => ?_⟩, fun ⟨hal, h⟩ => ?_⟩
  · interval_cases k <;> assumption
  · exact ⟨⟨⟨⟨hal, h 0 (by decide)⟩, h 1 (by decide)⟩, h 2 (by decide)⟩, h 3 (by decide)⟩

theorem provides_eq_true_iff {s : State} {a : Nat} :
    s.provides a = true ↔ ∃ r ∈ s.cfg.regions, r.base ≤ a ∧ a < r.base + r.size := by
  simp [State.provides]

theorem loadWord_of_not_admits {s : State} {a : Addr} (ha : s.admits a = false) : s.loadWord a = none := by
  simp [State.loadWord, ha]

theorem storeWord_of_not_admits {s : State} {a : Addr} (v : Word) (d : Draw) (ha : s.admits a = false) :
    s.storeWord a v d = none := by
  simp [State.storeWord, ha]

theorem haltAll_of_not_admits {s : State} (ha : s.admits s.cfg.haltAddr = false) : s.haltAll = none := by
  simp [State.haltAll, ha]

/-- The running engine has no step where `f` says nothing (R55). -/
theorem act_stuck {s : State} {e : Engine} {q : Seq} {f : Engine → Seq → Option State} (hr : s.running e q)
    (hf : f e q = none) : s.act f = .next s := by
  rw [act_running hr, hf, Option.getD_none]

/-- The address a lane's next micro-step of LaneSeq reads or writes, where it does either (R121). -/
def laneAccess (x : Lane) : LanePos → Option Addr
  | .load b j => some (x.blkaddr b j)
  | .store j => some (x.digaddr j)
  | _ => none

/-- The same of the vector sequence, by the drawn lane (R123). -/
def vecAccess (e : Engine) (d : Draw) : VecPos → Option Addr
  | .gather b j todo => (pickLane todo d).map fun l => (e.lane l).blkaddr b j
  | .scatter j todo => (pickLane todo d).map fun l => (e.lane l).digaddr j
  | _ => none

/-- The same of a body (R122 to R124). -/
def bodyAccess (e : Engine) (d : Draw) : BodyPos → Option Addr
  | .scalar l p => laneAccess (e.lane l) p
  | .vector p => vecAccess e d p
  | .spmd ps => laneAccess (e.lane d.lane) ps[d.lane]
  | .finished => none

/-- A body's store is an access. -/
theorem bodyAccess_of_storeAddr {e : Engine} {d : Draw} {b : BodyPos} {a : Addr} (h : b.storeAddr e d = some a) :
    bodyAccess e d b = some a := by
  unfold BodyPos.storeAddr at h
  split at h
  case h_3 ps =>
    split at h
    case h_1 hp => rwa [bodyAccess, hp]
    case h_2 => cases h
  case h_4 => cases h
  all_goals exact h

section
variable {s : State} {e : Engine} {a : Addr}

theorem laneMicro_stuck {p : LanePos} (n : Nat) {l : LaneNo} (h : laneAccess (e.lane l) p = some a)
    (ha : s.admits a = false) : s.laneMicro e n l p = none := by
  unfold laneAccess at h
  split at h
  case h_1 => cases h; rw [State.laneMicro, loadWord_of_not_admits ha, Option.map_none]
  case h_2 => cases h; rw [State.laneMicro, storeWord_of_not_admits _ _ ha, Option.map_none]
  case h_3 => cases h

theorem vecMicro_stuck {p : VecPos} (n : Nat) (h : vecAccess e s.turn.draw p = some a) (ha : s.admits a = false) :
    s.vecMicro e n p = none := by
  unfold vecAccess at h
  split at h
  case h_1 =>
    obtain ⟨l, hl, rfl⟩ := Option.map_eq_some_iff.mp h
    rw [State.vecMicro, hl, Option.bind_some, loadWord_of_not_admits ha, Option.map_none]
  case h_2 =>
    obtain ⟨l, hl, rfl⟩ := Option.map_eq_some_iff.mp h
    rw [State.vecMicro, hl, Option.bind_some, storeWord_of_not_admits _ _ ha, Option.map_none]
  case h_3 => cases h

/-- A body has no step at an access memory does not admit. -/
theorem bodyMicro_stuck {b : BodyPos} (n : Nat) (h : bodyAccess e s.turn.draw b = some a) (ha : s.admits a = false) :
    s.bodyMicro e n b = none := by
  cases b with
  | scalar l p => rw [State.bodyMicro, laneMicro_stuck n h ha, Option.map_none]
  | vector p => rw [State.bodyMicro, vecMicro_stuck n h ha, Option.map_none]
  | spmd ps =>
    have hnot : allDone ps ≠ true := by
      intro hall
      rw [bodyAccess, (allDone_iff ps).mp hall s.turn.draw.lane] at h
      cases h
    rw [State.bodyMicro, if_neg hnot]
    exact Option.map_eq_none_iff.mpr (laneMicro_stuck n h ha)
  | finished => rfl

variable {q : Seq} (hr : s.running e q)
include hr

/-- PROCESS has none there. -/
theorem exec_processInstr_stuck (st : Strategy) (n : BitVec 16) {b : BodyPos} (hpos : q.pos = .body b)
    (h : bodyAccess e s.turn.draw b = some a) (ha : s.admits a = false) : exec (processInstr st n) s = .next s := by
  have hb : b ≠ .finished := by rintro rfl; cases h
  rw [exec_processInstr]
  refine act_stuck hr ?_
  rw [processStep_eq_bodyMicro (congrArg (Pos.bodyPos st) hpos) hb, bodyMicro_stuck n.toNat h ha, Option.map_none]

/-- Nor has RUN in a pass. -/
theorem exec_runInstr_stuck (st : Strategy) {it : Fin 4} {p : Pass} {b : BodyPos} (hpos : q.pos = .pass it p b)
    (h : bodyAccess e s.turn.draw b = some a) (ha : s.admits a = false) : exec (runInstr st) s = .next s := by
  have hb : b ≠ .finished := by rintro rfl; cases h
  rw [exec_runInstr]
  refine act_stuck hr ?_
  simp only [State.runStep, hpos, Pos.runPos, if_neg hb, bodyMicro_stuck _ h ha, Option.map_none]

/-- HSTORE.L has no step at a store that is not admitted; at a position that is none of its own it has none anyway. -/
theorem exec_hstoreL_stuck {l : LaneNo} (h : q.pos.storeAddr s.cfg e s.turn.draw (.hstoreL l) = some a)
    (ha : s.admits a = false) : exec (.hstoreL l) s = .next s := by
  refine act_stuck hr ?_
  split
  case h_1 hpos => rw [hpos] at h; cases h
  case h_2 hpos =>
    rw [hpos] at h
    cases h
    rw [storeWord_of_not_admits _ _ ha, Option.map_none]
  case h_3 hpos => rw [hpos] at h; cases h
  case h_4 => rfl

/-- The same of HSTORE.V. -/
theorem exec_hstoreV_stuck (h : q.pos.storeAddr s.cfg e s.turn.draw .hstoreV = some a) (ha : s.admits a = false) :
    exec .hstoreV s = .next s := by
  refine act_stuck hr ?_
  split
  case h_1 hpos => rw [hpos] at h; cases h
  case h_2 hpos =>
    rw [hpos] at h
    obtain ⟨l, hl, rfl⟩ := Option.map_eq_some_iff.mp h
    rw [hl, Option.bind_some, storeWord_of_not_admits _ _ ha, Option.map_none]
  case h_3 hpos => rw [hpos] at h; cases h
  case h_4 => rfl

/-- The same of PROCESS, which stores in its body alone. -/
theorem exec_processInstr_store_stuck (st : Strategy) (n : BitVec 16)
    (h : q.pos.storeAddr s.cfg e s.turn.draw (processInstr st n) = some a) (ha : s.admits a = false) :
    exec (processInstr st n) s = .next s := by
  cases hb : q.pos.bodyPos st with
  | none =>
    rw [exec_processInstr]
    exact act_stuck hr (by rw [State.processStep, hb, Option.bind_none])
  | some b =>
    rcases bodyPos_some hb with ⟨hpos, -⟩ | hpos <;> rw [hpos] at h
    · cases st <;> cases h
    · refine exec_processInstr_stuck hr st n hpos (bodyAccess_of_storeAddr ?_) ha
      cases st <;> exact h

/-- The same of RUN, which stores in its passes and in its HALT. -/
theorem exec_runInstr_store_stuck (st : Strategy)
    (h : q.pos.storeAddr s.cfg e s.turn.draw (runInstr st) = some a) (ha : s.admits a = false) :
    exec (runInstr st) s = .next s := by
  cases hpos : q.pos with
  | body b =>
    rw [exec_runInstr]
    exact act_stuck hr (by rw [State.runStep, hpos]; rfl)
  | pass it p b =>
    rw [hpos] at h
    refine exec_runInstr_stuck hr st hpos (bodyAccess_of_storeAddr ?_) ha
    cases st <;> exact h
  | halting =>
    rw [hpos] at h
    obtain rfl : s.cfg.haltAddr = a := by cases st <;> exact Option.some.inj h
    rw [exec_runInstr]
    exact act_stuck hr (by rw [State.runStep, hpos]; exact haltAll_of_not_admits ha)
  | _ => rw [hpos] at h; cases st <;> cases h
end

/-- Settles O47: the access gives nothing, and so does the micro-step that begins with it. -/
theorem unadmittedAccessesHaveNoStep : Obligations.UnadmittedAccessesHaveNoStep := by
  refine fun s e q hr => ⟨fun l b j hpos ha => ?_, fun l b j todo hpos hl ha => ?_, fun i a hstore ha hi => ?_,
    fun n l b j hpos ha => ?_, fun n b j ps hpos hp ha => ?_, fun n b j todo l hpos hl ha => ?_,
    fun st it p l b j hpos ha => ?_, fun st it p b j todo l hpos hl ha => ?_,
    fun st it p b j ps hpos hp ha => ?_, fun a h => ?_⟩
  · refine act_stuck hr ?_
    simp only [hpos, loadWord_of_not_admits ha, Option.map_none]
  · refine act_stuck hr ?_
    simp only [hpos, hl, loadWord_of_not_admits ha, Option.bind_some, Option.map_none]
  · rcases hi with rfl | rfl | ⟨l, rfl⟩ | ⟨st, n, rfl⟩ | ⟨st, rfl⟩
    · exact exec_hstoreV_stuck hr hstore ha
    · obtain rfl : s.cfg.haltAddr = a := by simpa [Pos.storeAddr] using hstore
      exact act_stuck hr (haltAll_of_not_admits ha)
    · exact exec_hstoreL_stuck hr hstore ha
    · exact exec_processInstr_store_stuck hr st n hstore ha
    · exact exec_runInstr_store_stuck hr st hstore ha
  · exact exec_processInstr_stuck hr .scalar n hpos rfl ha
  · exact exec_processInstr_stuck hr .spmd n hpos (by rw [bodyAccess, hp]; rfl) ha
  · exact exec_processInstr_stuck hr .vector n hpos (by rw [bodyAccess, vecAccess, hl]; rfl) ha
  · exact exec_runInstr_stuck hr st hpos rfl ha
  · exact exec_runInstr_stuck hr st hpos (by rw [bodyAccess, vecAccess, hl]; rfl) ha
  · exact exec_runInstr_stuck hr st hpos (by rw [bodyAccess, hp]; rfl) ha
  · rw [← Bool.not_eq_true, admits_iff]
    rintro ⟨hal, hprov⟩
    rcases h with h | ⟨k, hk, h⟩
    · exact h hal
    · obtain ⟨r, hr, hlo, hhi⟩ := provides_eq_true_iff.mp (hprov k hk)
      rcases h r hr with h | h <;> omega

/-! ### The frame of WLOAD (O49) -/

/-- A micro-step leaves an engine whose turn it is. -/
theorem cur_of_exec {i : Instr} {s t : State} {e : Engine} {q : Seq} (hr : s.running e q) (h : exec i s = .next t) :
    ∃ e', t.cur = some e' := by
  rcases exec_leadsTo h with rfl | ⟨_, _, -, u, k, rfl, hu, -⟩
  · exact ⟨e, hr.1⟩
  · exact ⟨k, cur_putCur_of_eq hr.1 (outside_engines hu).1 (by rw [hu.1]) k⟩

/-- Putting the current engine where it is changes nothing. -/
theorem putCur_of_cur {s : State} {e : Engine} (hc : s.cur = some e) : s.putCur e = s := by
  obtain ⟨hlt, rfl⟩ := List.getElem?_eq_some_iff.mp hc
  rw [State.putCur, List.set_getElem_self]

/-- What a WLOAD leaves of one lane (R106). -/
def LoadFrame (x y : Lane) : Prop :=
  y.h = x.h ∧ y.v = x.v ∧ y.hv = x.hv ∧ y.vv = x.vv ∧ y.inPtr = x.inPtr ∧ y.outPtr = x.outPtr ∧
    ∀ m : Fin 64, 16 ≤ m.val → y.w[m] = x.w[m]

theorem loadFrame_refl (x : Lane) : LoadFrame x x := ⟨rfl, rfl, rfl, rfl, rfl, rfl, fun _ _ => rfl⟩

theorem loadFrame_loadWord (x : Lane) (j : Fin 16) (v : Word) : LoadFrame x (x.loadWord j v) := by
  refine ⟨rfl, rfl, rfl, rfl, rfl, rfl, fun m hm => ?_⟩
  have hne : j.val ≠ m.val := by omega
  simp [hne]

/-- What a WLOAD's micro-step leaves of its engine. -/
structure LoadOnly (i : Instr) (e e' : Engine) : Prop where
  control : e.controlKept e'
  others : ∀ l b, i = .wloadL l b → e.lanesKeptBut e' l
  lanes : ∀ k, LoadFrame (e.lane k) (e'.lane k)

section
variable {i : Instr} {e : Engine}

theorem loadOnly_refl (i : Instr) (e : Engine) : LoadOnly i e e :=
  ⟨controlKept_refl e, fun _ _ _ _ _ => rfl, fun _ => loadFrame_refl _⟩

theorem loadOnly_updLane {l : LaneNo} {f : Lane → Lane} (hi : ∀ k b, i = .wloadL k b → k = l)
    (hf : ∀ x, LoadFrame x (f x)) : LoadOnly i e (e.updLane l f) where
  control := controlKept_updLane e l f
  others k b h _ hm := lane_updLane_other e f (hi k b h ▸ hm)
  lanes := forall_lane_updLane (P := fun k x => LoadFrame (e.lane k) x) (fun _ _ => loadFrame_refl _) (hf _)

theorem loadOnly_mapLanes {b : BitVec 16} {f : Lane → Lane} (hf : ∀ x, LoadFrame x (f x)) :
    LoadOnly (.wloadV b) e (e.mapLanes fun _ => f) where
  control := controlKept_mapLanes e _
  others := nofun
  lanes k := by
    rw [lane_mapLanes]
    exact hf _

theorem LoadOnly.moveTo {e' : Engine} (h : LoadOnly i e e') (q : Seq) (p : Pos) : LoadOnly i e (e'.moveTo q p) :=
  ⟨h.control, h.others, h.lanes⟩

theorem LoadOnly.complete {e' : Engine} (h : LoadOnly i e e') : LoadOnly i e e'.complete :=
  ⟨h.control, h.others, h.lanes⟩
end

/-- A WLOAD's micro-step replaces the current engine alone. -/
theorem exec_loadOnly {i : Instr} {s t : State} {e : Engine} {q : Seq} (hr : s.running e q) (h : exec i s = .next t)
    (hi : (∃ l b, i = .wloadL l b) ∨ ∃ b, i = .wloadV b) : ∃ e', t = s.putCur e' ∧ LoadOnly i e e' := by
  have stays (hs : t = s) : ∃ e', t = s.putCur e' ∧ LoadOnly i e e' :=
    ⟨e, hs.trans (putCur_of_cur hr.1).symm, loadOnly_refl i e⟩
  have clear (x : Lane) : LoadFrame x x.clearWev := loadFrame_refl x
  have mark (x : Lane) : LoadFrame x x.markLoaded := loadFrame_refl x
  rcases hi with ⟨l, b, rfl⟩ | ⟨b, rfl⟩
  · have hl : ∀ k c, Instr.wloadL l b = .wloadL k c → k = l := by rintro _ _ ⟨⟩; rfl
    refine (act_next_running hr h).elim stays fun h => ?_
    split at h
    case h_1 => cases h; exact ⟨_, rfl, (loadOnly_updLane hl clear).moveTo _ _⟩
    case h_2 j _ =>
      obtain ⟨v, -, rfl⟩ := Option.map_eq_some_iff.mp h
      exact ⟨_, rfl, (loadOnly_updLane hl fun x => loadFrame_loadWord x j v).moveTo _ _⟩
    case h_3 => cases h; exact ⟨_, rfl, (loadOnly_updLane hl mark).complete⟩
    case h_4 => cases h
  · refine (act_next_running hr h).elim stays fun h => ?_
    split at h
    case h_1 => cases h; exact ⟨_, rfl, (loadOnly_mapLanes clear).moveTo _ _⟩
    case h_2 j _ _ =>
      obtain ⟨l, -, h⟩ := Option.bind_eq_some_iff.mp h
      obtain ⟨v, -, rfl⟩ := Option.map_eq_some_iff.mp h
      exact ⟨_, rfl, (loadOnly_updLane (by rintro _ _ ⟨⟩) fun x => loadFrame_loadWord x j v).moveTo _ _⟩
    case h_3 => cases h; exact ⟨_, rfl, (loadOnly_mapLanes mark).complete⟩
    case h_4 => cases h

/-- Settles O49: a WLOAD's micro-step replaces the current engine, by one with the frame's lanes. -/
theorem loadCommandsFrame : Obligations.LoadCommandsFrame := by
  intro i s t e e' q hr h he' hi
  obtain ⟨k, rfl, hk⟩ := exec_loadOnly hr h hi
  obtain rfl : k = e' := Option.some.inj ((cur_putCur hr.1 k).symm.trans he')
  exact ⟨fun _ => rfl, ⟨rfl, rfl, rfl, rfl, rfl, rfl, rfl, rfl⟩, othersKept_putCur s k, hk.control, hk.others, hk.lanes⟩

/-! ### The frame of HSTORE (O50) -/

/-- What an HSTORE's micro-step leaves of its engine: it may raise a fault, and changes no lane. -/
structure StoreOnly (e e' : Engine) : Prop where
  lanes : e.lanesKept e'
  cmd : e'.lastCmd = e.lastCmd
  idle : e'.idle = e.idle
  waiting : e'.fault = none → e'.waiting = e.waiting

theorem storeOnly_raise (e : Engine) (c : FaultCause) (w : Word) : StoreOnly e (e.raise c w) :=
  ⟨fun _ => rfl, rfl, rfl, nofun⟩

theorem storeOnly_moveTo (e : Engine) (q : Seq) (p : Pos) : StoreOnly e (e.moveTo q p) :=
  ⟨fun _ => rfl, rfl, rfl, fun _ => rfl⟩

theorem storeOnly_refl (e : Engine) : StoreOnly e e := ⟨fun _ => rfl, rfl, rfl, fun _ => rfl⟩

theorem storeOnly_complete (e : Engine) : StoreOnly e e.complete := ⟨fun _ => rfl, rfl, rfl, fun _ => rfl⟩

/-- `t` is the state with the current engine replaced, after a store at `addr` or none. -/
def Stores (s : State) (e : Engine) (addr : Option Addr) (t : State) : Prop :=
  ∃ u e', t = u.putCur e' ∧ u = { s with mem := u.mem, ghalt := u.ghalt } ∧ MemFrame s addr u ∧ StoreOnly e e'

section
variable {s t : State} {e : Engine} {q : Seq}

theorem stores_putCur {e' : Engine} (addr : Option Addr) (h : StoreOnly e e') : Stores s e addr (s.putCur e') :=
  ⟨s, e', rfl, rfl, memFrame_of_mem_eq rfl rfl rfl addr, h⟩

theorem stores_checked {failing : Option (Group × LaneNo)} {p : Pos} (addr : Option Addr)
    (h : s.checked e q failing (some (s.putCur (e.moveTo q p))) = some t) : Stores s e addr t := by
  cases failing with
  | none => cases h; exact stores_putCur addr (storeOnly_moveTo e q p)
  | some gl => cases h; exact stores_putCur addr (storeOnly_raise e _ _)

theorem stores_storeWord {a : Addr} {v : Word} {d : Draw} {p : Pos} (hw : s.memWf)
    (h : ((s.storeWord a v d).map fun u => u.putCur (e.moveTo q p)) = some t) : Stores s e (some a) t := by
  obtain ⟨u, hu, rfl⟩ := Option.map_eq_some_iff.mp h
  exact ⟨u, _, rfl, storeWord_kept hu, memFrame_storeWord hu hw, storeOnly_moveTo e q p⟩

/-- All an HSTORE's micro-step can do. -/
theorem exec_stores {i : Instr} (hr : s.running e q) (hw : s.memWf) (h : exec i s = .next t)
    (hi : (∃ l, i = .hstoreL l) ∨ i = .hstoreV) : Stores s e (q.pos.storeAddr s.cfg e s.turn.draw i) t := by
  have stays (hs : t = s) : Stores s e (q.pos.storeAddr s.cfg e s.turn.draw i) t := by
    subst hs
    have h := stores_putCur (s := t) (q.pos.storeAddr t.cfg e t.turn.draw i) (storeOnly_refl e)
    rwa [putCur_of_cur hr.1] at h
  rcases hi with ⟨l, rfl⟩ | rfl
  · refine (act_next_running hr h).elim stays fun h => ?_
    split at h
    case h_1 => exact stores_checked _ h
    case h_2 j hpos => rw [hpos]; exact stores_storeWord hw h
    case h_3 => cases h; exact stores_putCur _ (storeOnly_complete e)
    case h_4 => cases h
  · refine (act_next_running hr h).elim stays fun h => ?_
    split at h
    case h_1 => exact stores_checked _ h
    case h_2 j todo hpos =>
      obtain ⟨l, hl, h⟩ := Option.bind_eq_some_iff.mp h
      rw [hpos, Pos.storeAddr, hl]
      exact stores_storeWord hw h
    case h_3 => cases h; exact stores_putCur _ (storeOnly_complete e)
    case h_4 => cases h
end

/-- Settles O50: the store's frame, and the current engine's. -/
theorem storeCommandsFrame : Obligations.StoreCommandsFrame := by
  intro i s t e e' q hr hw h he' hi
  obtain ⟨hcfg, hav, hturn, hscript, htick, hread, hothers⟩ := kept_of_exec h
  obtain ⟨u, k, rfl, hu, hmem, hk⟩ := exec_stores hr hw h hi
  have hactive : u.active = s.active := by rw [hu]
  obtain rfl : k = e' := by
    have hcur := cur_putCur_of_eq (u := u) hr.1 (by rw [hu]) (by rw [hu]) k
    exact Option.some.inj (hcur.symm.trans he')
  exact ⟨hmem.stored, hmem.kept, hmem.halt, ⟨hcfg, hactive, hav, hturn, hscript, htick, hread⟩, hothers, hk.lanes,
    hk.cmd, hk.idle, hk.waiting⟩

/-! ### What an engine writes (O59) -/

section
variable {s t : State} {e : Engine} {q : Seq}

/-- SYNC.DEC, SYNC.WAIT and IDLE store nothing; HALT stores at HALT_ADDR (R141 to R144). -/
theorem exec_completion_memFrame {i : Instr} (hr : s.running e q) (hw : s.memWf) (h : exec i s = .next t)
    (hi : i = .syncDec ∨ i = .syncWait ∨ i = .halt ∨ i = .idle) :
    MemFrame s (q.pos.storeAddr s.cfg e s.turn.draw i) t := by
  have stays (hs : t = s) : MemFrame s (q.pos.storeAddr s.cfg e s.turn.draw i) t :=
    memFrame_of_mem_eq (hs ▸ rfl) (hs ▸ rfl) (hs ▸ rfl) _
  rcases hi with rfl | rfl | rfl | rfl
  · refine (act_next_running hr h).elim stays fun h => ?_
    rcases decActive_some h with ⟨-, rfl⟩ | ⟨-, rfl⟩
    · exact memFrame_putCur_self s _ _
    · exact memFrame_putCur
        (memFrame_of_mem_eq (s := s) (t := { s with active := s.active - 1 }) rfl rfl rfl _) _
  · refine (act_next_running hr h).elim stays fun h => ?_
    split at h
    case h_1 => rcases enterWait_some h with ⟨-, rfl⟩ | ⟨-, rfl⟩ <;> exact memFrame_putCur_self s _ _
    case h_2 =>
      obtain ⟨-, rfl⟩ := pollActive_some h
      exact memFrame_putCur_self s _ _
    case h_3 => cases h
  · refine (act_next_running hr h).elim stays fun h => ?_
    simpa only [Pos.storeAddr] using memFrame_haltAll h hw
  · refine (act_next_running hr h).elim stays fun h => ?_
    split at h
    case h_1 => cases h; exact memFrame_putCur_self s _ _
    case h_2 => cases h

/-- Every command's micro-step stores at the address its position names, if anywhere. -/
theorem exec_memFrame {i : Instr} (hr : s.running e q) (hw : s.memWf) (h : exec i s = .next t) :
    MemFrame s (q.pos.storeAddr s.cfg e s.turn.draw i) t := by
  have register (hi : (∃ l, isLaneForm i l) ∨ isVectorForm i) :
      MemFrame s (q.pos.storeAddr s.cfg e s.turn.draw i) t := by
    obtain ⟨k, rfl, -⟩ := exec_registerOnly hr hi h
    exact memFrame_putCur_self s _ k
  have load (hi : (∃ l b, i = .wloadL l b) ∨ ∃ b, i = .wloadV b) :
      MemFrame s (q.pos.storeAddr s.cfg e s.turn.draw i) t := by
    obtain ⟨k, rfl, -⟩ := exec_loadOnly hr h hi
    exact memFrame_putCur_self s _ k
  have store (hi : (∃ l, i = .hstoreL l) ∨ i = .hstoreV) : MemFrame s (q.pos.storeAddr s.cfg e s.turn.draw i) t := by
    obtain ⟨u, k, rfl, -, hmem, -⟩ := exec_stores hr hw h hi
    exact memFrame_putCur hmem k
  have composite (st : Strategy) (hi : (∃ n, i = processInstr st n) ∨ i = runInstr st) :
      MemFrame s (q.pos.storeAddr s.cfg e s.turn.draw i) t := by
    obtain ⟨k, hk⟩ := cur_of_exec hr h
    exact (exec_compositeFrame hr hw h hk hi).mem
  cases i with
  | hinitL l => exact register (.inl ⟨l, .inl rfl⟩)
  | wexpandL l => exact register (.inl ⟨l, .inr (.inl rfl)⟩)
  | compressL l => exact register (.inl ⟨l, .inr (.inr rfl)⟩)
  | hinitV => exact register (.inr (.inl rfl))
  | wexpandV => exact register (.inr (.inr (.inl rfl)))
  | compressV => exact register (.inr (.inr (.inr rfl)))
  | wloadL l b => exact load (.inl ⟨l, b, rfl⟩)
  | wloadV b => exact load (.inr ⟨b, rfl⟩)
  | hstoreL l => exact store (.inl ⟨l, rfl⟩)
  | hstoreV => exact store (.inr rfl)
  | processScalar n => exact composite .scalar (.inl ⟨n, rfl⟩)
  | processVector n => exact composite .vector (.inl ⟨n, rfl⟩)
  | processSpmd n => exact composite .spmd (.inl ⟨n, rfl⟩)
  | runScalar => exact composite .scalar (.inr rfl)
  | runVector => exact composite .vector (.inr rfl)
  | runSpmd => exact composite .spmd (.inr rfl)
  | syncDec | syncWait | halt | idle => exact exec_completion_memFrame hr hw h (by simp)
end

/-- A body stores at digest words alone. -/
theorem bodyStoreAddr_eq_digaddr {e : Engine} {d : Draw} {b : BodyPos} {a : Addr} (h : b.storeAddr e d = some a) :
    ∃ (l : LaneNo) (j : Fin 8), a = (e.lane l).digaddr j := by
  unfold BodyPos.storeAddr at h
  split at h
  case h_1 l j => cases h; exact ⟨l, j, rfl⟩
  case h_2 j todo =>
    obtain ⟨l, -, rfl⟩ := Option.map_eq_some_iff.mp h
    exact ⟨l, j, rfl⟩
  case h_3 ps =>
    split at h
    case h_1 j _ => cases h; exact ⟨_, j, rfl⟩
    case h_2 => cases h
  case h_4 => cases h

/-- `a` is where the engine may store: HALT_ADDR, or one of its digest words (R51). -/
def MayStore (cfg : Config) (e : Engine) (a : Addr) : Prop :=
  a = cfg.haltAddr ∨ ∃ (l : LaneNo) (j : Fin 8), a = (e.lane l).digaddr j

/-- A command stores nowhere else. -/
theorem mayStore_of_storeAddr {cfg : Config} {e : Engine} {d : Draw} {i : Instr} {p : Pos} {a : Addr}
    (h : p.storeAddr cfg e d i = some a) : MayStore cfg e a := by
  unfold Pos.storeAddr at h
  split at h
  case h_1 l j => cases h; exact .inr ⟨l, j, rfl⟩
  case h_2 j todo =>
    obtain ⟨l, -, rfl⟩ := Option.map_eq_some_iff.mp h
    exact .inr ⟨l, j, rfl⟩
  case h_3 => cases h; exact .inl rfl
  case h_4 => exact .inr (bodyStoreAddr_eq_digaddr h)
  case h_5 => exact .inr (bodyStoreAddr_eq_digaddr h)
  case h_6 => cases h; exact .inl rfl
  case h_7 => cases h

/-- Nor does an engine's move. -/
theorem engineStep_memFrame {s t : State} {e : Engine} (hc : s.cur = some e) (hw : s.memWf)
    (h : s.engineStep = .next t) : ∃ addr, MemFrame s addr t ∧ ∀ a, addr = some a → MayStore s.cfg e a := by
  have nothing (hcfg : t.cfg = s.cfg) (hmem : t.mem = s.mem) (hg : t.ghalt = s.ghalt) :
      ∃ addr, MemFrame s addr t ∧ ∀ a, addr = some a → MayStore s.cfg e a :=
    ⟨none, memFrame_of_mem_eq hcfg hmem hg none, nofun⟩
  unfold State.engineStep at h
  split at h
  case h_1 =>
    rcases act_next h with rfl | ⟨_, _, -, -, -, -, hnone⟩
    · exact nothing rfl rfl rfl
    · cases hnone
  case h_2 w hfetch =>
    obtain ⟨f, q, hf, hq, -, hg, hfault⟩ := fetch_some hfetch
    obtain rfl : f = e := Option.some.inj (hf.symm.trans hc)
    split at h
    case h_1 i _ => exact ⟨_, exec_memFrame ⟨hc, hq, hg, hfault⟩ hw h, fun a => mayStore_of_storeAddr⟩
    case h_2 =>
      rcases act_next h with rfl | ⟨_, _, -, -, -, -, hraise⟩
      · exact nothing rfl rfl rfl
      · cases hraise
        exact nothing rfl rfl rfl

/-- Settles O59: the step stores at one such address or at none, and the byte is outside every such word. -/
theorem enginesWriteOnlyDigestsAndHaltWord : Obligations.EnginesWriteOnlyDigestsAndHaltWord := by
  intro s u t c d e a hw hmove hc ht hdig hhalt
  obtain rfl : u = s.nextMove.2 := by rw [hmove]
  have hkept := nextMove_kept s
  have hw' : (s.nextMove.2.withTurn c d).memWf := by
    rw [hkept]
    exact hw
  have hread : (s.nextMove.2.withTurn c d).readByte a = s.readByte a := by
    rw [hkept]
    rfl
  rw [step_engine hmove] at ht
  obtain ⟨addr, hframe, hmay⟩ := engineStep_memFrame hc hw' ht
  rw [← hread]
  cases addr with
  | none => exact hframe.kept rfl a
  | some b =>
    refine hframe.stored b rfl a ?_
    rcases hmay b rfl with rfl | ⟨l, j, rfl⟩
    · rw [hkept]
      exact hhalt
    · exact hdig l j

end Sys2Proof.Proofs
end

section
/-! PROOFS of the scope's obligations of the encoding: the decoder and the encoder are inverse (O1, O3), legality is the
opcode table's (O2), the worked decodes (O4) and a CMD write (O6). -/

namespace Sys2Proof.Proofs

open Sys2Proof.Machine Sys2Proof.Laws

/-! ### The fields of a word (R71) -/

/-- The six fields hold every bit of a word. -/
theorem wordOf_fieldsOf (w : Word) : wordOf (fieldsOf w) = w := by
  apply BitVec.eq_of_getLsbD_eq
  intro i hi
  simp only [wordOf, fieldsOf, BitVec.getLsbD_append, BitVec.getLsbD_extractLsb']
  interval_cases i <;> simp

/-- A word is made of the fields `f` exactly when those are its fields. -/
theorem fieldsOf_eq_iff {w : Word} {f : Fields} : fieldsOf w = f ↔ w = wordOf f :=
  ⟨fun h => h ▸ (wordOf_fieldsOf w).symm, fun h => h ▸ fieldsOf_wordOf f⟩

/-- A word is a command's exactly when its fields are the command's. -/
theorem fieldsOf_eq_fields_iff {w : Word} {i : Instr} : fieldsOf w = i.fields ↔ w = encode i := fieldsOf_eq_iff

@[simp] theorem fieldsOf_encode (i : Instr) : fieldsOf (encode i) = i.fields := fieldsOf_wordOf i.fields

/-! ### Legal fields are those of a command (O1, O3) -/

section
variable {f : Fields} {k : OpKind}

/-- Legal fields have a known OP and pass the five checks of its kind (R76). -/
theorem reject_eq_none_iff :
    f.reject = none ↔ ∃ k, opKind f.op = some k ∧ f.strategyReject k = none ∧ f.allReject k = none ∧
      f.reservedReject = none ∧ f.laneReject k = none ∧ f.immReject k = none := by
  unfold Fields.reject
  cases opKind f.op with
  | none => simp
  | some k => simp [Option.or_eq_none_iff]

/-- What R76 asks of a legal word of each kind of operation. -/
def LegalAs (f : Fields) : OpKind → Prop
  | .lanePrimitive =>
    (f.op = 0x01 ∨ f.op = 0x03 ∨ f.op = 0x04 ∨ f.op = 0x05) ∧ f.strat = 0 ∧ f.res = 0 ∧ (f.all = 0 ∨ f.lane = 0) ∧
      f.imm = 0
  | .load => f.op = 0x02 ∧ f.strat = 0 ∧ f.res = 0 ∧ (f.all = 0 ∨ f.lane = 0)
  | .process => f.op = 0x10 ∧ f.strat ≠ 3 ∧ f.all = 0 ∧ f.res = 0 ∧ f.lane = 0
  | .run => f.op = 0x20 ∧ f.strat ≠ 3 ∧ f.all = 0 ∧ f.res = 0 ∧ f.lane = 0 ∧ f.imm = 0
  | .completion =>
    (f.op = 0x30 ∨ f.op = 0x31 ∨ f.op = 0x32 ∨ f.op = 0x33) ∧ f.strat = 0 ∧ f.all = 0 ∧ f.res = 0 ∧ f.lane = 0 ∧
      f.imm = 0

/-- A word that passes every check is legal as its kind. -/
theorem legalAs_of_reject (h : f.reject = none) : ∃ k, LegalAs f k := by
  obtain ⟨k, hkind, hstrat, hall, hres, hlane, himm⟩ := reject_eq_none_iff.mp h
  refine ⟨k, ?_⟩
  unfold opKind at hkind
  split_ifs at hkind with hop hop hop hop hop <;> cases hkind <;>
    simp only [Fields.strategyReject, Fields.allReject, Fields.reservedReject, Fields.laneReject, Fields.immReject,
      ite_eq_left_iff, ite_eq_right_iff, reduceCtorEq, imp_false, not_not] at hstrat hall hres hlane himm
  · exact ⟨hop, hstrat, hres, hlane, himm⟩
  · exact ⟨hop, hstrat, hres, hlane⟩
  · exact ⟨hop, hstrat, hall, hres, hlane⟩
  · exact ⟨hop, hstrat, hall, hres, hlane, himm⟩
  · exact ⟨hop, hstrat, hall, hres, hlane, himm⟩

/-- Fields of a primitive: its .L form where ALL = 0, its .V form where ALL = 1 (R71). -/
theorem eq_ofLane_or_ofEvery (hstrat : f.strat = 0) (hres : f.res = 0) (hlane : f.all = 0 ∨ f.lane = 0) :
    f = .ofLane f.op f.laneNo f.imm ∨ f = .ofEvery f.op f.imm := by
  obtain ⟨op, strat, all, res, lane, imm⟩ := f
  obtain rfl : strat = 0 := hstrat
  obtain rfl : res = 0 := hres
  by_cases hall : all = 0
  · subst hall
    exact .inl rfl
  · obtain rfl : lane = 0 := hlane.resolve_left hall
    obtain rfl : all = 1 := by bv_omega
    exact .inr rfl

/-- Fields of a PROCESS, a RUN or a completion command (R71). -/
theorem eq_ofStrategy (hall : f.all = 0) (hres : f.res = 0) (hlane : f.lane = 0) :
    f = .ofStrategy f.op f.strat f.imm := by
  obtain ⟨op, strat, all, res, lane, imm⟩ := f
  obtain rfl : all = 0 := hall
  obtain rfl : res = 0 := hres
  obtain rfl : lane = 0 := hlane
  rfl

/-- A strategy that is not reserved is one of the three (R74). -/
theorem strat_cases {strat : BitVec 2} (h : strat ≠ 3) : strat = 0 ∨ strat = 1 ∨ strat = 2 := by
  bv_omega

/-- Legal fields are those of a command. -/
theorem exists_fields_of_legalAs (h : LegalAs f k) : ∃ i : Instr, f = i.fields := by
  cases k with
  | lanePrimitive =>
    obtain ⟨hop, hstrat, hres, hlane, himm⟩ := h
    rcases eq_ofLane_or_ofEvery hstrat hres hlane with hf | hf <;> rw [himm] at hf <;>
      rcases hop with hop | hop | hop | hop <;> rw [hop] at hf
    · exact ⟨.hinitL _, hf⟩
    · exact ⟨.wexpandL _, hf⟩
    · exact ⟨.compressL _, hf⟩
    · exact ⟨.hstoreL _, hf⟩
    · exact ⟨.hinitV, hf⟩
    · exact ⟨.wexpandV, hf⟩
    · exact ⟨.compressV, hf⟩
    · exact ⟨.hstoreV, hf⟩
  | load =>
    obtain ⟨hop, hstrat, hres, hlane⟩ := h
    rcases eq_ofLane_or_ofEvery hstrat hres hlane with hf | hf <;> rw [hop] at hf
    · exact ⟨.wloadL _ _, hf⟩
    · exact ⟨.wloadV _, hf⟩
  | process =>
    obtain ⟨hop, hstrat, hall, hres, hlane⟩ := h
    have hf := eq_ofStrategy hall hres hlane
    rcases strat_cases hstrat with hs | hs | hs <;> rw [hop, hs] at hf
    · exact ⟨.processScalar _, hf⟩
    · exact ⟨.processVector _, hf⟩
    · exact ⟨.processSpmd _, hf⟩
  | run =>
    obtain ⟨hop, hstrat, hall, hres, hlane, himm⟩ := h
    have hf := eq_ofStrategy hall hres hlane
    rcases strat_cases hstrat with hs | hs | hs <;> rw [hop, hs, himm] at hf
    · exact ⟨.runScalar, hf⟩
    · exact ⟨.runVector, hf⟩
    · exact ⟨.runSpmd, hf⟩
  | completion =>
    obtain ⟨hop, hstrat, hall, hres, hlane, himm⟩ := h
    have hf := eq_ofStrategy hall hres hlane
    rcases hop with hop | hop | hop | hop <;> rw [hop, hstrat, himm] at hf
    · exact ⟨.syncDec, hf⟩
    · exact ⟨.syncWait, hf⟩
    · exact ⟨.halt, hf⟩
    · exact ⟨.idle, hf⟩

/-- A command's own fields are legal (R80). -/
@[simp] theorem reject_fields (i : Instr) : i.fields.reject = none := by
  cases i <;> rfl

/-- A command's fields stand for it (R75). -/
@[simp] theorem toInstr_fields (i : Instr) : i.fields.toInstr = i := by
  cases i <;> rfl
end

/-- Settles O1: a command's word holds its fields, which are legal and stand for it. -/
theorem encodedCommandsDecodeBack : Obligations.EncodedCommandsDecodeBack := by
  intro i
  simp only [decode, fieldsOf_encode, reject_fields, toInstr_fields]

/-- Settles O3: a legal word's fields are a command's, so the word is that command's, which it stands for by O1. -/
theorem decodedWordsEncodeBack : Obligations.DecodedWordsEncodeBack := by
  intro w i h
  unfold decode at h
  split at h
  case h_1 => cases h
  case h_2 hlegal =>
    cases h
    obtain ⟨k, hk⟩ := legalAs_of_reject hlegal
    obtain ⟨j, hj⟩ := exists_fields_of_legalAs hk
    rw [hj, toInstr_fields]
    exact (fieldsOf_eq_fields_iff.mp hj).symm

/-! ### The opcode table (O2) -/

/-- The fields of `f` under the mask `m`. -/
def maskFields (f m : Fields) : Fields where
  op := f.op &&& m.op
  strat := f.strat &&& m.strat
  all := f.all &&& m.all
  res := f.res &&& m.res
  lane := f.lane &&& m.lane
  imm := f.imm &&& m.imm

/-- A mask acts field by field. -/
theorem fieldsOf_and (w m : Word) : fieldsOf (w &&& m) = maskFields (fieldsOf w) (fieldsOf m) := by
  simp only [fieldsOf, maskFields, BitVec.extractLsb'_and]

/-- A row matches the words whose fields, under its mask, are its pattern's (R76). -/
theorem matches_iff {r : OpcodeRow} {w : Word} :
    r.matches w = true ↔ maskFields (fieldsOf w) (fieldsOf r.mask) = fieldsOf r.pattern := by
  rw [← fieldsOf_and, OpcodeRow.matches, beq_iff_eq, fieldsOf_eq_iff, wordOf_fieldsOf]

/-- A mask of all bits keeps every field. -/
theorem maskFields_allBits (f : Fields) : maskFields f (fieldsOf 0xFFFFFFFF) = f := by
  have hm : fieldsOf 0xFFFFFFFF = ⟨.allOnes 8, .allOnes 2, .allOnes 1, .allOnes 1, .allOnes 4, .allOnes 16⟩ := by decide
  simp only [hm, maskFields, BitVec.and_allOnes]

/-- The mask of a .L form with no immediate leaves LANE out. -/
theorem maskFields_laneFree (f : Fields) : maskFields f (fieldsOf 0xFFFF0FFF) = { f with lane := 0 } := by
  have hm : fieldsOf 0xFFFF0FFF = ⟨.allOnes 8, .allOnes 2, .allOnes 1, .allOnes 1, 0#4, .allOnes 16⟩ := by decide
  simp only [hm, maskFields, BitVec.and_allOnes, BitVec.and_zero]
  rfl

/-- The mask of WLOAD.L leaves LANE and IMM out. -/
theorem maskFields_laneImmFree (f : Fields) : maskFields f (fieldsOf 0x00000FFF) = { f with lane := 0, imm := 0 } := by
  have hm : fieldsOf 0x00000FFF = ⟨.allOnes 8, .allOnes 2, .allOnes 1, .allOnes 1, 0#4, 0#16⟩ := by decide
  simp only [hm, maskFields, BitVec.and_allOnes, BitVec.and_zero]
  rfl

/-- The mask of WLOAD.V and of PROCESS leaves IMM out. -/
theorem maskFields_immFree (f : Fields) : maskFields f (fieldsOf 0x0000FFFF) = { f with imm := 0 } := by
  have hm : fieldsOf 0x0000FFFF = ⟨.allOnes 8, .allOnes 2, .allOnes 1, .allOnes 1, .allOnes 4, 0#16⟩ := by decide
  simp only [hm, maskFields, BitVec.and_allOnes, BitVec.and_zero]
  rfl

/-- A command's word matches the row of its mnemonic: its fields with the operands cleared are the row's pattern. -/
theorem exists_row_matches_encode (i : Instr) :
    ∃ r ∈ opcodeRows, r.mnemonic = i.mnemonic ∧ r.matches (encode i) = true := by
  simp only [matches_iff, fieldsOf_encode]
  -- The mnemonics differ, so `simp` leaves the command's own row; its mask clears the operands.
  cases i
  all_goals
    simp only [opcodeRows, primitiveRows, compositeRows, List.cons_append, List.nil_append, List.exists_mem_cons_iff,
      List.not_mem_nil, Instr.mnemonic, String.reduceEq, false_and, true_and, exists_false, false_or, or_false,
      maskFields_laneFree, maskFields_laneImmFree, maskFields_immFree, maskFields_allBits]
    rfl

section
variable {mnemonic : String} {w p : Word}

/-- A word that matches a row of all bits is that row's one command. -/
theorem eq_encode_of_fixedRow {i : Instr} (hi : i.fields = fieldsOf p)
    (h : OpcodeRow.matches ⟨mnemonic, p, 0xFFFFFFFF⟩ w = true) : w = encode i := by
  rw [matches_iff, maskFields_allBits] at h
  exact fieldsOf_eq_fields_iff.mp (h.trans hi.symm)

/-- A word that matches a row without LANE is the row's command for the lane it names. -/
theorem eq_encode_of_laneRow {make : LaneNo → Instr}
    (hmake : ∀ l, (make l).fields = { fieldsOf p with lane := .ofFin l })
    (h : OpcodeRow.matches ⟨mnemonic, p, 0xFFFF0FFF⟩ w = true) : w = encode (make (fieldsOf w).laneNo) := by
  rw [matches_iff, maskFields_laneFree] at h
  rw [← fieldsOf_eq_fields_iff, hmake, ← h]
  rfl

/-- A word that matches a row without LANE and IMM is the row's command for the lane and the number it names. -/
theorem eq_encode_of_laneImmRow {make : LaneNo → BitVec 16 → Instr}
    (hmake : ∀ l b, (make l b).fields = { fieldsOf p with lane := .ofFin l, imm := b })
    (h : OpcodeRow.matches ⟨mnemonic, p, 0x00000FFF⟩ w = true) :
    w = encode (make (fieldsOf w).laneNo (fieldsOf w).imm) := by
  rw [matches_iff, maskFields_laneImmFree] at h
  rw [← fieldsOf_eq_fields_iff, hmake, ← h]
  rfl

/-- A word that matches a row without IMM is the row's command for the number it names. -/
theorem eq_encode_of_immRow {make : BitVec 16 → Instr} (hmake : ∀ n, (make n).fields = { fieldsOf p with imm := n })
    (h : OpcodeRow.matches ⟨mnemonic, p, 0x0000FFFF⟩ w = true) : w = encode (make (fieldsOf w).imm) := by
  rw [matches_iff, maskFields_immFree] at h
  rw [← fieldsOf_eq_fields_iff, hmake, ← h]
end

section
variable {r : OpcodeRow} {w : Word}

/-- A word that matches a primitive's row is the word of that primitive. -/
theorem exists_encode_of_primitiveRow (hr : r ∈ primitiveRows) (h : r.matches w = true) :
    ∃ i : Instr, w = encode i ∧ i.mnemonic = r.mnemonic := by
  simp only [primitiveRows, List.mem_cons, List.not_mem_nil, or_false] at hr
  rcases hr with rfl | rfl | rfl | rfl | rfl | rfl | rfl | rfl | rfl | rfl
  · exact ⟨.hinitL _, eq_encode_of_laneRow (fun _ => rfl) h, rfl⟩
  · exact ⟨.hinitV, eq_encode_of_fixedRow rfl h, rfl⟩
  · exact ⟨.wloadL _ _, eq_encode_of_laneImmRow (fun _ _ => rfl) h, rfl⟩
  · exact ⟨.wloadV _, eq_encode_of_immRow (fun _ => rfl) h, rfl⟩
  · exact ⟨.wexpandL _, eq_encode_of_laneRow (fun _ => rfl) h, rfl⟩
  · exact ⟨.wexpandV, eq_encode_of_fixedRow rfl h, rfl⟩
  · exact ⟨.compressL _, eq_encode_of_laneRow (fun _ => rfl) h, rfl⟩
  · exact ⟨.compressV, eq_encode_of_fixedRow rfl h, rfl⟩
  · exact ⟨.hstoreL _, eq_encode_of_laneRow (fun _ => rfl) h, rfl⟩
  · exact ⟨.hstoreV, eq_encode_of_fixedRow rfl h, rfl⟩

/-- So with the rows of PROCESS, RUN and the completion commands. -/
theorem exists_encode_of_compositeRow (hr : r ∈ compositeRows) (h : r.matches w = true) :
    ∃ i : Instr, w = encode i ∧ i.mnemonic = r.mnemonic := by
  simp only [compositeRows, List.mem_cons, List.not_mem_nil, or_false] at hr
  rcases hr with rfl | rfl | rfl | rfl | rfl | rfl | rfl | rfl | rfl | rfl
  · exact ⟨.processScalar _, eq_encode_of_immRow (fun _ => rfl) h, rfl⟩
  · exact ⟨.processVector _, eq_encode_of_immRow (fun _ => rfl) h, rfl⟩
  · exact ⟨.processSpmd _, eq_encode_of_immRow (fun _ => rfl) h, rfl⟩
  · exact ⟨.runScalar, eq_encode_of_fixedRow rfl h, rfl⟩
  · exact ⟨.runVector, eq_encode_of_fixedRow rfl h, rfl⟩
  · exact ⟨.runSpmd, eq_encode_of_fixedRow rfl h, rfl⟩
  · exact ⟨.syncDec, eq_encode_of_fixedRow rfl h, rfl⟩
  · exact ⟨.syncWait, eq_encode_of_fixedRow rfl h, rfl⟩
  · exact ⟨.halt, eq_encode_of_fixedRow rfl h, rfl⟩
  · exact ⟨.idle, eq_encode_of_fixedRow rfl h, rfl⟩
end

/-- Settles O2: a legal word is its command's (O3), which has a row; a word of a row is a command's, and decodes to it
(O1). -/
theorem legalWordsAreTheTableRows : Obligations.LegalWordsAreTheTableRows := by
  intro w
  refine ⟨fun i h => ?_, fun r hr h => ?_⟩
  · obtain rfl := decodedWordsEncodeBack w i h
    exact exists_row_matches_encode i
  · obtain ⟨i, rfl, hi⟩ :=
      (List.mem_append.mp hr).elim (exists_encode_of_primitiveRow · h) (exists_encode_of_compositeRow · h)
    exact ⟨i, encodedCommandsDecodeBack i, hi⟩

/-- Settles O4: each word is closed, and the decoder computes on it. -/
theorem workedDecodesOfTheSpec : Obligations.WorkedDecodesOfTheSpec := by
  unfold Obligations.WorkedDecodesOfTheSpec
  decide

/-! ### A CMD write (O6) -/

theorem issue_of_command {w : Word} {i : Instr} (h : decode w = .command i) (e : Engine) : e.issue w = e.accept w := by
  simp only [Engine.issue, h]

theorem issue_of_illegal {w : Word} {r : Reject} (h : decode w = .illegal r) (e : Engine) :
    e.issue w = e.raise .illegalCmd w := by
  simp only [Engine.issue, h]

/-- Settles O6: word number 0 is CMD, and a ready engine issues what is written there. -/
theorem cmdWriteIssuesTheCommand : Obligations.CmdWriteIssuesTheCommand := by
  intro s c e w d he hseq hfault hhalt
  have hwrite : s.hostMove (.writeReg c 0 w) d = { s with engines := s.engines.set c (e.issue w) } :=
    hostMove_writeReg_ready he hseq hfault hhalt 0 w d
  refine ⟨fun i h => ?_, fun r h => ?_⟩
  · rw [hwrite, issue_of_command h]
    rfl
  · rw [hwrite, issue_of_illegal h]
    rfl

end Sys2Proof.Proofs
end

section
/-! PROOFS of the scope's obligations of the Compression Core: the round functions (O14), the compression function (O15)
and COMPRESS (O26, O27). -/

namespace Sys2Proof.Proofs

open Sys2Proof.Machine Sys2Proof.Laws

/-! ### The round functions (O14) -/

theorem getLsbD_ch (x y z : Word) {k : Nat} (hk : k < 32) :
    (ch x y z).getLsbD k = if x.getLsbD k then y.getLsbD k else z.getLsbD k := by
  have hbits : (ch x y z).getLsbD k = ((x.getLsbD k && y.getLsbD k) ^^ (!x.getLsbD k && z.getLsbD k)) := by
    simp [ch, hk]
  rw [hbits]
  cases x.getLsbD k <;> simp

theorem getLsbD_maj (x y z : Word) (k : Nat) :
    (maj x y z).getLsbD k = decide (2 ≤ (x.getLsbD k).toNat + (y.getLsbD k).toNat + (z.getLsbD k).toNat) := by
  have hbits : (maj x y z).getLsbD k =
      ((x.getLsbD k && y.getLsbD k) ^^ (x.getLsbD k && z.getLsbD k) ^^ (y.getLsbD k && z.getLsbD k)) := by
    simp [maj]
  rw [hbits]
  generalize x.getLsbD k = a, y.getLsbD k = b, z.getLsbD k = c
  revert a b c
  decide

/-- Settles O14, bit by bit. -/
theorem chooseAndMajorityAreBitwise : Obligations.ChooseAndMajorityAreBitwise :=
  fun x y z k hk => ⟨getLsbD_ch x y z hk, getLsbD_maj x y z k⟩

/-! ### The compression function (O15) -/

theorem runRounds_append (l l' : List (Word × Word)) (x : Vector Word 8) :
    runRounds (l ++ l') x = runRounds l' (runRounds l x) := by
  induction l generalizing x with
  | nil => rfl
  | cons kw l ih => exact ih _

/-- The rounds' constants and schedule words, in ascending order. -/
def roundInputs (ws : Vector Word 64) : List (Word × Word) := roundConstants.toList.zip ws.toList

theorem length_roundInputs (ws : Vector Word 64) : (roundInputs ws).length = 64 := by
  simp [roundInputs]

/-- The window before round `r`: the first `r` rounds run from the hash state (R91). -/
def windowBefore (h : Vector Word 8) (ws : Vector Word 64) (r : Nat) : Vector Word 8 :=
  runRounds ((roundInputs ws).take r) h

theorem windowBefore_zero (h : Vector Word 8) (ws : Vector Word 64) : windowBefore h ws 0 = h := rfl

theorem windowBefore_succ (h : Vector Word 8) (ws : Vector Word 64) (r : Fin 64) :
    windowBefore h ws (r + 1) = roundStep roundConstants[r] ws[r] (windowBefore h ws r) := by
  have hr : r.val < (roundInputs ws).length := by simp [length_roundInputs]
  have hget : (roundInputs ws)[r.val] = (roundConstants[r], ws[r]) := by simp [roundInputs]
  rw [windowBefore, List.take_succ_eq_append_getElem hr, runRounds_append, hget]
  rfl

theorem afterRounds_eq_windowBefore (h : Vector Word 8) (ws : Vector Word 64) :
    afterRounds h ws = windowBefore h ws 64 := by
  rw [windowBefore, List.take_of_length_le (length_roundInputs ws).le]
  rfl

theorem getElem_compressed (h : Vector Word 8) (ws : Vector Word 64) (j : Fin 8) :
    (compressed h ws)[j] = h[j] + (afterRounds h ws)[j] := by
  simp [compressed, feedForward]

/-- Settles O15: the windows before each round are the chain. -/
theorem compressIsSixtyFourRoundsAndFeedForward : Obligations.CompressIsSixtyFourRoundsAndFeedForward := by
  refine fun h ws => ⟨windowBefore h ws, windowBefore_zero h ws, fun r => windowBefore_succ h ws r,
    afterRounds_eq_windowBefore h ws, fun j => ?_⟩
  rw [getElem_compressed, afterRounds_eq_windowBefore]

/-! ### COMPRESS (O26, O27) -/

/-- The group COMPRESS's check fails on is the first unwritten one, in R92's order. -/
theorem compressCheck_some_iff (x : Lane) (g : Group) :
    x.compressCheck = some g ↔
      (x.hv = false ∧ g = .hash) ∨ (x.hv = true ∧ x.wlv = false ∧ g = .block) ∨
        (x.hv = true ∧ x.wlv = true ∧ x.wev = false ∧ g = .schedule) := by
  unfold Lane.compressCheck
  cases x.hv <;> cases x.wlv <;> cases x.wev <;> simp [eq_comm]

/-- The lowest failing lane is the one whose check fails where every lower lane's passes (R93). -/
theorem firstFailing_some_of_lowest {e : Engine} {check : Lane → Option Group} {l : LaneNo} {g : Group}
    (hl : check (e.lane l) = some g) (hlower : ∀ k, k < l → check (e.lane k) = none) :
    e.firstFailing check = some (g, l) := by
  rw [Engine.firstFailing, allLanes, ← Fin.findSome?_eq_findSome?_finRange, Fin.findSome?_eq_some_iff]
  exact ⟨l, by rw [hl, Option.map_some], fun k hk => by rw [hlower k hk, Option.map_none]⟩

/-- One lane changed and the command complete, as one update. -/
theorem updLane_complete (e : Engine) (l : LaneNo) (f : Lane → Lane) :
    (e.updLane l f).complete = { e with lanes := e.lanes.set l (f (e.lane l)), seq := none } := by
  rw [Engine.updLane, Engine.complete]

section
variable {s : State} {e : Engine} {q : Seq} {l : LaneNo} {g : Group}

theorem exec_compressL_pass (hr : s.running e q) (hl : (e.lane l).compressCheck = none) :
    exec (.compressL l) s = .next (s.putCur (e.updLane l Lane.compressBlock).complete) := by
  refine (act_running hr _).trans ?_
  rw [hl, Option.map_none, checked_none, Option.getD_some]

theorem exec_compressL_fault (hr : s.running e q) (hl : (e.lane l).compressCheck = some g) :
    exec (.compressL l) s = .next (s.putCur (e.raise (.uninitRead g l) q.cmd)) := by
  refine (act_running hr _).trans ?_
  rw [hl, Option.map_some, checked_some, Option.getD_some]

theorem exec_compressV_pass (hr : s.running e q) (he : e.firstFailing Lane.compressCheck = none) :
    exec .compressV s = .next (s.putCur (e.mapLanes fun _ => Lane.compressBlock).complete) := by
  refine (act_running hr _).trans ?_
  rw [he, checked_none, Option.getD_some]

theorem exec_compressV_fault (hr : s.running e q) (he : e.firstFailing Lane.compressCheck = some (g, l)) :
    exec .compressV s = .next (s.putCur (e.raise (.uninitRead g l) q.cmd)) := by
  refine (act_running hr _).trans ?_
  rw [he, checked_some, Option.getD_some]
end

/-- Settles O26: every check passes, and the micro-step is COMPRESS's effect. -/
theorem compressFoldsTheBlock : Obligations.CompressFoldsTheBlock := by
  refine fun s e q hr => ⟨fun l hh hb hs => ?_, fun hall => ?_⟩
  · have hl : (e.lane l).compressCheck = none := (compressCheck_none_iff _).mpr ⟨hh, hb, hs⟩
    rw [exec_compressL_pass hr hl, updLane_complete]
    rfl
  · have he : e.firstFailing Lane.compressCheck = none :=
      (firstFailing_none_iff e _).mpr fun l => (compressCheck_none_iff _).mpr (hall l)
    rw [exec_compressV_pass hr he, mapLanes_complete]
    rfl

/-- Settles O27: the lane's check fails on its first unwritten group, and for COMPRESS.V the lane is the lowest. -/
theorem compressFaultsInOrder : Obligations.CompressFaultsInOrder := by
  intro s e q l g hr hg
  have hl : (e.lane l).compressCheck = some g := (compressCheck_some_iff _ g).mpr hg
  refine ⟨exec_compressL_fault hr hl, fun hlower => exec_compressV_fault hr ?_⟩
  exact firstFailing_some_of_lowest hl fun k hk => (compressCheck_none_iff _).mpr (hlower k hk)

end Sys2Proof.Proofs
end

section
/-! PROOFS of the scope's obligations of the Block Feeder's micro-steps: the schedule (O16), HINIT (O19), WLOAD.L (O20),
WEXPAND (O24, O25), HSTORE (O28, O31), and PROCESS.SCALAR, which runs them lane after lane (O32). -/

namespace Sys2Proof.Proofs

open Sys2Proof.Machine Sys2Proof.Laws

/-! ### The schedule (O16) -/

theorem length_extendSchedule (v : SchedVariant) (n : Nat) (ws : List Word) :
    (extendSchedule v n ws).length = n + ws.length := by
  induction n generalizing ws with
  | zero => rw [extendSchedule, Nat.zero_add]
  | succ n ih => rw [extendSchedule, ih, List.length_cons]; omega

/-- Each further word is the recurrence's of the words behind it, the newest first (R104). -/
theorem extendSchedule_getD (v : SchedVariant) {n k : Nat} (ws : List Word) (hk : k < n) :
    (extendSchedule v n ws).getD k 0 =
      scheduleWord v ((extendSchedule v n ws).getD (k + 2) 0) ((extendSchedule v n ws).getD (k + 7) 0)
        ((extendSchedule v n ws).getD (k + 15) 0) ((extendSchedule v n ws).getD (k + 16) 0) := by
  induction n generalizing ws with
  | zero => cases hk
  | succ n ih =>
    rw [extendSchedule]
    rcases Nat.lt_succ_iff_lt_or_eq.mp hk with hk | rfl
    · exact ih _ hk
    · obtain ⟨new, hnew⟩ := extendSchedule_eq_append v k
        (scheduleWord v (ws.getD 1 0) (ws.getD 6 0) (ws.getD 14 0) (ws.getD 15 0) :: ws)
      have hlen : new.length = k := by
        have := congrArg List.length hnew
        rw [length_extendSchedule, List.length_append] at this
        omega
      have behind (j : Nat) (u : Word) : (new ++ u :: ws).getD (k + (j + 1)) 0 = ws.getD j 0 := by
        rw [List.getD_append_right _ _ _ _ (by omega), hlen, Nat.add_sub_cancel_left, List.getD_cons_succ]
      have newest (u : Word) : (new ++ u :: ws).getD k 0 = u := by
        rw [List.getD_append_right _ _ _ _ hlen.le, hlen, Nat.sub_self, List.getD_cons_zero]
      rw [hnew, newest, behind 1, behind 6, behind 14, behind 15]

/-- Expand's words, the newest first. -/
def newestFirst (v : SchedVariant) (w : Vector Word 64) : List Word :=
  extendSchedule v 48 (w.toList.take 16).reverse

theorem length_newestFirst (v : SchedVariant) (w : Vector Word 64) : (newestFirst v w).length = 64 := by
  simp [newestFirst, length_extendSchedule]

theorem getElem_expand (v : SchedVariant) (w : Vector Word 64) {i : Nat} (hi : i < 64) :
    (expand v w)[i] = (newestFirst v w).getD (63 - i) 0 := by
  have hlen := length_newestFirst v w
  have hexpand : (expand v w)[i] = (newestFirst v w).reverse.getD i 0 := by simp [expand, newestFirst]
  rw [hexpand, List.getD_eq_getElem _ _ (by simpa [hlen]), List.getD_eq_getElem _ _ (by omega), List.getElem_reverse]
  simp only [hlen]

/-- Every word from 16 on is the recurrence's of earlier words (R104). -/
theorem getElem_expand_recurrence (v : SchedVariant) (w : Vector Word 64) {i : Nat} (hi : i < 64) (h16 : 16 ≤ i) :
    (expand v w)[i] =
      scheduleWord v (expand v w)[i - 2] (expand v w)[i - 7] (expand v w)[i - 15] (expand v w)[i - 16] := by
  simp only [getElem_expand]
  have back {j : Nat} (hj : j ≤ 16) : 63 - (i - j) = 63 - i + j := by omega
  rw [back (by decide), back (by decide), back (by decide), back (by decide)]
  exact extendSchedule_getD v _ (by omega)

/-- Settles O16: the block's words stay, and every later one is the recurrence's, by the variant. -/
theorem scheduleFollowsTheRecurrence : Obligations.ScheduleFollowsTheRecurrence := by
  refine ⟨rfl, fun v w i hi => ⟨fun h => expand_block v w ⟨i, h⟩, fun h16 => ?_⟩⟩
  rw [getElem_expand_recurrence v w hi h16]
  cases v with
  | source => rfl
  | fips => rfl

/-! ### HINIT (O19) -/

section
variable {s : State} {e : Engine} {q : Seq}

theorem exec_hinitL (hr : s.running e q) (l : LaneNo) :
    exec (.hinitL l) s = .next (s.putCur (e.updLane l Lane.hinit).complete) := act_running hr _

theorem exec_hinitV (hr : s.running e q) :
    exec .hinitV s = .next (s.putCur (e.mapLanes fun _ => Lane.hinit).complete) := act_running hr _
end

/-- Settles O19: the words are decoded, and a HINIT is its one micro-step. -/
theorem hinitLoadsTheInitialHash : Obligations.HinitLoadsTheInitialHash := by
  refine ⟨by decide, by decide, fun s e q hr => ⟨fun l => ?_, ?_⟩⟩
  · rw [exec_hinitL hr, updLane_complete]
    rfl
  · rw [exec_hinitV hr, mapLanes_complete]
    rfl

/-! ### WLOAD.L's micro-steps (O20) -/

section
variable {s : State} {e : Engine} {q : Seq} {l : LaneNo} {b : BitVec 16}

theorem exec_wloadL_start (hr : s.running e q) (hpos : q.pos = .start) (l : LaneNo) (b : BitVec 16) :
    exec (.wloadL l b) s = .next (s.putCur ((e.updLane l Lane.clearWev).moveTo q (.load 0))) := by
  refine (act_running hr _).trans ?_
  rw [hpos]
  rfl

/-- The read of word j. -/
theorem exec_wloadL_load {j : Fin 16} (hr : s.running e q) (hpos : q.pos = .load j)
    (ha : s.admits ((e.lane l).blkaddr b.toNat j) = true) :
    exec (.wloadL l b) s =
      .next (s.putCur ((e.updLane l (·.loadWord j (s.wordAt ((e.lane l).blkaddr b.toNat j)))).moveTo q
        (if h : j.val + 1 < 16 then .load ⟨j.val + 1, h⟩ else .mark))) := by
  refine (act_running hr _).trans ?_
  simp only [hpos, loadWord_of_admits ha, Option.map_some, Option.getD_some, nextIndex_map_getD]

theorem exec_wloadL_mark (hr : s.running e q) (hpos : q.pos = .mark) (l : LaneNo) (b : BitVec 16) :
    exec (.wloadL l b) s = .next (s.putCur (e.updLane l Lane.markLoaded).complete) := by
  refine (act_running hr _).trans ?_
  rw [hpos]
  rfl
end

/-- Settles O20: the three forms of the micro-step. -/
theorem wloadLMakesItsMicroSteps : Obligations.WloadLMakesItsMicroSteps := by
  refine fun s e q l b hr => ⟨fun hpos => exec_wloadL_start hr hpos l b, fun j hpos ha => exec_wloadL_load hr hpos ha,
    fun hpos => ?_⟩
  rw [exec_wloadL_mark hr hpos, updLane_complete]
  rfl

/-! ### WEXPAND (O24, O25) -/

section
variable {s : State} {e : Engine} {q : Seq} {l : LaneNo} {g : Group}

theorem exec_wexpandL_pass (hr : s.running e q) (hl : (e.lane l).expandCheck = none) :
    exec (.wexpandL l) s = .next (s.putCur (e.updLane l (Lane.expandSchedule s.cfg.schedVariant)).complete) := by
  refine (act_running hr _).trans ?_
  rw [hl, Option.map_none, checked_none, Option.getD_some]

theorem exec_wexpandL_fault (hr : s.running e q) (hl : (e.lane l).expandCheck = some g) :
    exec (.wexpandL l) s = .next (s.putCur (e.raise (.uninitRead g l) q.cmd)) := by
  refine (act_running hr _).trans ?_
  rw [hl, Option.map_some, checked_some, Option.getD_some]

theorem exec_wexpandV_pass (hr : s.running e q) (he : e.firstFailing Lane.expandCheck = none) :
    exec .wexpandV s =
      .next (s.putCur (e.mapLanes fun _ => Lane.expandSchedule s.cfg.schedVariant).complete) := by
  refine (act_running hr _).trans ?_
  rw [he, checked_none, Option.getD_some]

theorem exec_wexpandV_fault (hr : s.running e q) (he : e.firstFailing Lane.expandCheck = some (g, l)) :
    exec .wexpandV s = .next (s.putCur (e.raise (.uninitRead g l) q.cmd)) := by
  refine (act_running hr _).trans ?_
  rw [he, checked_some, Option.getD_some]
end

/-- Settles O24: every check passes, and the micro-step is Expand. -/
theorem wexpandExpandsLoadedLanes : Obligations.WexpandExpandsLoadedLanes := by
  refine fun s e q hr => ⟨fun l hl => ?_, fun hall => ?_⟩
  · rw [exec_wexpandL_pass hr ((expandCheck_none_iff _).mpr hl), updLane_complete]
    simp only [Lane.expandSchedule]
  · have he : e.firstFailing Lane.expandCheck = none :=
      (firstFailing_none_iff e _).mpr fun l => (expandCheck_none_iff _).mpr (hall l)
    rw [exec_wexpandV_pass hr he, mapLanes_complete]
    simp only [Lane.expandSchedule]

/-- Settles O25: the lane's check fails on W[0..15], and for WEXPAND.V the lane is the lowest. -/
theorem wexpandFaultsOnUnloadedLanes : Obligations.WexpandFaultsOnUnloadedLanes := by
  intro s e q l hr hl
  have hcheck : (e.lane l).expandCheck = some .block := by rw [Lane.expandCheck, hl]; rfl
  refine ⟨exec_wexpandL_fault hr hcheck, fun hlower => exec_wexpandV_fault hr ?_⟩
  exact firstFailing_some_of_lowest hcheck fun k hk => (expandCheck_none_iff _).mpr (hlower k hk)

/-! ### HSTORE's checks and HSTORE.L's micro-steps (O28, O31) -/

section
variable {s t : State} {e : Engine} {q : Seq} {l : LaneNo}

theorem exec_hstoreL_start (hr : s.running e q) (hpos : q.pos = .start) (hv : (e.lane l).hv = true) :
    exec (.hstoreL l) s = .next (s.putCur (e.moveTo q (.store 0))) := by
  refine (act_running hr _).trans ?_
  simp only [hpos, (storeCheck_none_iff _).mpr hv, Option.map_none, checked_none, Option.getD_some]

/-- The write of digest word j. -/
theorem exec_hstoreL_store {j : Fin 8} (hr : s.running e q) (hpos : q.pos = .store j)
    (ht : s.storeWord ((e.lane l).digaddr j) (e.lane l).h[j] s.turn.draw = some t) :
    exec (.hstoreL l) s =
      .next (t.putCur (e.moveTo q (if h : j.val + 1 < 8 then .store ⟨j.val + 1, h⟩ else .finish))) := by
  refine (act_running hr _).trans ?_
  simp only [hpos, ht, Option.map_some, Option.getD_some, nextIndex_map_getD]

theorem exec_hstoreL_finish (hr : s.running e q) (hpos : q.pos = .finish) (l : LaneNo) :
    exec (.hstoreL l) s = .next (s.putCur e.complete) := by
  refine (act_running hr _).trans ?_
  rw [hpos]
  rfl
end

/-- Settles O28: the forms of the micro-step; a store away from HALT_ADDR stores, one on it is the draw's. -/
theorem hstoreLMakesItsMicroSteps : Obligations.HstoreLMakesItsMicroSteps := by
  refine fun s e q l hr => ⟨exec_hstoreL_start hr, fun j hpos ha hne => ?_, fun j hpos ha heq => ?_,
    fun hpos => exec_hstoreL_finish hr hpos l⟩
  · exact exec_hstoreL_store hr hpos (storeWord_of_admits _ _ ha hne)
  · have hstore := storeWord_haltAddr (e.lane l).h[j] s.turn.draw ha hr.2.2.1
    rw [← heq] at hstore
    refine (exec_hstoreL_store hr hpos hstore).trans ?_
    rw [heq]
    rfl

/-- Settles O31: the lane's check fails on H, and for HSTORE.V the lane is the lowest. -/
theorem hstoreFaultsOnUnwrittenHash : Obligations.HstoreFaultsOnUnwrittenHash := by
  intro s e q l hr hpos hl
  have hcheck : (e.lane l).storeCheck = some .hash := by rw [Lane.storeCheck, hl]; rfl
  refine ⟨?_, fun hlower => ?_⟩
  · refine (act_running hr _).trans ?_
    simp only [hpos, hcheck, Option.map_some, checked_some, Option.getD_some, Engine.raise]
  · have hfirst : e.firstFailing Lane.storeCheck = some (.hash, l) :=
      firstFailing_some_of_lowest hcheck fun k hk => (storeCheck_none_iff _).mpr (hlower k hk)
    refine (act_running hr _).trans ?_
    simp only [hpos, hfirst, checked_some, Option.getD_some, Engine.raise]

/-! ### PROCESS.SCALAR (O32) -/

/-- PROCESS.SCALAR's micro-step is that of LaneSeq (R122). -/
theorem exec_processScalar_at {s : State} {e : Engine} {q : Seq} {l : LaneNo} {p : LanePos} {m : Micro LanePos}
    (n : BitVec 16) (hr : s.running e q) (hpos : q.pos.bodyPos .scalar = some (.scalar l p))
    (hm : s.laneMicro e n.toNat l p = some m) :
    exec (.processScalar n) s =
      .next (m.state.putCur (m.engine.moveTo q (.body (.afterScalar l m.pos)))) := by
  refine (act_running hr _).trans ?_
  rw [processStep_eq_bodyMicro hpos nofun, State.bodyMicro, hm]
  rfl

/-- A lane that has not finished goes on. -/
theorem afterScalar_of_ne_done (l : LaneNo) {p : LanePos} (h : p ≠ .done) : BodyPos.afterScalar l p = .scalar l p :=
  if_neg h

theorem afterBlocks_ne_done (n b : Nat) : LanePos.afterBlocks n b ≠ .done := by
  unfold LanePos.afterBlocks
  split <;> nofun

/-- The position after digest word j is written. -/
theorem afterScalar_store (l : LaneNo) (j : Fin 8) :
    BodyPos.afterScalar l (((nextIndex j).map LanePos.store).getD .done) =
      if h : j.val + 1 < 8 then .scalar l (.store ⟨j.val + 1, h⟩)
      else if h : l.val + 1 < 16 then .scalar ⟨l.val + 1, h⟩ .init else .finished := by
  rw [nextIndex_map_getD]
  by_cases hj : j.val + 1 < 8
  · rw [dif_pos hj, dif_pos hj]
    exact afterScalar_of_ne_done l nofun
  · rw [dif_neg hj, dif_neg hj, BodyPos.afterScalar, if_pos rfl, nextIndex_map_getD]

/-- Settles O32: at each position LaneSeq's micro-step, and once the body has finished the completion. -/
theorem processScalarRunsLaneByLane : Obligations.ProcessScalarRunsLaneByLane := by
  intro s e q n l hr run goes x after
  have at_body {p : LanePos} (hpos : q.pos = .body (.scalar l p)) : q.pos.bodyPos .scalar = some (.scalar l p) :=
    congrArg (Pos.bodyPos .scalar) hpos
  have one_lane {p p' : LanePos} {f : Lane → Lane} (hpos : q.pos.bodyPos .scalar = some (.scalar l p))
      (hm : s.laneMicro e n.toNat l p = some ⟨s, e.updLane l f, p'⟩) (hp : p' ≠ .done) : run = goes (f x) p' := by
    refine (exec_processScalar_at n hr hpos hm).trans ?_
    rw [afterScalar_of_ne_done l hp]
    rfl
  refine ⟨fun hpos hl => ?_,
    fun hpos => one_lane (f := Lane.hinit) (at_body hpos) rfl (afterBlocks_ne_done _ _),
    fun b hpos => one_lane (f := Lane.clearWev) (at_body hpos) rfl nofun,
    fun b j hpos ha => ?_,
    fun b hpos => one_lane (f := Lane.markLoaded) (at_body hpos) rfl nofun,
    fun b hpos => one_lane (f := Lane.expandSchedule s.cfg.schedVariant) (at_body hpos) rfl nofun,
    fun b hpos => one_lane (f := Lane.compressBlock) (at_body hpos) rfl (afterBlocks_ne_done _ _),
    fun j hpos ha hne => ?_, fun hpos => ?_⟩
  · refine one_lane (p := .init) (f := Lane.hinit) ?_ rfl (afterBlocks_ne_done _ _)
    rw [hpos, hl]
    rfl
  · refine one_lane (f := (·.loadWord j (s.wordAt (x.blkaddr b j)))) (at_body hpos) ?_ (by split <;> nofun)
    rw [State.laneMicro, loadWord_of_admits ha, Option.map_some, nextIndex_map_getD]
  · have hm : s.laneMicro e n.toNat l (.store j) = some ⟨s.setWord (x.digaddr j) x.h[j], e,
        ((nextIndex j).map LanePos.store).getD .done⟩ := by
      rw [State.laneMicro, storeWord_of_admits _ _ ha hne, Option.map_some]
    refine (exec_processScalar_at n hr (at_body hpos) hm).trans ?_
    rw [afterScalar_store]
    rfl
  · refine (act_running hr _).trans ?_
    rw [State.processStep, hpos]
    rfl

end Sys2Proof.Proofs
end

section
/-! PROOFS of the scope's obligations of whole commands of the Block Feeder: WLOAD.L (O21) and HSTORE.L (O29). -/

namespace Sys2Proof.Proofs

open Sys2Proof.Machine Sys2Proof.Laws

/-! ### WLOAD.L as a whole (O21) -/

/-- Two changes of one lane are one. -/
theorem updLane_updLane (e : Engine) (l : LaneNo) (f g : Lane → Lane) :
    (e.updLane l f).updLane l g = e.updLane l fun x => g (f x) := by
  simp only [Engine.updLane, Engine.lane, Fin.getElem_fin, Vector.getElem_set_self, Vector.set_set]

theorem updLane_congr (e : Engine) (l : LaneNo) {f g : Lane → Lane} (h : f (e.lane l) = g (e.lane l)) :
    e.updLane l f = e.updLane l g := by
  rw [Engine.updLane, h, Engine.updLane]

/-! A lane in a WLOAD keeps every register but W and WEV. -/

section
variable (s : State) (b n : Nat) (x : Lane)

@[simp] theorem partlyLoaded_h : (partlyLoaded s b n x).h = x.h := by simp only [partlyLoaded]
@[simp] theorem partlyLoaded_v : (partlyLoaded s b n x).v = x.v := by simp only [partlyLoaded]
@[simp] theorem partlyLoaded_hv : (partlyLoaded s b n x).hv = x.hv := by simp only [partlyLoaded]
@[simp] theorem partlyLoaded_wlv : (partlyLoaded s b n x).wlv = x.wlv := by simp only [partlyLoaded]
@[simp] theorem partlyLoaded_vv : (partlyLoaded s b n x).vv = x.vv := by simp only [partlyLoaded]
@[simp] theorem partlyLoaded_inPtr : (partlyLoaded s b n x).inPtr = x.inPtr := by simp only [partlyLoaded]
@[simp] theorem partlyLoaded_outPtr : (partlyLoaded s b n x).outPtr = x.outPtr := by simp only [partlyLoaded]
end

section
variable {s : State} {e : Engine} {q : Seq} {l : LaneNo} {b : BitVec 16}

/-- The state in a WLOAD.L whose last draw was `d`, once the first `n` words are read. -/
def inWloadL (s : State) (e : Engine) (q : Seq) (l : LaneNo) (b : BitVec 16) (d : Draw) (n : Nat) (p : Pos) : State :=
  (withDraw s d).putCur ((e.updLane l (partlyLoaded s b.toNat n)).moveTo q p)

theorem running_inWloadL (hr : s.running e q) (l : LaneNo) (b : BitVec 16) (d d' : Draw) (n : Nat) (p : Pos) :
    (withDraw (inWloadL s e q l b d n p) d').running ((e.updLane l (partlyLoaded s b.toNat n)).moveTo q p)
      { q with pos := p } :=
  running_withDraw_putCur hr d' (moveTo_seq _ q p) hr.2.2.2

/-- The first micro-step: no word is read. -/
theorem exec_wloadL_first (hr : s.running e q) (hpos : q.pos = .start) (l : LaneNo) (b : BitVec 16) (d : Draw) :
    exec (.wloadL l b) (withDraw s d) = .next (inWloadL s e q l b d 0 (.load 0)) := by
  have hrun : (withDraw s d).running e q := hr
  rw [exec_wloadL_start hrun hpos, inWloadL, updLane_congr e l (partlyLoaded_zero s b.toNat (e.lane l))]

/-- The read of word j. -/
theorem exec_inWloadL_load (hr : s.running e q) (d d' : Draw) {j : Fin 16}
    (ha : s.admits ((e.lane l).blkaddr b.toNat j) = true) :
    exec (.wloadL l b) (withDraw (inWloadL s e q l b d j (.load j)) d') =
      .next (inWloadL s e q l b d' (j + 1) (if h : j.val + 1 < 16 then .load ⟨j.val + 1, h⟩ else .mark)) := by
  have haddr : (((e.updLane l (partlyLoaded s b.toNat j)).moveTo q (.load j)).lane l).blkaddr b.toNat j =
      (e.lane l).blkaddr b.toNat j := by
    rw [lane_moveTo, lane_updLane_same, blkaddr_partlyLoaded]
  have hexec := exec_wloadL_load (running_inWloadL hr l b d d' j (.load j)) rfl (l := l) (b := b)
    (by rw [haddr]; exact ha)
  have hword : (withDraw (inWloadL s e q l b d j (.load j)) d').wordAt ((e.lane l).blkaddr b.toNat j) =
      s.wordAt ((e.lane l).blkaddr b.toNat j) := rfl
  rw [haddr, hword, updLane_moveTo, moveTo_moveTo, updLane_updLane,
    updLane_congr e l (loadWord_partlyLoaded s b.toNat (e.lane l) j)] at hexec
  exact hexec.trans (congrArg _ (putCur_putCur (withDraw s d') _ _))

/-- The last micro-step: the 16 words are read. -/
theorem exec_inWloadL_mark (hr : s.running e q) (l : LaneNo) (b : BitVec 16) (d d' : Draw) (n : Nat) :
    exec (.wloadL l b) (withDraw (inWloadL s e q l b d n .mark) d') =
      .next ((withDraw s d').putCur (e.updLane l fun x => (partlyLoaded s b.toNat n x).markLoaded).complete) := by
  rw [exec_wloadL_mark (running_inWloadL hr l b d d' n .mark) rfl, updLane_moveTo, updLane_updLane]
  exact congrArg _ (putCur_putCur (withDraw s d') _ _)

/-- The rest of a WLOAD.L from the read of word j. -/
theorem turns_inWloadL (hr : s.running e q) (ha : ∀ j : Fin 16, s.admits ((e.lane l).blkaddr b.toNat j) = true)
    (ds : List Draw) (d : Draw) (j : Fin 16) (hlen : ds.length = 17 - j.val) :
    ∃ d', turns (.wloadL l b) ds (inWloadL s e q l b d j (.load j)) =
      .next ((withDraw s d').putCur (e.updLane l fun x => (partlyLoaded s b.toNat 16 x).markLoaded).complete) := by
  induction ds generalizing d j with
  | nil => rw [List.length_nil] at hlen; omega
  | cons d' ds ih =>
    rw [turns_cons (exec_inWloadL_load hr d d' (ha j))]
    rw [List.length_cons] at hlen
    by_cases hj : j.val + 1 < 16
    · rw [dif_pos hj]
      exact ih d' ⟨j.val + 1, hj⟩ (by simp only; omega)
    · obtain ⟨d'', rfl⟩ := List.length_eq_one_iff.mp (show ds.length = 1 by omega)
      have hlast : j.val + 1 = 16 := by omega
      rw [dif_neg hj, hlast, turns_cons (exec_inWloadL_mark hr l b d' d'' _)]
      exact ⟨d'', rfl⟩
end

/-- Settles O21: after the first micro-step, 16 reads and the last micro-step the lane holds its block. -/
theorem wloadLLoadsTheWholeBlock : Obligations.WloadLLoadsTheWholeBlock := by
  intro s e q l b ds hr hpos ha hlen
  obtain ⟨d, ds, rfl⟩ := List.exists_cons_of_length_eq_add_one hlen
  obtain ⟨d', hturns⟩ := turns_inWloadL hr ha ds d 0 (by simpa using hlen)
  obtain ⟨hw, hwlv, hwev, hh, hv⟩ := markLoaded_partlyLoaded s b.toNat (e.lane l)
  refine ⟨_, _, (turns_cons (exec_wloadL_first hr hpos l b d) ds).trans hturns, cur_putCur (s := withDraw s d') hr.1 _,
    rfl, rfl, ?_⟩
  rw [lane_complete, lane_updLane_same]
  exact ⟨hw, hwlv, hwev, hh, by simp, hv, by simp, by simp, by simp,
    fun k hk => (lane_complete _ k).trans (lane_updLane_other e _ hk), controlKept_complete (controlKept_updLane e l _),
    othersKept_putCur (withDraw s d') _⟩

/-! ### Words of memory -/

theorem admits_congr {s t : State} (h : t.cfg = s.cfg) (a : Addr) : t.admits a = s.admits a := by
  simp only [State.admits, State.provides, h]

/-- Two words at aligned addresses are one or have no byte in common (R54). -/
theorem aligned_apart {a b : Addr} (ha : a.toNat % 4 = 0) (hb : b.toNat % 4 = 0) (hne : b ≠ a) {k : Nat} (hk : k < 4) :
    b.toNat + k < a.toNat ∨ a.toNat + 4 ≤ b.toNat + k := by
  have : b.toNat ≠ a.toNat := fun h => hne (BitVec.eq_of_toNat_eq h)
  omega

/-- A word elsewhere reads as before. -/
theorem wordAt_eq_of_memKeptOutside {s t : State} {a b : Addr} (hc : t.cfg = s.cfg) (h : s.memKeptOutside t a)
    (ha : a.toNat % 4 = 0) (hb : b.toNat % 4 = 0) (hne : b ≠ a) : t.wordAt b = s.wordAt b := by
  have byte {k : Nat} (hk : k < 4) : t.readByte (b.toNat + k) = s.readByte (b.toNat + k) :=
    h _ (aligned_apart ha hb hne hk)
  rw [wordAt_eq_wordOfBytes, wordAt_eq_wordOfBytes, hc, byte (by decide), byte (by decide), byte (by decide),
    byte (by decide)]

/-- The 8 digest words of a lane stand at 8 addresses (R105). -/
theorem digaddr_injective (x : Lane) {i j : Fin 8} (h : x.digaddr i = x.digaddr j) : i = j := by
  have h4 := congrArg BitVec.toNat (add_left_cancel (G := Addr) h)
  simp only [BitVec.toNat_ofNat] at h4
  omega

/-- The word just stored reads back, and a word at another aligned address reads as before. -/
theorem wordAt_setWord {s : State} {a b : Addr} (v : Word) (hw : s.memWf) (ha : a.toNat % 4 = 0)
    (hb : b.toNat % 4 = 0) : (s.setWord a v).wordAt b = if b = a then v else s.wordAt b := by
  split
  case isTrue h => rw [h, wordAt_setWord_same v hw (aligned_room ha)]
  case isFalse h => exact wordAt_eq_of_memKeptOutside rfl (memKeptOutside_setWord v hw (aligned_room ha)) ha hb h

/-! ### HSTORE.L as a whole (O29) -/

/-- The state once the first `n` digest words of the lane are stored. -/
def digestStored (s : State) (x : Lane) : Nat → State
  | 0 => s
  | n + 1 => if h : n < 8 then (digestStored s x n).setWord (x.digaddr n) x.h[n] else digestStored s x n

theorem digestStored_succ (s : State) (x : Lane) (j : Fin 8) :
    digestStored s x (j + 1) = (digestStored s x j).setWord (x.digaddr j) x.h[j] := dif_pos j.isLt

/-- Storing digest words changes memory alone. -/
theorem digestStored_kept (s : State) (x : Lane) (n : Nat) :
    digestStored s x n = { s with mem := (digestStored s x n).mem } := by
  induction n with
  | zero => rfl
  | succ n ih =>
    rw [digestStored]
    split
    · rw [State.setWord, ih]
    · exact ih

theorem digestStored_cfg (s : State) (x : Lane) (n : Nat) : (digestStored s x n).cfg = s.cfg := by
  rw [digestStored_kept]

theorem cur_digestStored (s : State) (x : Lane) (n : Nat) : (digestStored s x n).cur = s.cur := by
  rw [digestStored_kept]
  rfl

section
variable {s : State} {x : Lane} (hw : s.memWf) (hx : ∀ j : Fin 8, (x.digaddr j).toNat % 4 = 0)
include hw hx

theorem memWf_digestStored (n : Nat) : (digestStored s x n).memWf := by
  induction n with
  | zero => exact hw
  | succ n ih =>
    rw [digestStored]
    split
    case isTrue h => exact wf_writeWord _ _ _ _ _ ih (aligned_room (hx ⟨n, h⟩))
    case isFalse => exact ih

/-- The stored digest words read back. -/
theorem wordAt_digestStored (j : Fin 8) {n : Nat} (hn : n ≤ 8) (hj : j.val < n) :
    (digestStored s x n).wordAt (x.digaddr j) = x.h[j] := by
  induction n with
  | zero => cases hj
  | succ n ih =>
    rw [digestStored_succ s x ⟨n, hn⟩, wordAt_setWord _ (memWf_digestStored hw hx n) (hx ⟨n, hn⟩) (hx j)]
    split
    case isTrue h => rw [digaddr_injective x h]
    case isFalse h =>
      refine ih (by omega) (Nat.lt_of_le_of_ne (Nat.le_of_lt_succ hj) fun hjn => h ?_)
      rw [hjn]

/-- Every byte outside the digest words reads as before. -/
theorem readByte_digestStored (n : Nat) {a : Nat}
    (ha : ∀ j : Fin 8, a < (x.digaddr j).toNat ∨ (x.digaddr j).toNat + 4 ≤ a) :
    (digestStored s x n).readByte a = s.readByte a := by
  induction n with
  | zero => rfl
  | succ n ih =>
    rw [digestStored]
    split
    case isTrue h =>
      exact (memKeptOutside_setWord _ (memWf_digestStored hw hx n) (aligned_room (hx ⟨n, h⟩)) a (ha ⟨n, h⟩)).trans ih
    case isFalse => exact ih
end

section
variable {s : State} {e : Engine} {q : Seq} {l : LaneNo}

/-- The state in an HSTORE.L whose last draw was `d`, once the first `n` words are stored. -/
def inHstoreL (s : State) (e : Engine) (q : Seq) (l : LaneNo) (d : Draw) (n : Nat) (p : Pos) : State :=
  (withDraw (digestStored s (e.lane l) n) d).putCur (e.moveTo q p)

theorem running_inHstoreL (hr : s.running e q) (l : LaneNo) (d d' : Draw) (n : Nat) (p : Pos) :
    (withDraw (inHstoreL s e q l d n p) d').running (e.moveTo q p) { q with pos := p } := by
  obtain ⟨hc, hq, hg, hf⟩ := hr
  have hrun : (digestStored s (e.lane l) n).running e q :=
    ⟨(cur_digestStored ..).trans hc, hq, by rwa [digestStored_kept], hf⟩
  exact running_withDraw_putCur hrun d' (moveTo_seq e q p) hf

/-- The first micro-step: no word is stored. -/
theorem exec_hstoreL_first (hr : s.running e q) (hpos : q.pos = .start) (hv : (e.lane l).hv = true) (d : Draw) :
    exec (.hstoreL l) (withDraw s d) = .next (inHstoreL s e q l d 0 (.store 0)) := by
  have hrun : (withDraw s d).running e q := hr
  rw [exec_hstoreL_start hrun hpos hv, inHstoreL, digestStored]

/-- The write of digest word j. -/
theorem exec_inHstoreL_store (hr : s.running e q) (d d' : Draw) {j : Fin 8}
    (ha : s.admits ((e.lane l).digaddr j) = true) (hne : (e.lane l).digaddr j ≠ s.cfg.haltAddr) :
    exec (.hstoreL l) (withDraw (inHstoreL s e q l d j (.store j)) d') =
      .next (inHstoreL s e q l d' (j + 1) (if h : j.val + 1 < 8 then .store ⟨j.val + 1, h⟩ else .finish)) := by
  have hcfg : (withDraw (inHstoreL s e q l d j (.store j)) d').cfg = s.cfg := digestStored_cfg s (e.lane l) j
  have hstore := storeWord_of_admits (s := withDraw (inHstoreL s e q l d j (.store j)) d') (e.lane l).h[j]
    d' (by rwa [admits_congr hcfg]) (by rwa [hcfg])
  refine (exec_hstoreL_store (running_inHstoreL hr l d d' j (.store j)) rfl hstore).trans ?_
  rw [inHstoreL, inHstoreL, digestStored_succ]
  exact congrArg _ (putCur_putCur (withDraw ((digestStored s (e.lane l) j).setWord _ _) d') _ _)

theorem exec_inHstoreL_finish (hr : s.running e q) (d d' : Draw) (n : Nat) :
    exec (.hstoreL l) (withDraw (inHstoreL s e q l d n .finish) d') =
      .next ((withDraw (digestStored s (e.lane l) n) d').putCur e.complete) := by
  rw [exec_hstoreL_finish (running_inHstoreL hr l d d' n .finish) rfl]
  exact congrArg _ (putCur_putCur (withDraw (digestStored s (e.lane l) n) d') _ _)

/-- The rest of an HSTORE.L from the write of digest word j. -/
theorem turns_inHstoreL (hr : s.running e q) (ha : ∀ j : Fin 8, s.admits ((e.lane l).digaddr j) = true)
    (hne : ∀ j : Fin 8, (e.lane l).digaddr j ≠ s.cfg.haltAddr) (ds : List Draw) (d : Draw) (j : Fin 8)
    (hlen : ds.length = 9 - j.val) :
    ∃ d', turns (.hstoreL l) ds (inHstoreL s e q l d j (.store j)) =
      .next ((withDraw (digestStored s (e.lane l) 8) d').putCur e.complete) := by
  induction ds generalizing d j with
  | nil => rw [List.length_nil] at hlen; omega
  | cons d' ds ih =>
    rw [turns_cons (exec_inHstoreL_store hr d d' (ha j) (hne j))]
    rw [List.length_cons] at hlen
    by_cases hj : j.val + 1 < 8
    · rw [dif_pos hj]
      exact ih d' ⟨j.val + 1, hj⟩ (by simp only; omega)
    · obtain ⟨d'', rfl⟩ := List.length_eq_one_iff.mp (show ds.length = 1 by omega)
      have hlast : j.val + 1 = 8 := by omega
      rw [dif_neg hj, hlast, turns_cons (exec_inHstoreL_finish hr d' d'' _)]
      exact ⟨d'', rfl⟩
end

/-- Settles O29: after the check, 8 writes and the completion the digest words stand in memory. -/
theorem hstoreLStoresTheDigest : Obligations.HstoreLStoresTheDigest := by
  intro s e q l ds hr hpos hw hv ha hne hlen
  obtain ⟨d, ds, rfl⟩ := List.exists_cons_of_length_eq_add_one hlen
  obtain ⟨d', hturns⟩ := turns_inHstoreL hr ha hne ds d 0 (by simpa using hlen)
  have hx (j : Fin 8) : ((e.lane l).digaddr j).toNat % 4 = 0 := admits_aligned (ha j)
  have words (j : Fin 8) := wordAt_digestStored hw hx j le_rfl j.isLt
  have frame (a : Nat) := readByte_digestStored hw hx 8 (a := a)
  have kept := digestStored_kept s (e.lane l) 8
  generalize digestStored s (e.lane l) 8 = u at hturns words frame kept
  rw [kept] at hturns words frame
  exact ⟨_, _, (turns_cons (exec_hstoreL_first hr hpos hv d) ds).trans hturns,
    cur_putCur (s := withDraw { s with mem := u.mem } d') hr.1 _, rfl, words, frame, fun _ => rfl,
    controlKept_complete (controlKept_refl e), othersKept_putCur (withDraw { s with mem := u.mem } d') _, hr.2.2.1⟩

end Sys2Proof.Proofs
end

section
/-! PROOFS about one lane in LaneSeq (R121), for the scope's obligation of the digests a PROCESS leaves (O35): what the
lane and memory hold at each position, and that each micro-step leads from there to what the next position says. -/

namespace Sys2Proof.Proofs

open Sys2Proof.Machine Sys2Proof.Laws

/-! ### A lane at a position of LaneSeq (R121) -/

section
variable (s : State) (x : Lane)

/-- The lane once `b` blocks are folded from IV, as the memory of `s` holds them (R112, R121). -/
def folded : Nat → Lane
  | 0 => x.hinit
  | b + 1 => ((partlyLoaded s b 16 (folded b)).markLoaded.expandSchedule s.cfg.schedVariant).compressBlock

/-- What the lane holds at a position of LaneSeq over `n` blocks. -/
def laneAt (n : Nat) : LanePos → Lane
  | .init => x
  | .clear b => folded s x b
  | .load b j => partlyLoaded s b j (folded s x b)
  | .mark b => partlyLoaded s b 16 (folded s x b)
  | .expand b => (partlyLoaded s b 16 (folded s x b)).markLoaded
  | .compress b => (partlyLoaded s b 16 (folded s x b)).markLoaded.expandSchedule s.cfg.schedVariant
  | .store _ | .done => folded s x n

theorem folded_tables (b : Nat) : (folded s x b).inPtr = x.inPtr ∧ (folded s x b).outPtr = x.outPtr := by
  induction b with
  | zero => exact ⟨rfl, rfl⟩
  | succ b ih => simpa [folded] using ih

theorem laneAt_tables (n : Nat) (p : LanePos) :
    (laneAt s x n p).inPtr = x.inPtr ∧ (laneAt s x n p).outPtr = x.outPtr := by
  cases p with
  | init => exact ⟨rfl, rfl⟩
  | _ => simpa [laneAt] using folded_tables s x _

theorem blkaddr_laneAt (n : Nat) (p : LanePos) (b j : Nat) : (laneAt s x n p).blkaddr b j = x.blkaddr b j := by
  rw [Lane.blkaddr, (laneAt_tables s x n p).1, Lane.blkaddr]

theorem digaddr_laneAt (n : Nat) (p : LanePos) (j : Nat) : (laneAt s x n p).digaddr j = x.digaddr j := by
  rw [Lane.digaddr, (laneAt_tables s x n p).2, Lane.digaddr]

/-- Between blocks the lane holds the blocks folded. -/
theorem laneAt_afterBlocks {n b : Nat} (hb : b ≤ n) : laneAt s x n (.afterBlocks n b) = folded s x b := by
  unfold LanePos.afterBlocks
  split
  case isTrue => rfl
  case isFalse h => rw [laneAt, le_antisymm hb (Nat.le_of_not_lt h)]
end

/-! ### The fold of the blocks is HashBlocks (R112) -/

theorem foldBlocks_append (v : SchedVariant) (bs bs' : List (Vector Word 16)) (h : Vector Word 8) :
    foldBlocks v (bs ++ bs') h = foldBlocks v bs' (foldBlocks v bs h) := by
  induction bs generalizing h with
  | nil => rfl
  | cons b bs ih => exact ih _

/-- Expand reads 16 words alone (R104). -/
theorem expand_congr (v : SchedVariant) {w w' : Vector Word 64} (h : ∀ i (hi : i < 16), w[i] = w'[i]) :
    expand v w = expand v w' := by
  have hhead : w.toList.take 16 = w'.toList.take 16 := by
    refine List.ext_getElem (by simp) fun i hi _ => ?_
    have hi16 : i < 16 := by simpa using hi
    simpa using h i hi16
  simp only [expand, hhead]

/-- The schedule of a loaded lane is the loaded block's. -/
theorem expand_partlyLoaded (v : SchedVariant) (s : State) (b : Nat) (x : Lane) :
    expand v (partlyLoaded s b 16 x).w = expand v (blockFile (s.blockAt x b)) := by
  refine expand_congr v fun i hi => ?_
  simp [partlyLoaded, blockFile, State.blockAt, hi]

theorem blockAt_folded (s : State) (x : Lane) (b c : Nat) : s.blockAt (folded s x b) c = s.blockAt x c := by
  have haddr (j : Nat) : (folded s x b).blkaddr c j = x.blkaddr c j := by
    rw [Lane.blkaddr, (folded_tables s x b).1, Lane.blkaddr]
  simp only [State.blockAt, haddr]

theorem digestOf_succ (s : State) (x : Lane) (b : Nat) :
    s.digestOf x (b + 1) =
      compressed (s.digestOf x b) (expand s.cfg.schedVariant (blockFile (s.blockAt x b))) := by
  rw [State.digestOf, State.blocksAt, List.range_succ, List.map_append, hashBlocks, foldBlocks_append]
  rfl

/-- The folded lane's hash state is HashBlocks of the blocks. -/
theorem folded_h (s : State) (x : Lane) (b : Nat) : (folded s x b).h = s.digestOf x b := by
  induction b with
  | zero => rfl
  | succ b ih =>
    rw [folded, compressBlock_h, expandSchedule_h, expandSchedule_w, markLoaded_h, markLoaded_w, partlyLoaded_h,
      expand_partlyLoaded, blockAt_folded, ih, digestOf_succ]

/-! ### What holds of one lane inside a body -/

/-- The position after the read of word j (R121). -/
def afterLoad (b : Nat) (j : Fin 16) : LanePos := ((nextIndex j).map (LanePos.load b)).getD (.mark b)

/-- The position after the write of digest word j (R121). -/
def afterStore (j : Fin 8) : LanePos := ((nextIndex j).map LanePos.store).getD .done

/-- How many digest words are written at a position. -/
def wordsStored : LanePos → Nat
  | .store j => j
  | .done => 8
  | _ => 0

/-- All blocks are read. -/
def pastBlocks : LanePos → Bool
  | .store _ | .done => true
  | _ => false

theorem afterLoad_eq (b : Nat) (j : Fin 16) :
    afterLoad b j = if h : j.val + 1 < 16 then .load b ⟨j.val + 1, h⟩ else .mark b := nextIndex_map_getD j _ _

theorem afterStore_eq (j : Fin 8) :
    afterStore j = if h : j.val + 1 < 8 then .store ⟨j.val + 1, h⟩ else .done := nextIndex_map_getD j _ _

theorem wordsStored_afterStore (j : Fin 8) : wordsStored (afterStore j) = j + 1 := by
  rw [afterStore_eq]
  split
  · rfl
  · simp only [wordsStored]; omega

theorem pastBlocks_afterStore (j : Fin 8) : pastBlocks (afterStore j) = true := by
  rw [afterStore_eq]
  split <;> rfl

/-- The lane that was `x` in `s`, at the acceptance of a PROCESS of `n` blocks, has come to position `p` in `t` and is `y`:
its registers are LaneSeq's; until the last block is read, its blocks are in memory as they were; and the digest
words written so far stand in memory. -/
structure LaneInv (s t : State) (n : Nat) (x y : Lane) (p : LanePos) : Prop where
  fits : p.fits n = true
  regs : y = laneAt s x n p
  blocks : pastBlocks p = false → ∀ b < n, ∀ j : Fin 16, (x.blkaddr b j).toNat % 4 = 0 →
    t.wordAt (x.blkaddr b j) = s.wordAt (x.blkaddr b j)
  digest : ∀ j : Fin 8, j.val < wordsStored p →
    (x.digaddr j).toNat % 4 = 0 ∧ t.wordAt (x.digaddr j) = (s.digestOf x n)[j]

theorem laneInv_init (s : State) (n : Nat) (x : Lane) : LaneInv s s n x x .init where
  fits := rfl
  regs := rfl
  blocks _ _ _ _ _ := rfl
  digest _ hj := nomatch hj

section
variable {s t u : State} {n : Nat} {x y : Lane} {p : LanePos}

/-- The lane moves on without a store. -/
theorem LaneInv.move (h : LaneInv s t n x y p) {y' : Lane} {p' : LanePos} (hfits : p'.fits n = true)
    (hregs : y' = laneAt s x n p') (hp : pastBlocks p = false) (hp' : wordsStored p' = 0) :
    LaneInv s t n x y' p' where
  fits := hfits
  regs := hregs
  blocks _ := h.blocks hp
  digest j hj := by rw [hp'] at hj; exact absurd hj (Nat.not_lt_zero _)

theorem wordsStored_afterBlocks (n b : Nat) : wordsStored (.afterBlocks n b) = 0 := by
  unfold LanePos.afterBlocks
  split <;> rfl

/-- A word is stored that is none of the lane's. -/
theorem LaneInv.store_elsewhere (h : LaneInv s t n x y p) {a : Addr} (hcfg : u.cfg = t.cfg)
    (hkept : t.memKeptOutside u a) (ha : a.toNat % 4 = 0) (hblk : ∀ b < n, ∀ j : Fin 16, x.blkaddr b j ≠ a)
    (hdig : ∀ j : Fin 8, x.digaddr j ≠ a) : LaneInv s u n x y p where
  fits := h.fits
  regs := h.regs
  blocks hp b hb j hj :=
    (wordAt_eq_of_memKeptOutside hcfg hkept ha hj (hblk b hb j)).trans (h.blocks hp b hb j hj)
  digest j hj := by
    obtain ⟨hal, hword⟩ := h.digest j hj
    exact ⟨hal, (wordAt_eq_of_memKeptOutside hcfg hkept ha hal (hdig j)).trans hword⟩

/-- The lane writes its digest word j. -/
theorem LaneInv.store {j : Fin 8} (h : LaneInv s t n x y (.store j)) (hw : t.memWf)
    (ha : t.admits (y.digaddr j) = true) : LaneInv s (t.setWord (y.digaddr j) y.h[j]) n x y (afterStore j) where
  fits := by rw [afterStore_eq]; split <;> rfl
  regs := by rw [h.regs, afterStore_eq]; split <;> rfl
  blocks hp := by rw [pastBlocks_afterStore] at hp; cases hp
  digest i hi := by
    have haddr : y.digaddr j = x.digaddr j := by rw [h.regs, digaddr_laneAt]
    have hdigest : y.h = s.digestOf x n := by rw [h.regs, laneAt, folded_h]
    rw [haddr] at ha ⊢
    rw [hdigest]
    have hal := admits_aligned ha
    rw [wordsStored_afterStore] at hi
    by_cases hij : i = j
    · rw [hij]
      exact ⟨hal, wordAt_setWord_same _ hw (aligned_room hal)⟩
    · have hlt : i.val < j.val := Nat.lt_of_le_of_ne (Nat.le_of_lt_succ hi) fun hv => hij (Fin.ext hv)
      obtain ⟨hial, hword⟩ := h.digest i hlt
      refine ⟨hial, ?_⟩
      rw [wordAt_setWord _ hw hal hial, if_neg fun heq => hij (digaddr_injective x heq), hword]

/-- A micro-step of LaneSeq, on the lane itself (R121). -/
theorem LaneInv.step {e : Engine} {l : LaneNo} {m : Micro LanePos} (h : LaneInv s t n x (e.lane l) p)
    (hcfg : t.cfg = s.cfg) (hw : t.memWf) (hport : ∀ j : Fin 8, x.digaddr j ≠ s.cfg.haltAddr)
    (hm : t.laneMicro e n l p = some m) : LaneInv s m.state n x (m.engine.lane l) m.pos := by
  cases p <;> simp only [State.laneMicro, Option.map_eq_some_iff, Option.some.injEq] at hm
  case init =>
    subst hm
    rw [lane_updLane_same]
    refine h.move (lanePos_afterBlocks_fits n 0) ?_ rfl (wordsStored_afterBlocks n 0)
    rw [laneAt_afterBlocks s x (Nat.zero_le n), h.regs]
    rfl
  case clear b =>
    subst hm
    rw [lane_updLane_same]
    refine h.move h.fits ?_ rfl rfl
    rw [h.regs]
    exact (partlyLoaded_zero s b _).symm
  case load b j =>
    obtain ⟨v, hv, rfl⟩ := hm
    obtain ⟨ha, rfl⟩ := loadWord_some hv
    have haddr : (e.lane l).blkaddr b j = x.blkaddr b j := by rw [h.regs, blkaddr_laneAt]
    have hword : t.wordAt ((e.lane l).blkaddr b j) = s.wordAt ((folded s x b).blkaddr b j) := by
      rw [haddr] at ha ⊢
      rw [h.blocks rfl b (of_decide_eq_true h.fits) j (admits_aligned ha)]
      exact congrArg _ (blkaddr_laneAt s x n (.clear b) b j).symm
    rw [lane_updLane_same, hword, h.regs, laneAt, loadWord_partlyLoaded, nextIndex_map_getD]
    split
    case isTrue => exact h.move h.fits rfl rfl rfl
    case isFalse hj =>
      have hlast : j.val + 1 = 16 := by omega
      exact h.move h.fits (by rw [hlast, laneAt]) rfl rfl
  case mark b =>
    subst hm
    rw [lane_updLane_same, h.regs]
    exact h.move h.fits rfl rfl rfl
  case expand b =>
    subst hm
    rw [lane_updLane_same, h.regs, hcfg]
    exact h.move h.fits rfl rfl rfl
  case compress b =>
    subst hm
    rw [lane_updLane_same, h.regs]
    refine h.move (lanePos_afterBlocks_fits n (b + 1)) ?_ rfl (wordsStored_afterBlocks n _)
    rw [laneAt_afterBlocks s x (of_decide_eq_true h.fits)]
    rfl
  case store j =>
    obtain ⟨u, hu, rfl⟩ := hm
    have haddr : (e.lane l).digaddr j = x.digaddr j := by rw [h.regs, digaddr_laneAt]
    obtain ⟨ha, ⟨-, rfl⟩ | ⟨heq, -⟩⟩ := storeWord_some hu
    · exact h.store hw ha
    · exact absurd (haddr.symm.trans heq) (hcfg ▸ hport j)
  case done => cases hm
end

end Sys2Proof.Proofs
end

section
/-! PROOFS of the scope's obligation of the digests a PROCESS leaves (O35): a body of any strategy makes, lane by lane,
LaneSeq's micro-steps, so that each lane's part of R125 holds at every position of the body. -/

namespace Sys2Proof.Proofs

open Sys2Proof.Machine Sys2Proof.Laws

/-! ### A body makes LaneSeq's micro-steps, lane by lane (R122 to R124) -/

/-- Where lane `k` of the vector sequence stands in LaneSeq: in a gather or scatter step, before its access while it
waits, and past it then. -/
def lanePosOfVec (p : VecPos) (k : LaneNo) : LanePos :=
  match p with
  | .init => .init
  | .clear b => .clear b
  | .gather b j todo => if k ∈ todo then .load b j else afterLoad b j
  | .mark b => .mark b
  | .expand b => .expand b
  | .compress b => .compress b
  | .scatter j todo => if k ∈ todo then .store j else afterStore j
  | .done => .done

/-- Where lane `k` of a body stands in LaneSeq. -/
def lanePosOf (b : BodyPos) (k : LaneNo) : LanePos :=
  match b with
  | .scalar l p => if k < l then .done else if k = l then p else .init
  | .vector p => lanePosOfVec p k
  | .spmd ps => ps[k]
  | .finished => .done

/-- No lane waits twice in a gather or scatter step. -/
def waitsOnce : BodyPos → Prop
  | .vector (.gather _ _ todo) | .vector (.scatter _ todo) => todo.Nodup
  | _ => True

/-- One micro-step of a body, seen from its lanes at the positions `P`: one lane makes its next micro-step of LaneSeq,
or all make theirs at once, none of them a store, or none does. -/
inductive LanesStep (s : State) (e : Engine) (n : Nat) (P : LaneNo → LanePos) :
    State → Engine → (LaneNo → LanePos) → Prop
  | one (l : LaneNo) (m : Micro LanePos) (h : s.laneMicro e n l (P l) = some m) :
    LanesStep s e n P m.state m.engine (Function.update P l m.pos)
  | all (e' : Engine) (P' : LaneNo → LanePos)
    (h : ∀ l, ∃ m, s.laneMicro e n l (P l) = some m ∧ m.state = s ∧ m.engine.lane l = e'.lane l ∧ m.pos = P' l) :
    LanesStep s e n P s e' P'
  | join : LanesStep s e n P s e P

section
variable {s : State} {e : Engine} {n : Nat}

theorem lanePosOf_start (st : Strategy) (k : LaneNo) : lanePosOf (.start st) k = .init := by
  cases st with
  | scalar => simp [BodyPos.start, lanePosOf]
  | vector => rfl
  | spmd => simp [BodyPos.start, lanePosOf]

/-- A lane that has finished is where the next lane's start finds it. -/
theorem lanePosOf_afterScalar (l : LaneNo) (p : LanePos) : lanePosOf (.afterScalar l p) = lanePosOf (.scalar l p) := by
  funext k
  by_cases hp : p = .done
  · subst hp
    rw [BodyPos.afterScalar, if_pos rfl, nextIndex_map_getD]
    split
    case isTrue h =>
      have hlt : k < (⟨l.val + 1, h⟩ : LaneNo) ↔ k < l ∨ k = l := by simp only [Fin.lt_def, Fin.ext_iff]; omega
      simp only [lanePosOf, ite_self, hlt, ite_or]
    case isFalse h =>
      have hle : k < l ∨ k = l := by simp only [Fin.lt_def, Fin.ext_iff]; omega
      simp only [lanePosOf, ← ite_or, if_pos hle]
  · rw [afterScalar_of_ne_done l hp]

theorem lanePosOf_afterVector (p : VecPos) : lanePosOf (.afterVector p) = lanePosOfVec p := by
  unfold BodyPos.afterVector
  split
  case isTrue h => rw [h]; rfl
  case isFalse => rfl

/-- Once no lane waits, every lane stands before the next gather step, or past the last. -/
theorem lanePosOfVec_gatherNext (b : Nat) (j : Fin 16) (todo : List LaneNo) :
    lanePosOfVec (.gatherNext b j todo) = lanePosOfVec (.gather b j todo) := by
  funext k
  unfold VecPos.gatherNext
  split
  case isTrue h =>
    subst h
    rw [nextIndex_map_getD]
    split <;> simp [lanePosOfVec, allLanes, afterLoad_eq, *]
  case isFalse => rfl

theorem lanePosOfVec_scatterNext (j : Fin 8) (todo : List LaneNo) :
    lanePosOfVec (.scatterNext j todo) = lanePosOfVec (.scatter j todo) := by
  funext k
  unfold VecPos.scatterNext
  split
  case isTrue h =>
    subst h
    rw [nextIndex_map_getD]
    split <;> simp [lanePosOfVec, allLanes, afterStore_eq, *]
  case isFalse => rfl

theorem lanePosOfVec_afterBlocks (n b : Nat) : lanePosOfVec (.afterBlocks n b) = fun _ => .afterBlocks n b := by
  funext k
  unfold VecPos.afterBlocks LanePos.afterBlocks
  split <;> simp [lanePosOfVec, allLanes]

/-- The lane that has been drawn waits no longer. -/
theorem ite_mem_erase {α : Type} {todo : List LaneNo} {l : LaneNo} (hnd : todo.Nodup) (a b : α) :
    (fun k => if k ∈ todo.erase l then a else b) = Function.update (fun k => if k ∈ todo then a else b) l b := by
  funext k
  by_cases hk : k = l
  · subst hk
    rw [Function.update_self, if_neg hnd.not_mem_erase]
  · rw [Function.update_of_ne hk]
    simp only [List.mem_erase_of_ne hk]

theorem lanePosOfVec_gather_erase {todo : List LaneNo} (hnd : todo.Nodup) (b : Nat) (j : Fin 16) (l : LaneNo) :
    lanePosOfVec (.gather b j (todo.erase l)) =
      Function.update (lanePosOfVec (.gather b j todo)) l (afterLoad b j) := ite_mem_erase hnd _ _

theorem lanePosOfVec_scatter_erase {todo : List LaneNo} (hnd : todo.Nodup) (j : Fin 8) (l : LaneNo) :
    lanePosOfVec (.scatter j (todo.erase l)) =
      Function.update (lanePosOfVec (.scatter j todo)) l (afterStore j) := ite_mem_erase hnd _ _

/-- A micro-step of the vector sequence. -/
theorem vecMicro_lanesStep {p : VecPos} {m : Micro VecPos} (hnd : waitsOnce (.vector p))
    (hm : s.vecMicro e n p = some m) :
    LanesStep s e n (lanePosOfVec p) m.state m.engine (lanePosOfVec m.pos) := by
  cases p <;> simp only [State.vecMicro, Option.bind_eq_some_iff, Option.map_eq_some_iff, Option.some.injEq] at hm
  case init =>
    subst hm
    refine .all _ _ fun l => ⟨_, rfl, rfl, ?_, ?_⟩
    · rw [lane_updLane_same, lane_mapLanes]
    · rw [lanePosOfVec_afterBlocks]
  case clear b =>
    subst hm
    refine .all _ _ fun l => ⟨_, rfl, rfl, ?_, ?_⟩
    · rw [lane_updLane_same, lane_mapLanes]
    · simp [lanePosOfVec, allLanes]
  case mark b =>
    subst hm
    exact .all _ _ fun l => ⟨_, rfl, rfl, by rw [lane_updLane_same, lane_mapLanes], rfl⟩
  case expand b =>
    subst hm
    exact .all _ _ fun l => ⟨_, rfl, rfl, by rw [lane_updLane_same, lane_mapLanes], rfl⟩
  case compress b =>
    subst hm
    refine .all _ _ fun l => ⟨_, rfl, rfl, ?_, ?_⟩
    · rw [lane_updLane_same, lane_mapLanes]
    · rw [lanePosOfVec_afterBlocks]
  case gather b j todo =>
    obtain ⟨l, hl, v, hv, rfl⟩ := hm
    rw [lanePosOfVec_gatherNext, lanePosOfVec_gather_erase hnd]
    refine .one l ⟨s, e.updLane l (·.loadWord j v), afterLoad b j⟩ ?_
    rw [lanePosOfVec, if_pos (pickLane_mem hl), State.laneMicro, hv]
    rfl
  case scatter j todo =>
    obtain ⟨l, hl, t, ht, rfl⟩ := hm
    rw [lanePosOfVec_scatterNext, lanePosOfVec_scatter_erase hnd]
    refine .one l ⟨t, e, afterStore j⟩ ?_
    rw [lanePosOfVec, if_pos (pickLane_mem hl), State.laneMicro, ht]
    rfl
  case done => cases hm

/-- A micro-step of a body. -/
theorem bodyMicro_lanesStep {b : BodyPos} {m : Micro BodyPos} (hnd : waitsOnce b) (hm : s.bodyMicro e n b = some m) :
    LanesStep s e n (lanePosOf b) m.state m.engine (lanePosOf m.pos) := by
  cases b with
  | scalar l p =>
    obtain ⟨u, hu, rfl⟩ := Option.map_eq_some_iff.mp hm
    have hl : lanePosOf (.scalar l p) l = p := by simp [lanePosOf]
    have hpos : lanePosOf (.scalar l u.pos) = Function.update (lanePosOf (.scalar l p)) l u.pos := by
      funext k
      by_cases hk : k = l
      · subst hk
        simp [lanePosOf]
      · simp [lanePosOf, hk]
    rw [lanePosOf_afterScalar, hpos]
    exact .one l u (hl.symm ▸ hu)
  | vector p =>
    obtain ⟨u, hu, rfl⟩ := Option.map_eq_some_iff.mp hm
    rw [lanePosOf_afterVector]
    exact vecMicro_lanesStep hnd hu
  | spmd ps =>
    simp only [State.bodyMicro] at hm
    split at hm
    case isTrue hall =>
      cases hm
      have hdone : lanePosOf (.spmd ps) = lanePosOf .finished := funext ((allDone_iff ps).mp hall)
      rw [hdone]
      exact .join
    case isFalse =>
      obtain ⟨u, hu, rfl⟩ := Option.map_eq_some_iff.mp hm
      have hpos : lanePosOf (.spmd (ps.set s.turn.draw.lane u.pos)) =
          Function.update (lanePosOf (.spmd ps)) s.turn.draw.lane u.pos := by
        funext k
        by_cases hk : k = s.turn.draw.lane
        · subst hk
          simp [lanePosOf]
        · have hne : s.turn.draw.lane.val ≠ k.val := fun h => hk (Fin.ext h.symm)
          simp [lanePosOf, hk, hne]
      rw [hpos]
      exact .one _ u hu
  | finished => cases hm

theorem waitsOnce_afterVector {p : VecPos} (h : waitsOnce (.vector p)) : waitsOnce (.afterVector p) := by
  unfold BodyPos.afterVector
  split
  · trivial
  · exact h

/-- A lane that has made its access waits no more, and a step begins with each lane waiting once. -/
theorem waitsOnce_bodyMicro {b : BodyPos} {m : Micro BodyPos} (hnd : waitsOnce b) (hm : s.bodyMicro e n b = some m) :
    waitsOnce m.pos := by
  have hall : allLanes.Nodup := List.nodup_finRange 16
  cases b with
  | scalar l p =>
    obtain ⟨u, hu, rfl⟩ := Option.map_eq_some_iff.mp hm
    simp only [BodyPos.afterScalar]
    split
    · cases nextIndex l <;> trivial
    · trivial
  | vector p =>
    obtain ⟨u, hu, rfl⟩ := Option.map_eq_some_iff.mp hm
    refine waitsOnce_afterVector ?_
    cases p <;> simp only [State.vecMicro, Option.bind_eq_some_iff, Option.map_eq_some_iff, Option.some.injEq] at hu
    case init | compress =>
      subst hu
      simp only [VecPos.afterBlocks]
      split
      · trivial
      · exact hall
    case clear => subst hu; exact hall
    case mark | expand => subst hu; trivial
    case gather b j todo =>
      obtain ⟨l, -, v, -, rfl⟩ := hu
      simp only [VecPos.gatherNext]
      split
      · cases nextIndex j
        · trivial
        · exact hall
      · exact hnd.erase l
    case scatter j todo =>
      obtain ⟨l, -, v, -, rfl⟩ := hu
      simp only [VecPos.scatterNext]
      split
      · cases nextIndex j
        · trivial
        · exact hall
      · exact hnd.erase l
    case done => cases hu
  | spmd ps =>
    simp only [State.bodyMicro] at hm
    split at hm
    · cases hm
      trivial
    · obtain ⟨u, hu, rfl⟩ := Option.map_eq_some_iff.mp hm
      trivial
  | finished => cases hm
end

/-! ### The windows of R125 -/

theorem outWindow_digaddr (x : Lane) (j : Fin 8) {k : Nat} (hk : k < 4) :
    x.outWindow (x.digaddr j + BitVec.ofNat 32 k) :=
  ⟨4 * j + k, by omega, by rw [Lane.digaddr, BitVec.ofNat_add, BitVec.add_assoc]⟩

theorem inWindow_blkaddr (x : Lane) {n b : Nat} (hb : b < n) (j : Fin 16) : x.inWindow n (x.blkaddr b j) :=
  ⟨b, 4 * j, hb, by omega, by simp [Lane.blkaddr]⟩

section
variable {e : Engine} {n : Nat} (h : e.windowsApart n) {l k : LaneNo} (hlk : l ≠ k)
include h hlk

theorem digaddr_ne_digaddr (i j : Fin 8) : (e.lane k).digaddr i ≠ (e.lane l).digaddr j := by
  have hl := outWindow_digaddr (e.lane l) j (k := 0) (by decide)
  have hk := outWindow_digaddr (e.lane k) i (k := 0) (by decide)
  rw [BitVec.add_zero] at hl hk
  exact fun heq => (h l k hlk _ hl).1 (heq ▸ hk)

theorem blkaddr_ne_digaddr {b : Nat} (hb : b < n) (i : Fin 16) (j : Fin 8) :
    (e.lane k).blkaddr b i ≠ (e.lane l).digaddr j := by
  have hl := outWindow_digaddr (e.lane l) j (k := 0) (by decide)
  rw [BitVec.add_zero] at hl
  exact fun heq => (h l k hlk _ hl).2 (heq ▸ inWindow_blkaddr (e.lane k) hb i)
end

/-- A byte of a digest word lies in the lane's output window. -/
theorem outWindow_of_byte {x : Lane} {j : Fin 8} {a : Addr} (hle : (x.digaddr j).toNat ≤ a.toNat)
    (hlt : a.toNat < (x.digaddr j).toNat + 4) : x.outWindow a := by
  have ha : a = x.digaddr j + BitVec.ofNat 32 (a.toNat - (x.digaddr j).toNat) := by bv_omega
  rw [ha]
  exact outWindow_digaddr x j (by omega)

/-! ### What holds inside a body -/

/-- A body over `n` blocks, begun in `s` with the engine `e`, has come to position `b` in `t`, where the engine is
`e'`. -/
structure BodyInv (s : State) (e : Engine) (n : Nat) (t : State) (e' : Engine) (b : BodyPos) : Prop where
  once : waitsOnce b
  cfg : t.cfg = s.cfg
  wf : t.memWf
  control : e.controlKept e'
  lanes : ∀ l, LaneInv s t n (e.lane l) (e'.lane l) (lanePosOf b l)
  frame : ∀ a : Addr, (∀ l, ¬ (e.lane l).outWindow a) → t.readByte a.toNat = s.readByte a.toNat

theorem bodyInv_start {s : State} (hw : s.memWf) (e : Engine) (n : Nat) (st : Strategy) :
    BodyInv s e n s e (.start st) where
  once := by cases st <;> trivial
  cfg := rfl
  wf := hw
  control := controlKept_refl e
  lanes l := by rw [lanePosOf_start]; exact laneInv_init s n _
  frame _ _ := rfl

section
variable {s t u : State} {e e' k : Engine} {n : Nat} {b : BodyPos}

/-- The same memory and lanes, seen in another state. -/
theorem BodyInv.congr (h : BodyInv s e n t e' b) (hcfg : u.cfg = t.cfg) (hmem : u.mem = t.mem)
    (hlanes : e'.lanesKept k) (hcontrol : e'.controlKept k) : BodyInv s e n u k b where
  once := h.once
  cfg := hcfg.trans h.cfg
  wf := by rw [State.memWf, hcfg, hmem]; exact h.wf
  control := controlKept_trans h.control hcontrol
  lanes l := by
    have hword (a : Addr) : u.wordAt a = t.wordAt a := by rw [State.wordAt, hcfg, hmem, State.wordAt]
    obtain ⟨hfits, hregs, hblocks, hdigest⟩ := h.lanes l
    exact ⟨hfits, (hlanes l).trans hregs, fun hp b hb j hj => (hword _).trans (hblocks hp b hb j hj),
      fun j hj => ⟨(hdigest j hj).1, (hword _).trans (hdigest j hj).2⟩⟩
  frame a ha := by rw [State.readByte, hcfg, hmem]; exact h.frame a ha

variable (hapart : e.windowsApart n) (hport : s.haltPortApart e)
include hapart hport

/-- A micro-step of one lane keeps what holds of every lane, and all bytes outside the output windows. -/
theorem BodyInv.lane_step {l : LaneNo} {m : Micro LanePos} (h : BodyInv s e n t e' b)
    (hm : t.laneMicro e' n l (lanePosOf b l) = some m) :
    (∀ k, LaneInv s m.state n (e.lane k) (m.engine.lane k) (Function.update (lanePosOf b) l m.pos k)) ∧
      ∀ a : Addr, (∀ l, ¬ (e.lane l).outWindow a) → m.state.readByte a.toNat = s.readByte a.toNat := by
  have hown := (h.lanes l).step h.cfg h.wf (hport l) hm
  rcases laneMicro_store hm with hs | ⟨j, v, -, hv⟩
  · rw [hs] at hown ⊢
    refine ⟨fun k => ?_, h.frame⟩
    by_cases hk : k = l
    · subst hk
      rwa [Function.update_self]
    · rw [Function.update_of_ne hk, laneMicro_lanesKeptBut hm k hk]
      exact h.lanes k
  · have haddr : (e'.lane l).digaddr j = (e.lane l).digaddr j := by rw [(h.lanes l).regs, digaddr_laneAt]
    have hal := admits_aligned (storeWord_some hv).1
    have hcfg : m.state.cfg = t.cfg := by rw [storeWord_kept hv]
    have hkept : t.memKeptOutside m.state ((e'.lane l).digaddr j) := fun b hb => storeWord_readByte_other hv h.wf hb
    rw [haddr] at hal hkept
    refine ⟨fun k => ?_, fun a ha => (hkept _ ?_).trans (h.frame a ha)⟩
    · by_cases hk : k = l
      · subst hk
        rwa [Function.update_self]
      · rw [Function.update_of_ne hk, laneMicro_lanesKeptBut hm k hk]
        exact (h.lanes k).store_elsewhere hcfg hkept hal
          (fun b hb i => blkaddr_ne_digaddr hapart (Ne.symm hk) hb i j)
          (fun i => digaddr_ne_digaddr hapart (Ne.symm hk) i j)
    · by_contra hin
      push Not at hin
      exact ha l (outWindow_of_byte hin.1 hin.2)

/-- A micro-step of a body keeps it. -/
theorem BodyInv.step {m : Micro BodyPos} (h : BodyInv s e n t e' b) (hm : t.bodyMicro e' n b = some m) :
    BodyInv s e n m.state m.engine m.pos := by
  have kept : (∀ k, LaneInv s m.state n (e.lane k) (m.engine.lane k) (lanePosOf m.pos k)) ∧
      ∀ a : Addr, (∀ l, ¬ (e.lane l).outWindow a) → m.state.readByte a.toNat = s.readByte a.toNat := by
    have hstep := bodyMicro_lanesStep h.once hm
    generalize m.state = u, m.engine = k, lanePosOf m.pos = P at hstep
    cases hstep with
    | one l m' hm' => exact h.lane_step hapart hport hm'
    | all _ _ hall =>
      refine ⟨fun l => ?_, h.frame⟩
      obtain ⟨m', hm', hs, he, hp⟩ := hall l
      have hown := (h.lanes l).step h.cfg h.wf (hport l) hm'
      rwa [hs, he, hp] at hown
    | join => exact ⟨h.lanes, h.frame⟩
  have state : m.state.cfg = t.cfg ∧ m.state.memWf := by
    rcases bodyMicro_store hm with hs | ⟨a, v, -, hv⟩
    · rw [hs]
      exact ⟨rfl, h.wf⟩
    · have hcfg : m.state.cfg = t.cfg := by rw [storeWord_kept hv]
      refine ⟨hcfg, ?_⟩
      rw [State.memWf, hcfg]
      exact storeWord_wf hv h.wf
  exact ⟨waitsOnce_bodyMicro h.once hm, state.1.trans h.cfg, state.2,
    controlKept_trans h.control (bodyMicro_controlKept hm), kept.1, kept.2⟩
end

/-! ### A PROCESS alone (O35) -/

/-- In `t` the current engine is inside the body of the PROCESS begun in `s` with the engine `e`, or has completed
it. -/
structure InProcess (st : Strategy) (s : State) (e : Engine) (n : Nat) (t : State) (e' : Engine) (b : BodyPos) :
    Prop where
  cur : t.cur = some e'
  busy : ∀ q, e'.seq = some q → q.pos.bodyPos st = some b
  completed : e'.seq = none → b = .finished
  body : BodyInv s e n t e' b

section
variable {st : Strategy} {s t u : State} {e e' : Engine} {b : BodyPos}

theorem InProcess.withDraw {n : Nat} (h : InProcess st s e n t e' b) (d : Draw) :
    InProcess st s e n (withDraw t d) e' b where
  cur := h.cur
  busy := h.busy
  completed := h.completed
  body := h.body.congr rfl rfl (fun _ => rfl) (controlKept_refl e')

variable {n : BitVec 16} (hapart : e.windowsApart n.toNat) (hport : s.haltPortApart e)
include hapart hport

/-- The engine's micro-step keeps it. -/
theorem InProcess.step (h : InProcess st s e n.toNat t e' b) (hexec : exec (processInstr st n) t = .next u) :
    ∃ k c, InProcess st s e n.toNat u k c := by
  rw [exec_processInstr] at hexec
  rcases act_next hexec with rfl | ⟨k, q, hc, hq, -, -, hstep⟩
  · exact ⟨e', b, h⟩
  obtain rfl : e' = k := Option.some.inj (h.cur.symm.trans hc)
  have hpos := h.busy q hq
  by_cases hb : b = .finished
  · simp only [State.processStep, hpos, hb, Option.bind_some, if_pos, Option.some.injEq] at hstep
    subst hstep
    exact ⟨_, b, cur_putCur hc _, nofun, fun _ => hb, h.body.congr rfl rfl (fun _ => rfl) (controlKept_refl e')⟩
  · rw [processStep_eq_bodyMicro hpos hb] at hstep
    obtain ⟨m, hm, rfl⟩ := Option.map_eq_some_iff.mp hstep
    obtain ⟨heng, hturn, -⟩ := bodyMicro_engines hm
    refine ⟨m.engine.moveTo q (.body m.pos), m.pos, cur_putCur_of_eq hc heng hturn _, ?_, nofun,
      (h.body.step hapart hport hm).congr rfl rfl (fun _ => rfl) (controlKept_refl m.engine)⟩
    rintro _ ⟨⟩
    rfl

/-- So does every run of the engine alone. -/
theorem InProcess.turns {ds : List Draw} (h : InProcess st s e n.toNat t e' b)
    (hturns : turns (processInstr st n) ds t = .next u) : ∃ k c, InProcess st s e n.toNat u k c := by
  induction ds generalizing t e' b with
  | nil =>
    cases hturns
    exact ⟨e', b, h⟩
  | cons d ds ih =>
    rw [Machine.turns] at hturns
    split at hturns
    case h_1 v hexec =>
      obtain ⟨k, c, hk⟩ := (h.withDraw d).step hapart hport hexec
      exact ih hk hturns
    case h_2 => cases hturns
    case h_3 => cases hturns
end

/-- A PROCESS that has completed has finished its body. -/
theorem bodyInv_of_turns {st : Strategy} {n : BitVec 16} {s t : State} {e e' : Engine} {q : Seq} {ds : List Draw}
    (hr : s.running e q) (hpos : q.pos = .start) (hw : s.memWf) (hapart : e.windowsApart n.toNat)
    (hport : s.haltPortApart e) (hturns : turns (processInstr st n) ds s = .next t) (hcur : t.cur = some e')
    (hseq : e'.seq = none) : BodyInv s e n.toNat t e' .finished := by
  obtain ⟨hc, hq, -, -⟩ := hr
  have start : InProcess st s e n.toNat s e (.start st) := by
    refine ⟨hc, fun q' hq' => ?_, fun h => ?_, bodyInv_start hw e n.toNat st⟩
    · obtain rfl : q = q' := Option.some.inj (hq.symm.trans hq')
      rw [hpos]
      rfl
    · rw [hq] at h
      cases h
  obtain ⟨k, b, hk⟩ := start.turns hapart hport hturns
  obtain rfl : e' = k := Option.some.inj (hcur.symm.trans hk.cur)
  obtain rfl := hk.completed hseq
  exact hk.body

/-- Settles O35: each lane of the finished body is done, its H is the fold's, and its digest words stand in memory. -/
theorem processDigestsAreHashBlocks : Obligations.ProcessDigestsAreHashBlocks := by
  intro st n s t e e' q ds hr hpos hw hapart hport hturns hcur hseq
  have done := bodyInv_of_turns hr hpos hw hapart hport hturns hcur hseq
  refine ⟨fun l j => ((done.lanes l).digest j j.isLt).2, fun l => ?_, done.frame⟩
  rw [(done.lanes l).regs]
  exact folded_h s (e.lane l) n.toNat

end Sys2Proof.Proofs
end

section
/-! PROOFS of the scope's obligation of the registers a PROCESS leaves (O36): what the lane holds once its blocks are
folded. -/

namespace Sys2Proof.Proofs

open Sys2Proof.Machine Sys2Proof.Laws

section
variable (s : State) (x : Lane)

theorem folded_hv (b : Nat) : (folded s x b).hv = true := by
  induction b with
  | zero => rfl
  | succ b ih => simpa [folded] using ih

/-- The last block folded leaves its expansion in W (R127). -/
theorem folded_succ_w (b : Nat) :
    (folded s x (b + 1)).w = expand s.cfg.schedVariant (blockFile (s.blockAt x b)) := by
  rw [folded, compressBlock_w, expandSchedule_w, markLoaded_w, expand_partlyLoaded, blockAt_folded]

/-- It leaves the state after its round 64 in V (R127). -/
theorem folded_succ_v (b : Nat) :
    (folded s x (b + 1)).v =
      afterRounds (s.digestOf x b) (expand s.cfg.schedVariant (blockFile (s.blockAt x b))) := by
  rw [← folded_succ_w, ← folded_h, folded, compressBlock_v, compressBlock_w, expandSchedule_h, markLoaded_h,
    partlyLoaded_h]

/-- Each block sets every valid bit (R128). -/
theorem folded_succ_valid (b : Nat) :
    (folded s x (b + 1)).wlv = true ∧ (folded s x (b + 1)).wev = true ∧ (folded s x (b + 1)).vv = true := by
  simp [folded]
end

/-- Settles O36: each lane of the finished body holds the fold of its blocks, HINIT's effect where there is none. -/
theorem processLeavesItsRegisters : Obligations.ProcessLeavesItsRegisters := by
  intro st n s t e e' q ds hr hpos hw hapart hport hturns hcur hseq
  have done := bodyInv_of_turns hr hpos hw hapart hport hturns hcur hseq
  refine ⟨done.control, fun l => ?_⟩
  have hlane : e'.lane l = folded s (e.lane l) n.toNat := (done.lanes l).regs
  rw [hlane]
  obtain ⟨hin, hout⟩ := folded_tables s (e.lane l) n.toNat
  refine ⟨folded_hv s _ _, hin, hout, fun h => ?_, fun h => ?_⟩
  · rw [h]
    exact ⟨rfl, rfl, rfl, rfl, rfl⟩
  · obtain ⟨b, hb⟩ := Nat.exists_eq_add_of_le' h
    rw [hb, Nat.add_sub_cancel]
    exact ⟨folded_succ_w s _ b, folded_succ_v s _ b, folded_succ_valid s _ b⟩

end Sys2Proof.Proofs
end

section
/-! PROOFS of the scope's obligation that a PROCESS can complete (O37): at every position of a body some draw gives a
micro-step, and it leaves fewer of them to make. -/

namespace Sys2Proof.Proofs

open Sys2Proof.Machine Sys2Proof.Laws

/-! ### The micro-steps left of a body (R121 to R124) -/

/-- The micro-steps left of LaneSeq over `n` blocks: 20 for each block, then the 8 digest words. -/
def stepsLeft (n : Nat) : LanePos → Nat
  | .init => 20 * n + 9
  | .clear b => 20 * (n - (b + 1)) + 28
  | .load b j => 20 * (n - (b + 1)) + (27 - j)
  | .mark b => 20 * (n - (b + 1)) + 11
  | .expand b => 20 * (n - (b + 1)) + 10
  | .compress b => 20 * (n - (b + 1)) + 9
  | .store j => 8 - j
  | .done => 0

/-- The micro-steps of LaneSeq that the 16 lanes of the vector sequence have left together: in a gather or scatter step
one for each waiting lane, and what every lane has left after it. -/
def vecLeft (n : Nat) : VecPos → Nat
  | .init => 16 * stepsLeft n .init
  | .clear b => 16 * stepsLeft n (.clear b)
  | .gather b j todo => 16 * stepsLeft n (afterLoad b j) + todo.length
  | .mark b => 16 * stepsLeft n (.mark b)
  | .expand b => 16 * stepsLeft n (.expand b)
  | .compress b => 16 * stepsLeft n (.compress b)
  | .scatter j todo => 16 * stepsLeft n (afterStore j) + todo.length
  | .done => 0

/-- The micro-steps of LaneSeq that the lanes of a body have left together, and one for the lane agents' join. -/
def bodyLeft (n : Nat) : BodyPos → Nat
  | .scalar l p => (15 - l) * stepsLeft n .init + stepsLeft n p
  | .vector p => vecLeft n p
  | .spmd ps => (∑ l : LaneNo, stepsLeft n ps[l]) + 1
  | .finished => 0

section
variable (n b : Nat)

theorem stepsLeft_afterBlocks (hb : b ≤ n) : stepsLeft n (.afterBlocks n b) = 20 * (n - b) + 8 := by
  unfold LanePos.afterBlocks
  split <;> simp only [stepsLeft, Fin.val_zero] <;> omega

theorem stepsLeft_load (j : Fin 16) : stepsLeft n (.load b j) = stepsLeft n (afterLoad b j) + 1 := by
  rw [afterLoad_eq]
  split <;> simp only [stepsLeft] <;> omega

theorem stepsLeft_store (j : Fin 8) : stepsLeft n (.store j) = stepsLeft n (afterStore j) + 1 := by
  rw [afterStore_eq]
  split <;> simp only [stepsLeft] <;> omega

theorem length_allLanes : allLanes.length = 16 := List.length_finRange

/-- A gather step begins with every lane waiting. -/
theorem vecLeft_gather_allLanes (j : Fin 16) : vecLeft n (.gather b j allLanes) = 16 * stepsLeft n (.load b j) := by
  rw [vecLeft, length_allLanes, stepsLeft_load, Nat.mul_succ]

theorem vecLeft_scatter_allLanes (j : Fin 8) : vecLeft n (.scatter j allLanes) = 16 * stepsLeft n (.store j) := by
  rw [vecLeft, length_allLanes, stepsLeft_store, Nat.mul_succ]

theorem vecLeft_afterBlocks : vecLeft n (.afterBlocks n b) = 16 * stepsLeft n (.afterBlocks n b) := by
  unfold VecPos.afterBlocks LanePos.afterBlocks
  split
  · rfl
  · exact vecLeft_scatter_allLanes n 0

/-- The end of a gather step is the beginning of the next. -/
theorem vecLeft_gatherNext (j : Fin 16) (todo : List LaneNo) :
    vecLeft n (.gatherNext b j todo) = vecLeft n (.gather b j todo) := by
  unfold VecPos.gatherNext
  split
  case isTrue h =>
    subst h
    rw [nextIndex_map_getD, vecLeft, afterLoad_eq]
    split
    · exact vecLeft_gather_allLanes n b _
    · rfl
  case isFalse => rfl

theorem vecLeft_scatterNext (j : Fin 8) (todo : List LaneNo) :
    vecLeft n (.scatterNext j todo) = vecLeft n (.scatter j todo) := by
  unfold VecPos.scatterNext
  split
  case isTrue h =>
    subst h
    rw [nextIndex_map_getD, vecLeft, afterStore_eq]
    split
    · exact vecLeft_scatter_allLanes n _
    · rfl
  case isFalse => rfl

theorem bodyLeft_afterVector (p : VecPos) : bodyLeft n (.afterVector p) = vecLeft n p := by
  unfold BodyPos.afterVector
  split
  case isTrue h => rw [h]; rfl
  case isFalse => rfl

/-- The end of a lane is the start of the next. -/
theorem bodyLeft_afterScalar (l : LaneNo) (p : LanePos) :
    bodyLeft n (.afterScalar l p) = bodyLeft n (.scalar l p) := by
  by_cases hp : p = .done
  · subst hp
    rw [BodyPos.afterScalar, if_pos rfl, nextIndex_map_getD]
    split
    case isTrue h =>
      have hlanes : 15 - l.val = 15 - (l.val + 1) + 1 := by omega
      simp only [bodyLeft]
      rw [hlanes, Nat.succ_mul]
      rfl
    case isFalse h =>
      have hlast : 15 - l.val = 0 := by omega
      simp only [bodyLeft, hlast, stepsLeft, Nat.zero_mul]
  · rw [afterScalar_of_ne_done l hp]
end

/-! ### Some draw advances a body (R122 to R124) -/

theorem afterScalar_fits {n : Nat} (l : LaneNo) {p : LanePos} (h : p.fits n = true) :
    (BodyPos.afterScalar l p).fits .scalar n = true := by
  unfold BodyPos.afterScalar
  split
  · cases nextIndex l <;> rfl
  · simp [BodyPos.fits, *]

theorem afterVector_fits {n : Nat} {p : VecPos} (h : p.fits n = true) :
    (BodyPos.afterVector p).fits .vector n = true := by
  unfold BodyPos.afterVector
  split
  · rfl
  · simp [BodyPos.fits, *]

theorem spmd_fits_iff {st : Strategy} {n : Nat} {ps : Vector LanePos 16} :
    (BodyPos.spmd ps).fits st n = true ↔ st = .spmd ∧ ∀ l : LaneNo, ps[l].fits n = true := by
  simp [BodyPos.fits, allLanes]

/-- In a gather or scatter step every draw picks a lane, which then waits no longer. -/
theorem pickLane_of_todoFits {todo : List LaneNo} (h : todoFits todo = true) (d : Draw) :
    ∃ l, pickLane todo d = some l ∧ (todo.erase l).length < todo.length := by
  simp only [todoFits, Bool.and_eq_true, decide_eq_true_eq] at h
  obtain ⟨hne, -⟩ := h
  obtain ⟨l, hl⟩ := pickLane_some hne d
  have hlen := List.length_erase_of_mem (pickLane_mem hl)
  have hpos := List.length_pos_iff.mpr hne
  exact ⟨l, hl, by omega⟩

/-- The agents' positions once one of them has moved. -/
theorem getElem_set_agent (ps : Vector LanePos 16) (k l : LaneNo) (p : LanePos) :
    (ps.set k p)[l] = if l = k then p else ps[l] := by
  simp [Vector.getElem_set, Fin.ext_iff, eq_comm]

/-- An agent's micro-step leaves fewer of them to all agents together. -/
theorem bodyLeft_spmd_set_lt {n : Nat} {ps : Vector LanePos 16} {k : LaneNo} {p : LanePos}
    (h : stepsLeft n p < stepsLeft n ps[k]) : bodyLeft n (.spmd (ps.set k p)) < bodyLeft n (.spmd ps) := by
  refine Nat.succ_lt_succ (Finset.sum_lt_sum (fun l _ => ?_) ⟨k, Finset.mem_univ k, ?_⟩)
  · rw [getElem_set_agent]
    split
    case isTrue hl => rw [hl]; exact h.le
    case isFalse => exact le_rfl
  · rwa [getElem_set_agent, if_pos rfl]

section
variable {s : State} {e : Engine} {n : Nat} (hadm : s.admitsProcess e n) (hport : s.haltPortApart e)
include hadm hport

/-- A lane whose accesses memory admits makes its micro-steps until it has finished. -/
theorem laneMicro_advances (l : LaneNo) {p : LanePos} (hfit : p.fits n = true) (hdone : p ≠ .done) :
    ∃ m, s.laneMicro e n l p = some m ∧ m.pos.fits n = true ∧ stepsLeft n m.pos < stepsLeft n p := by
  obtain ⟨hread, hwrite⟩ := hadm l
  cases p with
  | init =>
    refine ⟨_, rfl, lanePos_afterBlocks_fits n 0, ?_⟩
    rw [stepsLeft_afterBlocks n 0 (Nat.zero_le n)]
    exact Nat.lt_succ_self _
  | clear b => exact ⟨_, rfl, hfit, Nat.lt_succ_self _⟩
  | load b j =>
    rw [State.laneMicro, loadWord_of_admits (hread b j (of_decide_eq_true hfit))]
    refine ⟨_, rfl, ?_, ?_⟩
    · cases nextIndex j <;> exact hfit
    · rw [stepsLeft_load]
      exact Nat.lt_succ_self _
  | mark b => exact ⟨_, rfl, hfit, Nat.lt_succ_self _⟩
  | expand b => exact ⟨_, rfl, hfit, Nat.lt_succ_self _⟩
  | compress b =>
    refine ⟨_, rfl, lanePos_afterBlocks_fits n (b + 1), ?_⟩
    rw [stepsLeft_afterBlocks n (b + 1) (of_decide_eq_true hfit)]
    exact Nat.lt_succ_self _
  | store j =>
    rw [State.laneMicro, storeWord_of_admits _ _ (hwrite j) (hport l j)]
    refine ⟨_, rfl, ?_, ?_⟩
    · cases nextIndex j <;> rfl
    · rw [stepsLeft_store]
      exact Nat.lt_succ_self _
  | done => exact absurd rfl hdone

/-- So does the vector sequence, whichever waiting lane is drawn. -/
theorem vecMicro_advances {p : VecPos} (hfit : p.fits n = true) (hdone : p ≠ .done) :
    ∃ m, s.vecMicro e n p = some m ∧ m.pos.fits n = true ∧ vecLeft n m.pos < vecLeft n p := by
  have step {k m : Nat} (h : k < m) : 16 * k < 16 * m := Nat.mul_lt_mul_of_pos_left h (by decide)
  cases p with
  | init =>
    refine ⟨_, rfl, vecPos_afterBlocks_fits n 0, ?_⟩
    rw [vecLeft_afterBlocks, stepsLeft_afterBlocks n 0 (Nat.zero_le n)]
    exact step (Nat.lt_succ_self _)
  | clear b =>
    refine ⟨_, rfl, Bool.and_eq_true_iff.mpr ⟨hfit, todoFits_allLanes⟩, ?_⟩
    rw [vecLeft_gather_allLanes]
    exact step (Nat.lt_succ_self _)
  | gather b j todo =>
    obtain ⟨hb, htodo⟩ := Bool.and_eq_true_iff.mp hfit
    obtain ⟨l, hl, hlen⟩ := pickLane_of_todoFits htodo s.turn.draw
    have hlt := of_decide_eq_true hb
    refine ⟨_, vecMicro_gather n hl ((hadm l).1 b j hlt), gatherNext_fits j hlt htodo, ?_⟩
    rw [vecLeft_gatherNext]
    exact Nat.add_lt_add_left hlen _
  | mark b => exact ⟨_, rfl, hfit, step (Nat.lt_succ_self _)⟩
  | expand b => exact ⟨_, rfl, hfit, step (Nat.lt_succ_self _)⟩
  | compress b =>
    refine ⟨_, rfl, vecPos_afterBlocks_fits n (b + 1), ?_⟩
    rw [vecLeft_afterBlocks, stepsLeft_afterBlocks n (b + 1) (of_decide_eq_true hfit)]
    exact step (Nat.lt_succ_self _)
  | scatter j todo =>
    obtain ⟨l, hl, hlen⟩ := pickLane_of_todoFits hfit s.turn.draw
    refine ⟨_, vecMicro_scatter n hl (storeWord_of_admits _ _ ((hadm l).2 j) (hport l j)), scatterNext_fits n j hfit, ?_⟩
    rw [vecLeft_scatterNext]
    exact Nat.add_lt_add_left hlen _
  | done => exact absurd rfl hdone

/-- A body advances by some draw: under SPMD by one that names a lane agent that has not finished. -/
theorem bodyMicro_advances {st : Strategy} {b : BodyPos} (hfit : b.fits st n = true) (hb : b ≠ .finished) :
    ∃ d m, (withDraw s d).bodyMicro e n b = some m ∧ m.pos.fits st n = true ∧ bodyLeft n m.pos < bodyLeft n b := by
  cases b with
  | scalar l p =>
    simp only [BodyPos.fits, Bool.and_eq_true, decide_eq_true_eq] at hfit
    obtain ⟨⟨rfl, hp⟩, hdone⟩ := hfit
    obtain ⟨m, hm, hmfit, hlt⟩ := laneMicro_advances (s := withDraw s .zero) hadm hport l hp hdone
    refine ⟨.zero, _, by rw [State.bodyMicro, hm, Option.map_some], afterScalar_fits l hmfit, ?_⟩
    rw [bodyLeft_afterScalar]
    exact Nat.add_lt_add_left hlt _
  | vector p =>
    simp only [BodyPos.fits, Bool.and_eq_true, decide_eq_true_eq] at hfit
    obtain ⟨⟨rfl, hp⟩, hdone⟩ := hfit
    obtain ⟨m, hm, hmfit, hlt⟩ := vecMicro_advances (s := withDraw s .zero) hadm hport hp hdone
    refine ⟨.zero, _, by rw [State.bodyMicro, hm, Option.map_some], afterVector_fits hmfit, ?_⟩
    rw [bodyLeft_afterVector]
    exact hlt
  | spmd ps =>
    obtain ⟨rfl, hps⟩ := spmd_fits_iff.mp hfit
    by_cases hall : allDone ps = true
    · exact ⟨.zero, ⟨withDraw s .zero, e, .finished⟩, if_pos hall, rfl, Nat.succ_pos _⟩
    · obtain ⟨k, hk⟩ := not_forall.mp (mt (allDone_iff ps).mpr hall)
      let d : Draw := { Draw.zero with lane := k }
      obtain ⟨m, hm, hmfit, hlt⟩ := laneMicro_advances (s := withDraw s d) hadm hport k (hps k) hk
      refine ⟨d, ⟨m.state, m.engine, .spmd (ps.set k m.pos)⟩, ?_, spmd_fits_iff.mpr ⟨rfl, fun l => ?_⟩,
        bodyLeft_spmd_set_lt hlt⟩
      · rw [State.bodyMicro, if_neg hall]
        exact Option.map_eq_some_iff.mpr ⟨m, hm, rfl⟩
      · rw [getElem_set_agent]
        split
        · exact hmfit
        · exact hps l
  | finished => exact absurd rfl hb
end

/-! ### A PROCESS completes (O37) -/

theorem bodyMicro_tablesKept {s : State} {e : Engine} {n : Nat} {b : BodyPos} {m : Micro BodyPos}
    (hm : s.bodyMicro e n b = some m) : TablesKept e m.engine := by
  cases b with
  | scalar l p =>
    obtain ⟨u, hu, rfl⟩ := Option.map_eq_some_iff.mp hm
    exact laneMicro_tablesKept hu
  | vector p =>
    obtain ⟨u, hu, rfl⟩ := Option.map_eq_some_iff.mp hm
    exact vecMicro_tablesKept hu
  | spmd ps =>
    simp only [State.bodyMicro] at hm
    split at hm
    · cases hm
      exact tablesKept_refl e
    · obtain ⟨u, hu, rfl⟩ := Option.map_eq_some_iff.mp hm
      exact laneMicro_tablesKept hu
  | finished => cases hm

/-- Away from HALT_ADDR a body halts nothing. -/
theorem bodyMicro_cfg_ghalt {s : State} {e : Engine} {n : Nat} {b : BodyPos} {m : Micro BodyPos}
    (hport : s.haltPortApart e) (hm : s.bodyMicro e n b = some m) :
    m.state.cfg = s.cfg ∧ m.state.ghalt = s.ghalt := by
  rcases bodyMicro_store hm with hs | ⟨a, v, ha, hv⟩
  · rw [hs]
    exact ⟨rfl, rfl⟩
  · obtain ⟨l, j, rfl⟩ := bodyStoreAddr_eq_digaddr ha
    obtain ⟨-, ⟨-, hs⟩ | ⟨heq, -⟩⟩ := storeWord_some hv
    · rw [hs]
      exact ⟨rfl, rfl⟩
    · exact absurd heq (hport l j)

section
variable {s t : State} {e e' : Engine} {n : Nat} (hcfg : t.cfg = s.cfg) (htables : TablesKept e e')
include hcfg htables

theorem admitsProcess_of_tablesKept (h : s.admitsProcess e n) : t.admitsProcess e' n := by
  intro l
  obtain ⟨hin, hout⟩ := htables l
  obtain ⟨hread, hwrite⟩ := h l
  simp only [Lane.blkaddr, Lane.digaddr, hin, hout, admits_congr hcfg]
  exact ⟨hread, hwrite⟩

theorem haltPortApart_of_tablesKept (h : s.haltPortApart e) : t.haltPortApart e' := by
  intro l j
  rw [Lane.digaddr, (htables l).2, hcfg]
  exact h l j
end

/-- The current engine is at position `b` in the body of a PROCESS whose accesses memory admits. -/
structure Advancing (st : Strategy) (n : Nat) (t : State) (e : Engine) (q : Seq) (b : BodyPos) : Prop where
  running : t.running e q
  pos : q.pos.bodyPos st = some b
  fits : b.fits st n = true
  admits : t.admitsProcess e n
  apart : t.haltPortApart e

section
variable {st : Strategy} {n : BitVec 16} {t : State} {e : Engine} {q : Seq} {b : BodyPos}

/-- Some draw brings it to a position with fewer micro-steps left. -/
theorem Advancing.step (h : Advancing st n.toNat t e q b) (hb : b ≠ .finished) :
    ∃ d u k p c, exec (processInstr st n) (withDraw t d) = .next u ∧ Advancing st n.toNat u k p c ∧
      bodyLeft n.toNat c < bodyLeft n.toNat b := by
  obtain ⟨hr, hpos, hfit, hadm, hport⟩ := h
  obtain ⟨d, m, hm, hmfit, hlt⟩ := bodyMicro_advances hadm hport hfit hb
  obtain ⟨hcfg, hghalt⟩ := bodyMicro_cfg_ghalt (s := withDraw t d) hport hm
  obtain ⟨hengines, hturn, -⟩ := bodyMicro_engines hm
  obtain ⟨-, hfault, -, -⟩ := bodyMicro_controlKept hm
  have htables : TablesKept e (m.engine.moveTo q (.body m.pos)) := bodyMicro_tablesKept hm
  have hexec : exec (processInstr st n) (withDraw t d) =
      .next (m.state.putCur (m.engine.moveTo q (.body m.pos))) := by
    rw [exec_processInstr, act_running (s := withDraw t d) hr, processStep_eq_bodyMicro hpos hb, hm]
    rfl
  obtain ⟨hc, -, hg, hf⟩ := hr
  refine ⟨d, _, m.engine.moveTo q (.body m.pos), { q with pos := .body m.pos }, m.pos, hexec, ?_, hlt⟩
  exact {
    running := ⟨cur_putCur_of_eq (s := withDraw t d) hc hengines hturn _, rfl, hghalt.trans hg, hfault.trans hf⟩
    pos := rfl
    fits := hmfit
    admits := admitsProcess_of_tablesKept (s := t) hcfg htables hadm
    apart := haltPortApart_of_tablesKept (s := t) hcfg htables hport }

/-- Once the body has finished the command completes. -/
theorem Advancing.finish (h : Advancing st n.toNat t e q .finished) :
    exec (processInstr st n) t = .next (t.putCur e.complete) := by
  rw [exec_processInstr, act_running h.running, State.processStep, h.pos]
  rfl

/-- So some draws bring it to its completion. -/
theorem Advancing.completes (h : Advancing st n.toNat t e q b) :
    ∃ ds u e', turns (processInstr st n) ds t = .next u ∧ u.cur = some e' ∧ e'.seq = none ∧ e'.fault = none := by
  induction hk : bodyLeft n.toNat b using Nat.strong_induction_on generalizing t e q b with
  | _ k ih =>
    by_cases hb : b = .finished
    · subst hb
      obtain ⟨hc, -, -, hf⟩ := h.running
      exact ⟨[t.turn.draw], _, e.complete, turns_cons h.finish [], cur_putCur hc _, rfl, hf⟩
    · obtain ⟨d, v, e₁, q₁, c, hexec, hv, hlt⟩ := h.step hb
      obtain ⟨ds, u, e', hturns, hdone⟩ := ih _ (hk ▸ hlt) hv rfl
      exact ⟨d :: ds, u, e', (turns_cons hexec ds).trans hturns, hdone⟩
end

/-- Settles O37: the body's micro-steps left fall to 0. -/
theorem processCompletesWhereAdmitted : Obligations.ProcessCompletesWhereAdmitted := by
  intro st n s e q hr hpos hport hadm
  have start : Advancing st n.toNat s e q (.start st) := by
    refine ⟨hr, ?_, ?_, hadm, hport⟩
    · rw [hpos]
      rfl
    · cases st <;> rfl
  exact start.completes

end Sys2Proof.Proofs
end

section
/-! PROOFS of the scope's obligations of RUN and of the completion protocol: what a RUN's micro-step does, said once,
position by position, and the barrier it keeps. -/

namespace Sys2Proof.Proofs

open Sys2Proof.Machine Sys2Proof.Laws

/-! ### RUN's micro-steps (R132, R136) -/

/-- A RUN in context `c` leads from `s`, where its engine `e` stands at a position, to a state; `.start` is taken as RUN's
first position. -/
inductive RunTo (st : Strategy) (c : Nat) (s : State) (e : Engine) (q : Seq) : Pos → State → Prop
  | tableIn (it : Fin 4) (p : Pass) :
    RunTo st c s e q (.tableIn it p)
      (s.putCur ((e.mapLanes fun l x => { x with inPtr := inTable s.cfg c p l }).moveTo q (.tableOut it p)))
  | tableOut (it : Fin 4) (p : Pass) :
    RunTo st c s e q (.tableOut it p)
      (s.putCur ((e.mapLanes fun l x => { x with outPtr := outTable s.cfg c p l }).moveTo q (.pass it p (.start st))))
  | body (it : Fin 4) {p : Pass} {b : BodyPos} {m : Micro BodyPos} (hb : b ≠ .finished)
    (hm : s.bodyMicro e (passBlocks p) b = some m) :
    RunTo st c s e q (.pass it p b) (m.state.putCur (m.engine.moveTo q (.pass it p m.pos)))
  | passEnd (it : Fin 4) (p : Pass) :
    RunTo st c s e q (.pass it p .finished) (s.putCur (e.moveTo q (afterPass c it p)))
  | decrement (hav : s.av = true) :
    RunTo st c s e q .decrement ({ s with active := s.active - 1 }.putCur (e.moveTo q .enterIdle))
  | enterIdle : RunTo st c s e q .enterIdle (s.putCur ({ e with idle := true }.moveTo q .idling))
  | enterWait (hav : s.av = true) :
    RunTo st c s e q .enterWait (s.putCur ({ e with waiting := true }.moveTo q .polling))
  | unwritten {p : Pos} (hp : p = .decrement ∨ p = .enterWait) (hav : s.av = false) :
    RunTo st c s e q p (s.putCur (e.raise (.uninitRead .active 0) q.cmd))
  | polling (ha : s.active = 0) :
    RunTo st c s e q .polling (s.putCur { e.moveTo q .halting with waiting := false })
  | halting (ha : s.admits s.cfg.haltAddr = true) :
    RunTo st c s e q .halting { s.setWord s.cfg.haltAddr s.cfg.haltValue with ghalt := true }

section
variable {st : Strategy} {c : Nat} {s t : State} {e : Engine} {q : Seq} {p : Pos}

/-- All a RUN's micro-step can do. -/
theorem runTo_of_runStep (h : s.runStep st c e q = some t) : RunTo st c s e q q.pos.runPos t := by
  unfold State.runStep at h
  generalize q.pos.runPos = p at h
  split at h
  case h_1 => cases h; exact .tableIn _ _
  case h_2 => cases h; exact .tableOut _ _
  case h_3 =>
    split at h
    case isTrue hb => cases h; subst hb; exact .passEnd _ _
    case isFalse hb =>
      obtain ⟨m, hm, rfl⟩ := Option.map_eq_some_iff.mp h
      exact .body _ hb hm
  case h_4 =>
    obtain ⟨hav, rfl⟩ | ⟨hav, rfl⟩ := decActive_some h
    · exact .unwritten (.inl rfl) hav
    · exact .decrement hav
  case h_5 => cases h; exact .enterIdle
  case h_6 =>
    obtain ⟨hav, rfl⟩ | ⟨hav, rfl⟩ := enterWait_some h
    · exact .unwritten (.inr rfl) hav
    · exact .enterWait hav
  case h_7 =>
    obtain ⟨ha, rfl⟩ := pollActive_some h
    exact .polling ha
  case h_8 =>
    obtain ⟨ha, rfl⟩ := haltAll_some h
    exact .halting ha
  case h_9 => cases h

/-- It does all of that. -/
theorem runStep_of_runTo (h : RunTo st c s e q q.pos.runPos t) : s.runStep st c e q = some t := by
  unfold State.runStep
  generalize q.pos.runPos = p at h
  cases h with
  | tableIn | tableOut | enterIdle => rfl
  | body it hb hm => simp only [if_neg hb, hm, Option.map_some]
  | passEnd => exact if_pos rfl
  | decrement hav => simp [State.decActive, hav, State.checked]
  | enterWait hav => simp [State.enterWait, hav, State.checked]
  | unwritten hp hav =>
    obtain rfl | rfl := hp
    · simp [State.decActive, hav, State.checked]
    · simp [State.enterWait, hav, State.checked]
  | polling ha => exact if_pos ha
  | halting ha => exact if_pos ha

/-- The running engine makes it. -/
theorem exec_runInstr_of_runTo (hr : s.running e q) (hpos : q.pos = p) (h : RunTo st s.curIdx s e q p.runPos t) :
    exec (runInstr st) s = .next t :=
  exec_runInstr_running st hr (runStep_of_runTo (hpos ▸ h))

/-- It has no step at a position from which RUN leads nowhere. -/
theorem exec_runInstr_of_not_runTo (hr : s.running e q) (hpos : q.pos = p)
    (h : ∀ t, ¬ RunTo st s.curIdx s e q p.runPos t) : exec (runInstr st) s = .next s := by
  rw [exec_runInstr]
  exact act_stuck hr (Option.eq_none_iff_forall_ne_some.mpr fun t ht => h t (hpos ▸ runTo_of_runStep ht))

/-- What a RUN alone can do in one micro-step. -/
theorem runTo_of_exec (hr : s.running e q) (h : exec (runInstr st) s = .next t) :
    t = s ∨ RunTo st s.curIdx s e q q.pos.runPos t := by
  rw [exec_runInstr] at h
  exact (act_next_running hr h).imp_right runTo_of_runStep
end

/-! ### The completion barrier (O60) -/

/-- The positions past SYNC.DEC. -/
def pastDecrement : Pos → Bool
  | .enterIdle | .idling => true
  | _ => false

theorem hasDecremented_of_seq {e : Engine} {q : Seq} (h : e.seq = some q) :
    e.hasDecremented = pastDecrement q.pos := by
  simp only [Engine.hasDecremented, Engine.pos?, h, Option.map_some, Option.some.injEq]
  cases q.pos <;> rfl

theorem pos?_of_seq {e : Engine} {q : Seq} (h : e.seq = some q) : e.pos? = some q.pos := congrArg (Option.map Seq.pos) h

/-- RUN's first position counts as its start does. -/
theorem inRun_runPos (c : Nat) (p : Pos) : p.runPos.inRun c = p.inRun c := by cases p <;> rfl

theorem pastDecrement_runPos (p : Pos) : pastDecrement p.runPos = pastDecrement p := by cases p <;> rfl

/-- After a pass a RUN has still its completion to make. -/
theorem afterPass_inRun (c : Nat) (it : Fin 4) (p : Pass) :
    (afterPass c it p).inRun c = true ∧ pastDecrement (afterPass c it p) = false ∧ afterPass c it p ≠ .halting := by
  cases p with
  | first => exact ⟨rfl, rfl, nofun⟩
  | second =>
    simp only [afterPass]
    cases nextIndex it with
    | some it => exact ⟨rfl, rfl, nofun⟩
    | none =>
      simp only [Option.map_none, Option.getD_none, completionPos]
      split
      · exact ⟨decide_eq_true ‹_›, rfl, nofun⟩
      · exact ⟨decide_eq_true ‹_›, rfl, nofun⟩

/-- A list's tail has as many members that meet `f` once one member is replaced, but for the two exchanged; the head is
none of the tail. -/
theorem countP_tail_set {α : Type} (f : α → Bool) {l : List α} {i : Nat} {a : α} (b : α) (h : l[i]? = some a) :
    (l.set i b).tail.countP f + (decide (i ≠ 0) && f a).toNat = l.tail.countP f + (decide (i ≠ 0) && f b).toNat := by
  have exchanged {l : List α} {i : Nat} (h : l[i]? = some a) :
      (l.set i b).countP f + (f a).toNat = l.countP f + (f b).toNat := by
    obtain ⟨hi, rfl⟩ := List.getElem?_eq_some_iff.mp h
    have hpos : (if f l[i] then 1 else 0) ≤ l.countP f := by
      split
      · exact List.countP_pos_iff.mpr ⟨_, List.getElem_mem hi, ‹_›⟩
      · exact Nat.zero_le _
    rw [List.countP_set hi, Bool.toNat, Bool.toNat, Bool.cond_eq_ite, Bool.cond_eq_ite]
    omega
  cases l with
  | nil => cases h
  | cons x xs =>
    cases i with
    | zero => rfl
    | succ i => simpa using exchanged (l := xs) (by simpa using h)

/-- A body's micro-step leaves all but the engine, memory and GHALT. -/
theorem bodyMicro_kept {s : State} {e : Engine} {n : Nat} {b : BodyPos} {m : Micro BodyPos}
    (hm : s.bodyMicro e n b = some m) : m.state = { s with mem := m.state.mem, ghalt := m.state.ghalt } := by
  rcases bodyMicro_store hm with hs | ⟨a, v, -, hv⟩
  · rw [hs]
  · exact storeWord_kept hv

section
variable {s t : State} {e k : Engine} {q : Seq} {p : Pos}

theorem engines_putCur_same (hc : s.cur = some e) (k : Engine) : (s.putCur k).engines[s.curIdx]? = some k := by
  simpa only [State.cur, putCur_curIdx] using cur_putCur hc k

/-- Replacing the current engine by `k` changes the count of the pending workers by that engine alone. -/
theorem pendingWorkers_putCur (hc : s.cur = some e) (k : Engine) :
    (s.putCur k).pendingWorkers + (decide (s.curIdx ≠ 0) && !e.hasDecremented).toNat =
      s.pendingWorkers + (decide (s.curIdx ≠ 0) && !k.hasDecremented).toNat :=
  countP_tail_set (fun e : Engine => !e.hasDecremented) k hc

/-- The barrier speaks of the engines, ACTIVE and AV alone. -/
theorem barrier_congr (h : s.Barrier) (he : t.engines = s.engines) (ha : t.active = s.active) (hav : t.av = s.av) :
    t.Barrier where
  size := he ▸ h.size
  written := hav.trans h.written
  running := he ▸ h.running
  count := by rw [ha, h.count, State.pendingWorkers, State.pendingWorkers, he]
  terminator := by rw [he, ha]; exact h.terminator

/-- Where context 0 is about to issue HALT, every worker has made its SYNC.DEC (R145). -/
theorem hasDecremented_of_barrier (h : s.Barrier) (he : s.engines[0]? = some e) (hpos : e.pos? = some .halting)
    {c : Nat} (hc : c ≠ 0) (hk : s.engines[c]? = some k) : k.hasDecremented = true := by
  have hcount := h.count
  rw [h.terminator e he hpos] at hcount
  obtain ⟨c, rfl⟩ := Nat.exists_eq_succ_of_ne_zero hc
  have hmem : k ∈ s.engines.tail := List.mem_of_getElem? (List.getElem?_tail.trans hk)
  simpa using List.countP_eq_zero.mp hcount.symm k hmem

/-- The barrier stands where the current engine goes on in its RUN, ACTIVE counts the workers then pending, and context
0 is at its HALT only with ACTIVE at 0. -/
theorem barrier_putCur (h : s.Barrier) (hc : s.cur = some e) (hk : k.inRun s.curIdx) {a : Word}
    (hcount : a.toNat = (s.putCur k).pendingWorkers) (hhalt : k.pos? = some .halting → a = 0)
    (hzero : s.active = 0 → a = 0) : ({ s with active := a }.putCur k).Barrier where
  size := le_of_eq_of_le List.length_set h.size
  written := h.written
  running c f (hf : (s.putCur k).engines[c]? = some f) := by
    by_cases hcur : c = s.curIdx
    · subst hcur
      obtain rfl : k = f := Option.some.inj ((engines_putCur_same hc k).symm.trans hf)
      exact hk
    · exact h.running c f ((engines_putCur_other s k hcur).symm.trans hf)
  count := hcount
  terminator f (hf : (s.putCur k).engines[0]? = some f) hpos := by
    by_cases hcur : s.curIdx = 0
    · obtain rfl : k = f := Option.some.inj ((engines_putCur_same hc k).symm.trans (hcur.symm ▸ hf))
      exact hhalt hpos
    · exact hzero (h.terminator f ((engines_putCur_other s k (Ne.symm hcur)).symm.trans hf) hpos)

/-- A micro-step of a RUN other than SYNC.DEC. -/
theorem barrier_move (h : s.Barrier) (hc : s.cur = some e) (hq : e.seq = some q) (hk : k.fault = none)
    (hseq : k.seq = some { q with pos := p }) (hin : p.inRun s.curIdx = true)
    (hdec : pastDecrement p = pastDecrement q.pos) (hhalt : p = .halting → s.active = 0) : (s.putCur k).Barrier := by
  obtain ⟨-, q', st, hq', hdecode, -⟩ := h.running _ e hc
  obtain rfl : q = q' := Option.some.inj (hq.symm.trans hq')
  refine barrier_putCur (a := s.active) h hc ⟨hk, _, st, hseq, hdecode, hin⟩ ?_ (fun hp => hhalt ?_) id
  · have hpending := pendingWorkers_putCur hc k
    rw [hasDecremented_of_seq hq, hasDecremented_of_seq hseq, hdec] at hpending
    exact h.count.trans (Nat.add_right_cancel hpending).symm
  · exact Option.some.inj ((pos?_of_seq hseq).symm.trans hp)

/-- A worker's SYNC.DEC: one worker less is pending, and ACTIVE was not 0. -/
theorem barrier_decrement (h : s.Barrier) (hc : s.cur = some e) (hq : e.seq = some q) (hpos : q.pos = .decrement) :
    ({ s with active := s.active - 1 }.putCur (e.moveTo q .enterIdle)).Barrier := by
  obtain ⟨hfault, q', st, hq', hdecode, hin⟩ := h.running _ e hc
  obtain rfl : q = q' := Option.some.inj (hq.symm.trans hq')
  rw [hpos] at hin
  have hworker : s.curIdx ≠ 0 := of_decide_eq_true hin
  have hpending := pendingWorkers_putCur hc (e.moveTo q .enterIdle)
  rw [hasDecremented_of_seq hq, hpos, hasDecremented_of_seq (moveTo_seq e q .enterIdle),
    decide_eq_true hworker] at hpending
  have hcount : s.active.toNat = (s.putCur (e.moveTo q .enterIdle)).pendingWorkers + 1 := h.count.trans hpending.symm
  have hactive : s.active ≠ 0 := fun ha => by
    rw [ha] at hcount
    exact Nat.succ_ne_zero _ hcount.symm
  refine barrier_putCur (k := e.moveTo q .enterIdle) h hc ⟨hfault, _, st, rfl, hdecode, hin⟩ ?_ nofun
    fun ha => absurd ha hactive
  bv_omega

/-- A RUN's micro-step keeps the barrier (R136, R145). -/
theorem barrier_runTo {st : Strategy} (h : s.Barrier) (hc : s.cur = some e) (hq : e.seq = some q)
    (ht : RunTo st s.curIdx s e q q.pos.runPos t) : t.Barrier := by
  obtain ⟨hfault, q', -, hq', -, hin⟩ := h.running _ e hc
  obtain rfl : q = q' := Option.some.inj (hq.symm.trans hq')
  have hdec := pastDecrement_runPos q.pos
  rw [← inRun_runPos] at hin
  generalize hp : q.pos.runPos = p at ht hdec hin
  cases ht with
  | tableIn | tableOut => 
    exact barrier_move h hc hq ((moveTo_fault ..).trans ((mapLanes_fault e _).trans hfault)) rfl rfl hdec nofun
  | @body it p b m hb hm =>
    obtain ⟨-, hkept, -, -⟩ := bodyMicro_controlKept hm
    have hmove : (s.putCur (m.engine.moveTo q (.pass it p m.pos))).Barrier :=
      barrier_move h hc hq (hkept.trans hfault) rfl rfl hdec nofun
    rw [bodyMicro_kept hm]
    exact barrier_congr hmove rfl rfl rfl
  | passEnd it p =>
    obtain ⟨hin, hpast, hhalt⟩ := afterPass_inRun s.curIdx it p
    exact barrier_move h hc hq hfault rfl hin (hpast.trans hdec) fun hp => absurd hp hhalt
  | decrement => exact barrier_decrement h hc hq (pos_eq_of_runPos hp nofun)
  | enterIdle => exact barrier_move h hc hq hfault rfl hin hdec nofun
  | enterWait => exact barrier_move h hc hq hfault rfl hin hdec nofun
  | unwritten _ hav => exact absurd (h.written.symm.trans hav) nofun
  | polling ha => exact barrier_move h hc hq hfault rfl hin hdec fun _ => ha
  | halting => exact barrier_congr h rfl rfl rfl

/-- An engine's move makes a RUN's micro-step, or none. -/
theorem barrier_engineStep (h : s.Barrier) (ht : s.engineStep = .next t) : t.Barrier := by
  cases hf : s.fetch with
  | none =>
    simp only [State.engineStep, hf, State.actNothing] at ht
    obtain rfl | ⟨-, -, -, -, -, -, hnone⟩ := act_next ht
    · exact h
    · cases hnone
  | some w =>
    obtain ⟨e, q, hc, hq, rfl, hg, hfault⟩ := fetch_some hf
    obtain ⟨-, q', st, hq', hdecode, -⟩ := h.running _ e hc
    obtain rfl : q = q' := Option.some.inj (hq.symm.trans hq')
    rw [engineStep_of_fetch hf hdecode] at ht
    obtain rfl | hrun := runTo_of_exec ⟨hc, hq, hg, hfault⟩ ht
    · exact h
    · exact barrier_runTo h hc hq hrun
end

/-- Settles O60: an engine's move is a micro-step of its RUN, and of those SYNC.DEC alone touches ACTIVE, which then
counts one pending worker less. -/
theorem completionBarrierHolds : Obligations.CompletionBarrierHolds := by
  refine ⟨fun s u t c d h hmove ht => ?_, fun s e h he hpos c f hc hf => hasDecremented_of_barrier h he hpos hc hf⟩
  rw [step_engine hmove] at ht
  obtain ⟨-, hactive, hav⟩ := nextMove_completion hmove
  have hturn : (u.withTurn c d).Barrier := barrier_congr h (nextMove_cfg_engines hmove).2 hactive hav
  exact barrier_engineStep hturn ht

/-! ### RUN's passes (O39) -/

/-- After a pass comes the second, the next of the four iterations, or the completion (R132, R136). -/
theorem afterPass_second (c : Nat) (it : Fin 4) :
    afterPass c it .second =
      if h : it.val + 1 < 4 then .tableIn ⟨it.val + 1, h⟩ .first else if c = 0 then .enterWait else .decrement :=
  nextIndex_map_getD it _ _

section
variable {s : State} {e : Engine} {q : Seq} {p : Pass} {b : BodyPos} {n : BitVec 16}

/-- A PROCESS's micro-step at a position of its body. -/
theorem exec_processInstr_body {m : Micro BodyPos} (st : Strategy) (hr : s.running e q) (hpos : q.pos = .body b)
    (hb : b ≠ .finished) (hm : s.bodyMicro e n.toNat b = some m) :
    exec (processInstr st n) s = .next (m.state.putCur (m.engine.moveTo q (.body m.pos))) := by
  rw [exec_processInstr, act_running hr, processStep_eq_bodyMicro (hpos ▸ rfl) hb, hm]
  rfl

/-- It has none where the body has none. -/
theorem exec_processInstr_body_none (st : Strategy) (hr : s.running e q) (hpos : q.pos = .body b) (hb : b ≠ .finished)
    (hm : s.bodyMicro e n.toNat b = none) : exec (processInstr st n) s = .next s := by
  rw [exec_processInstr]
  exact act_stuck hr (by rw [processStep_eq_bodyMicro (hpos ▸ rfl) hb, hm, Option.map_none])
end

/-- Settles O39: PROCESS and a pass of RUN both make the body's micro-step, and `afterPass` is the order of the passes. -/
theorem runRunsPassesInOrder : Obligations.RunRunsPassesInOrder := by
  intro st s e q it p hr
  refine ⟨fun b m hb hm => ⟨fun hpos => ?_, fun n hn hpos => ?_⟩,
    fun b hb hm => ⟨fun hpos => ?_, fun n hn hpos => ?_⟩, fun hpos => ?_⟩
  · exact exec_runInstr_of_runTo hr hpos (.body it hb hm)
  · exact exec_processInstr_body st hr hpos hb (hn ▸ hm)
  · refine exec_runInstr_of_not_runTo hr hpos fun t ht => ?_
    cases ht with
    | body _ _ hm' => exact Option.some_ne_none _ (hm'.symm.trans hm)
    | passEnd => exact hb rfl
    | unwritten hp => simp [Pos.runPos] at hp
  · exact exec_processInstr_body_none st hr hpos hb (hn ▸ hm)
  · rw [exec_runInstr_of_runTo hr hpos (.passEnd it p)]
    cases p with
    | first => rfl
    | second => rw [afterPass_second]; rfl

/-! ### RUN's completion (O41, O42) -/

/-- Settles O41: SYNC.DEC's two outcomes, IDLE's beginning, and the hold from which RUN leads nowhere. -/
theorem runWorkerDecrementsAndIdles : Obligations.RunWorkerDecrementsAndIdles := by
  intro st s e q hr
  refine ⟨fun hpos hav => exec_runInstr_of_runTo hr hpos (.decrement hav),
    fun hpos hav => exec_runInstr_of_runTo hr hpos (.unwritten (.inl rfl) hav),
    fun hpos => exec_runInstr_of_runTo hr hpos .enterIdle,
    fun hpos => exec_runInstr_of_not_runTo hr hpos fun t ht => ?_⟩
  cases ht with
  | unwritten hp => simp [Pos.runPos] at hp

/-- Settles O42: SYNC.WAIT's check, its hold, and HALT. -/
theorem runTerminatorWaitsAndHalts : Obligations.RunTerminatorWaitsAndHalts := by
  intro st s e q hr
  refine ⟨fun hpos hav => exec_runInstr_of_runTo hr hpos (.enterWait hav),
    fun hpos hav => exec_runInstr_of_runTo hr hpos (.unwritten (.inr rfl) hav),
    fun hpos ha => exec_runInstr_of_not_runTo hr hpos fun t ht => ?_,
    fun hpos ha => exec_runInstr_of_runTo hr hpos (.polling ha),
    fun hpos ha => exec_runInstr_of_runTo hr hpos (.halting ha)⟩
  cases ht with
  | unwritten hp => simp [Pos.runPos] at hp
  | polling ha' => exact ha ha'

end Sys2Proof.Proofs
end

section
/-! PROOFS of the scope's obligations of the completion commands: what the micro-step of SYNC.DEC, SYNC.WAIT, HALT and IDLE
does, said once, and their frame. -/

namespace Sys2Proof.Proofs

open Sys2Proof.Machine Sys2Proof.Laws

/-! ### The completion commands' micro-steps (R141 to R144) -/

/-- A completion command leads from `s`, where its engine `e` stands at a position, to a state. -/
inductive CompletionTo (s : State) (e : Engine) (q : Seq) : Instr → Pos → State → Prop
  | decrement {p : Pos} (hav : s.av = true) :
    CompletionTo s e q .syncDec p ({ s with active := s.active - 1 }.putCur e.complete)
  | unwritten {i : Instr} {p : Pos} (hi : i = .syncDec ∨ i = .syncWait ∧ p = .start) (hav : s.av = false) :
    CompletionTo s e q i p (s.putCur (e.raise (.uninitRead .active 0) q.cmd))
  | enterWait (hav : s.av = true) :
    CompletionTo s e q .syncWait .start (s.putCur ({ e with waiting := true }.moveTo q .polling))
  | polled (ha : s.active = 0) :
    CompletionTo s e q .syncWait .polling (s.putCur { e.complete with waiting := false })
  | halt {p : Pos} (ha : s.admits s.cfg.haltAddr = true) :
    CompletionTo s e q .halt p { s.setWord s.cfg.haltAddr s.cfg.haltValue with ghalt := true }
  | enterIdle : CompletionTo s e q .idle .start (s.putCur ({ e with idle := true }.moveTo q .idling))

section
variable {s t : State} {e : Engine} {q : Seq} {i : Instr}

/-- All a completion command's micro-step can do. -/
theorem completionTo_of_exec (hr : s.running e q) (hi : i = .syncDec ∨ i = .syncWait ∨ i = .halt ∨ i = .idle)
    (h : exec i s = .next t) : t = s ∨ CompletionTo s e q i q.pos t := by
  rcases hi with rfl | rfl | rfl | rfl <;> refine (act_next_running hr h).imp_right fun h => ?_
  · obtain ⟨hav, rfl⟩ | ⟨hav, rfl⟩ := decActive_some h
    · exact .unwritten (.inl rfl) hav
    · exact .decrement hav
  · generalize q.pos = p at h
    split at h
    case h_1 =>
      obtain ⟨hav, rfl⟩ | ⟨hav, rfl⟩ := enterWait_some h
      · exact .unwritten (.inr ⟨rfl, rfl⟩) hav
      · exact .enterWait hav
    case h_2 =>
      obtain ⟨ha, rfl⟩ := pollActive_some h
      exact .polled ha
    case h_3 => cases h
  · obtain ⟨ha, rfl⟩ := haltAll_some h
    exact .halt ha
  · generalize q.pos = p at h
    split at h
    case h_1 => cases h; exact .enterIdle
    case h_2 => cases h
end

/-- Settles O44: SYNC.WAIT's check, its hold and its completion. -/
theorem syncWaitHoldsUntilZero : Obligations.SyncWaitHoldsUntilZero := by
  refine ⟨by decide, fun s e q hr => ⟨fun hpos hav => ?_, fun hpos hav => ?_, fun hpos ha => ?_, fun hpos ha => ?_⟩⟩
  · refine (act_running hr _).trans ?_
    simp only [hpos, State.enterWait, hav]
    rfl
  · refine (act_running hr _).trans ?_
    simp only [hpos, State.enterWait, hav]
    rfl
  · refine act_stuck hr ?_
    simp only [hpos]
    exact if_neg ha
  · refine (act_running hr _).trans ?_
    simp only [hpos, State.pollActive, if_pos ha]
    rfl

/-- Settles O46: IDLE has a step at its start alone. -/
theorem idleHoldsUntilTheHalt : Obligations.IdleHoldsUntilTheHalt := by
  refine ⟨by decide, fun s e q hr => ⟨fun hpos => ?_, fun hpos => ?_⟩⟩
  · refine (act_running hr _).trans ?_
    simp only [hpos]
    rfl
  · exact act_stuck hr (by simp only [hpos])

/-! ### HALT (O45) -/

/-- In a halted block no command has a step (R39). -/
theorem exec_of_ghalt {s : State} (hs : s.engines ≠ []) (hg : s.ghalt = true) (i : Instr) : exec i s = .next s := by
  obtain ⟨t, ht, -⟩ := exec_answers_sameBlock i hs
  obtain rfl | ⟨-, -, ⟨-, -, hrun, -⟩, -⟩ := exec_leadsTo ht
  · exact ht
  · exact absurd (hg.symm.trans hrun) nofun

/-- STATUS shows HALTED at bit 10 (R31). -/
theorem getLsbD_status_halted (e : Engine) (halted : Bool) : (e.status halted).getLsbD 10 = halted := by
  obtain ⟨-, -, -, -, -, -, -, -, h, -⟩ := statusFieldsStandWhereTheTableSays.1 e halted
  exact h

/-- Settles O45: HALT's one event; from then on GHALT keeps every engine from a step. -/
theorem haltStopsEveryEngine : Obligations.HaltStopsEveryEngine := by
  refine ⟨by decide, fun s e q hr => ⟨fun ha => act_stuck hr (haltAll_of_not_admits ha), fun hw ha => ?_⟩⟩
  have hroom := aligned_room (admits_aligned ha)
  have hengines : s.engines ≠ [] := List.ne_nil_of_mem (List.mem_of_getElem? hr.1)
  have hword : (s.setWord s.cfg.haltAddr s.cfg.haltValue).wordAt s.cfg.haltAddr = s.cfg.haltValue :=
    wordAt_setWord_same _ hw hroom
  refine ⟨{ s.setWord s.cfg.haltAddr s.cfg.haltValue with ghalt := true }, ?_, rfl, hword,
    memKeptOutside_setWord _ hw hroom, rfl, rfl, rfl, fun c f hf => ?_,
    fun i k d => exec_of_ghalt (by exact hengines) rfl i⟩
  · refine (act_running hr _).trans ?_
    rw [State.haltAll, if_pos ha]
    rfl
  · rw [readData_readReg hf]
    exact getLsbD_status_halted f true

/-! ### The frame of the completion commands (O52) -/

/-- What a completion command's micro-step leaves of the engine, of memory and of the completion unit. -/
structure CompletionFrame (i : Instr) (s : State) (e : Engine) (t : State) (k : Engine) : Prop where
  lanes : e.lanesKept k
  cmd : k.lastCmd = e.lastCmd
  active : i ≠ .syncDec → t.active = s.active
  quiet : i ≠ .halt → t.ghalt = s.ghalt ∧ s.memKept t
  halt : i = .halt → s.memKeptOutside t s.cfg.haltAddr ∧ k = e
  idle : i ≠ .idle → k.idle = e.idle
  control : i = .idle → k.waiting = e.waiting ∧ k.fault = e.fault

theorem completionFrame_refl (i : Instr) (s : State) (e : Engine) : CompletionFrame i s e s e :=
  ⟨fun _ => rfl, rfl, fun _ => rfl, fun _ => ⟨rfl, fun _ => rfl⟩, fun _ => ⟨fun _ _ => rfl, rfl⟩, fun _ => rfl,
    fun _ => ⟨rfl, rfl⟩⟩

/-- A command other than HALT and IDLE that replaces its engine alone, ACTIVE apart, whose lanes, CMD and IDLE it
keeps. -/
theorem completionFrame_sync {i : Instr} (s : State) {e k : Engine} {a : Word} (hi : i = .syncDec ∨ i = .syncWait)
    (hlanes : e.lanesKept k) (hcmd : k.lastCmd = e.lastCmd) (hidle : k.idle = e.idle)
    (ha : i ≠ .syncDec → a = s.active) : CompletionFrame i s e ({ s with active := a }.putCur k) k where
  lanes := hlanes
  cmd := hcmd
  active := ha
  quiet _ := ⟨rfl, fun _ => rfl⟩
  halt h := by rcases hi with rfl | rfl <;> cases h
  idle _ := hidle
  control h := by rcases hi with rfl | rfl <;> cases h

theorem completionFrame_of_completionTo {i : Instr} {s t : State} {e : Engine} {q : Seq} {p : Pos} (hc : s.cur = some e)
    (hw : s.memWf) (h : CompletionTo s e q i p t) : ∃ k, t.cur = some k ∧ CompletionFrame i s e t k := by
  have hcur (k : Engine) : (s.putCur k).cur = some k := cur_putCur hc k
  cases h with
  | decrement =>
    exact ⟨_, cur_putCur_of_eq hc rfl rfl _, completionFrame_sync s (.inl rfl) (fun _ => rfl) rfl rfl (absurd rfl)⟩
  | unwritten hi =>
    exact ⟨_, hcur _, completionFrame_sync s (hi.imp_right And.left) (fun _ => rfl) rfl rfl fun _ => rfl⟩
  | enterWait => exact ⟨_, hcur _, completionFrame_sync s (.inr rfl) (fun _ => rfl) rfl rfl fun _ => rfl⟩
  | polled => exact ⟨_, hcur _, completionFrame_sync s (.inr rfl) (fun _ => rfl) rfl rfl fun _ => rfl⟩
  | halt ha =>
    exact ⟨e, hc, fun _ => rfl, rfl, fun _ => rfl, fun h => absurd rfl h,
      fun _ => ⟨memKeptOutside_setWord _ hw (aligned_room (admits_aligned ha)), rfl⟩, fun _ => rfl, nofun⟩
  | enterIdle =>
    exact ⟨_, hcur _, fun _ => rfl, rfl, fun _ => rfl, fun _ => ⟨rfl, fun _ => rfl⟩, nofun, fun h => absurd rfl h,
      fun _ => ⟨rfl, rfl⟩⟩

/-- Settles O52: the frame of the micro-step itself, with what every engine's micro-step leaves. -/
theorem completionCommandsFrame : Obligations.CompletionCommandsFrame := by
  intro i s t e e' q hr hw h he' hi
  obtain ⟨hcfg, hav, hturn, hscript, htick, hread, hothers⟩ := kept_of_exec h
  have frame : CompletionFrame i s e t e' := by
    obtain rfl | hto := completionTo_of_exec hr hi h
    · obtain rfl : e = e' := Option.some.inj (hr.1.symm.trans he')
      exact completionFrame_refl i t e
    · obtain ⟨k, hk, hframe⟩ := completionFrame_of_completionTo hr.1 hw hto
      obtain rfl : k = e' := Option.some.inj (hk.symm.trans he')
      exact hframe
  exact ⟨frame.lanes, hothers, frame.cmd, hcfg, hav, hturn, hscript, htick, hread, frame.active, frame.quiet,
    frame.halt, frame.idle, frame.control⟩

end Sys2Proof.Proofs
end

section
/-! PROOFS of the scope's obligation of the double hash a RUN leaves (O40): where the passes' windows lie, what memory
holds at each position of a RUN alone, and that some draws bring it to its completion. -/

namespace Sys2Proof.Proofs

open Sys2Proof.Machine Sys2Proof.Laws

/-! ### The windows of RUN's passes (R130, R131) -/

/-- Where the regions of context `c` begin (R130). -/
def contextBase (cfg : Config) (c : Nat) : Addr := cfg.base + BitVec.ofNat 32 (4096 * c)

/-- How far above it a pass reads (R131). -/
def passStart : Pass → Nat
  | .first => 0
  | .second => 1024

theorem inTable_eq_offset (cfg : Config) (c : Nat) (p : Pass) (l : LaneNo) :
    inTable cfg c p l = contextBase cfg c + BitVec.ofNat 32 (passStart p + 32 * l.val) := by
  have hoffset : passOffset p = BitVec.ofNat 32 (passStart p) := by cases p <;> rfl
  rw [inTable_eq, contextBase, hoffset, BitVec.ofNat_add, BitVec.add_comm (BitVec.ofNat 32 (passStart p)),
    ← BitVec.add_assoc]

theorem outTable_eq_offset (cfg : Config) (c : Nat) (p : Pass) (l : LaneNo) :
    outTable cfg c p l = contextBase cfg c + BitVec.ofNat 32 (passStart p + 1024 + 32 * l.val) := by
  rw [outTable_eq_inTable_add, inTable_eq_offset, Nat.add_right_comm, BitVec.ofNat_add _ 1024, BitVec.add_assoc]
  rfl

/-- Offsets below 2^32 from one address are told apart. -/
theorem offset_injective {o : Addr} {i j : Nat} (hi : i < 2 ^ 32) (hj : j < 2 ^ 32)
    (h : o + BitVec.ofNat 32 i = o + BitVec.ofNat 32 j) : i = j := by
  have hnat := congrArg BitVec.toNat (add_left_cancel h)
  rwa [BitVec.toNat_ofNat, BitVec.toNat_ofNat, Nat.mod_eq_of_lt hi, Nat.mod_eq_of_lt hj] at hnat

theorem inWindow_offset {x : Lane} {o a : Addr} {i n : Nat} (hx : x.inPtr = o + BitVec.ofNat 32 i)
    (h : x.inWindow n a) : ∃ k < 64 * n, a = o + BitVec.ofNat 32 (i + k) := by
  obtain ⟨b, k, hb, hk, rfl⟩ := h
  refine ⟨64 * b + k, by omega, ?_⟩
  rw [Lane.blkaddr, hx, Nat.mul_zero, BitVec.add_zero, BitVec.ofNat_add, BitVec.ofNat_add, BitVec.add_assoc,
    BitVec.add_assoc]

theorem outWindow_offset {x : Lane} {o a : Addr} {i : Nat} (hx : x.outPtr = o + BitVec.ofNat 32 i)
    (h : x.outWindow a) : ∃ k < 32, a = o + BitVec.ofNat 32 (i + k) := by
  obtain ⟨k, hk, rfl⟩ := h
  exact ⟨k, hk, by rw [hx, BitVec.ofNat_add, BitVec.add_assoc]⟩

/-- The lane's table entries are those of pass `p` for lane `l` of context `c` (R131). -/
structure OnTables (cfg : Config) (c : Nat) (p : Pass) (l : LaneNo) (x : Lane) : Prop where
  inPtr : x.inPtr = inTable cfg c p l
  outPtr : x.outPtr = outTable cfg c p l

section
variable {cfg : Config} {c : Nat} {p r : Pass} {l k : LaneNo} {x y : Lane} {a : Addr}

/-- The passes' output windows are apart, lane by lane. -/
theorem OnTables.outWindows_apart (hx : OnTables cfg c p l x) (hy : OnTables cfg c r k y) (ha : x.outWindow a)
    (hb : y.outWindow a) : p = r ∧ l = k := by
  obtain ⟨i, hi, rfl⟩ := outWindow_offset (hx.outPtr.trans (outTable_eq_offset ..)) ha
  obtain ⟨j, hj, heq⟩ := outWindow_offset (hy.outPtr.trans (outTable_eq_offset ..)) hb
  have hp : passStart p ≤ 1024 := by cases p <;> decide
  have hr : passStart r ≤ 1024 := by cases r <;> decide
  have hoffset := offset_injective (by omega) (by omega) heq
  cases p <;> cases r <;> simp only [passStart] at hoffset
  · exact ⟨rfl, Fin.ext (by omega)⟩
  · omega
  · omega
  · exact ⟨rfl, Fin.ext (by omega)⟩

/-- A pass writes where a pass reads only in that the first writes what the second reads. -/
theorem OnTables.inWindow_apart (hx : OnTables cfg c p l x) (hy : OnTables cfg c r k y) (ha : x.outWindow a)
    (hb : y.inWindow (passBlocks r) a) : p = .first ∧ r = .second := by
  obtain ⟨i, hi, rfl⟩ := outWindow_offset (hx.outPtr.trans (outTable_eq_offset ..)) ha
  obtain ⟨j, hj, heq⟩ := inWindow_offset (hy.inPtr.trans (inTable_eq_offset ..)) hb
  have hblocks : 64 * passBlocks r ≤ 256 := by cases r <;> decide
  have hp : passStart p ≤ 1024 := by cases p <;> decide
  have hr : passStart r ≤ 1024 := by cases r <;> decide
  have hoffset := offset_injective (by omega) (by omega) heq
  cases p <;> cases r <;> simp only [passStart] at hoffset
  · omega
  · exact ⟨rfl, rfl⟩
  · omega
  · omega

/-- The windows of one pass meet R125's premises. -/
theorem windowsApart_of_onTables {e : Engine} (h : ∀ l, OnTables cfg c p l (e.lane l)) :
    e.windowsApart (passBlocks p) := by
  refine fun l k hlk a ha => ⟨fun hb => hlk ((h l).outWindows_apart (h k) ha hb).2, fun hb => ?_⟩
  obtain ⟨hfirst, hsecond⟩ := (h l).inWindow_apart (h k) ha hb
  exact absurd (hfirst.symm.trans hsecond) nofun
end

/-! ### Words where memory is unchanged -/

/-- No byte stands beyond the 32-bit addresses. -/
theorem readByte_beyond (bg : Byte) {m : List Host.Cell} {lo a : Nat} (hw : Mem.wfFrom bg lo m = true)
    (ha : 2 ^ 32 ≤ a) : Mem.readByte bg m a = bg := by
  induction m generalizing lo with
  | nil => rfl
  | cons c rest ih =>
    obtain ⟨k, v⟩ := c
    obtain ⟨-, hk, -, hrest⟩ := wfFrom_cons.mp hw
    rw [readByte_cons_other (by omega)]
    exact ih hrest

section
variable {s t : State} (hcfg : t.cfg = s.cfg) (hs : s.memWf) (ht : t.memWf)
include hcfg hs ht

/-- A word whose four bytes are unchanged, modulo 2^32, is unchanged. -/
theorem wordAt_eq_of_bytes {a : Addr}
    (h : ∀ k < 4, t.readByte (a + BitVec.ofNat 32 k).toNat = s.readByte (a + BitVec.ofNat 32 k).toNat) :
    t.wordAt a = s.wordAt a := by
  have hbyte (k : Nat) (hk : k < 4) : t.readByte (a.toNat + k) = s.readByte (a.toNat + k) := by
    by_cases hlt : a.toNat + k < 2 ^ 32
    · have haddr : (a + BitVec.ofNat 32 k).toNat = a.toNat + k := by bv_omega
      exact haddr ▸ h k hk
    · rw [State.readByte, readByte_beyond _ ht (Nat.le_of_not_lt hlt), State.readByte,
        readByte_beyond _ hs (Nat.le_of_not_lt hlt), hcfg]
  rw [wordAt_eq_wordOfBytes, wordAt_eq_wordOfBytes, hcfg, hbyte 0 (by decide), hbyte 1 (by decide),
    hbyte 2 (by decide), hbyte 3 (by decide)]

/-- So is the digest of blocks in an unchanged input window. -/
theorem digestOf_eq_of_bytes {x : Lane} {n : Nat}
    (h : ∀ a, x.inWindow n a → t.readByte a.toNat = s.readByte a.toNat) : t.digestOf x n = s.digestOf x n := by
  have hblock (b : Nat) (hb : b < n) : t.blockAt x b = s.blockAt x b := by
    refine congrArg Vector.ofFn (funext fun j => wordAt_eq_of_bytes hcfg hs ht fun k hk => h _ ?_)
    refine ⟨b, 4 * j + k, hb, by omega, ?_⟩
    simp [Lane.blkaddr, BitVec.ofNat_add, BitVec.add_assoc]
  rw [State.digestOf, State.digestOf, State.blocksAt, State.blocksAt, hcfg,
    List.map_congr_left fun b hb => hblock b (List.mem_range.mp hb)]

/-- So is a digest word in an unchanged output window. -/
theorem digestWord_eq_of_bytes {x : Lane} (h : ∀ a, x.outWindow a → t.readByte a.toNat = s.readByte a.toNat)
    (j : Fin 8) : t.wordAt (x.digaddr j) = s.wordAt (x.digaddr j) :=
  wordAt_eq_of_bytes hcfg hs ht fun _ hk => h _ (outWindow_digaddr x j hk)
end

/-- A digest reads the lane's input pointer alone. -/
theorem digestOf_congr (s : State) {x y : Lane} (h : x.inPtr = y.inPtr) (n : Nat) : s.digestOf x n = s.digestOf y n := by
  have hblock : s.blockAt x = s.blockAt y := funext fun b => by simp only [State.blockAt, Lane.blkaddr, h]
  rw [State.digestOf, State.blocksAt, hblock, State.digestOf, State.blocksAt]

theorem digaddr_congr {x y : Lane} (h : x.outPtr = y.outPtr) (j : Nat) : x.digaddr j = y.digaddr j := by
  rw [Lane.digaddr, h, Lane.digaddr]

theorem outWindow_congr {x y : Lane} (h : x.outPtr = y.outPtr) (a : Addr) : x.outWindow a ↔ y.outWindow a := by
  rw [Lane.outWindow, h, Lane.outWindow]

/-! ### What memory holds in a RUN alone (R132, R137, R138) -/

/-- A lane with the table entries of pass `p` for lane `l` of the RUN in progress in `s`. -/
def runLane (s : State) (p : Pass) (l : LaneNo) : Lane :=
  { Lane.reset with inPtr := inTable s.cfg s.curIdx p l, outPtr := outTable s.cfg s.curIdx p l }

theorem onTables_runLane (s : State) (p : Pass) (l : LaneNo) : OnTables s.cfg s.curIdx p l (runLane s p l) := ⟨rfl, rfl⟩

/-- The engine's tables are those of pass `p` of the RUN in progress in `s`. -/
def HasTables (s : State) (p : Pass) (e : Engine) : Prop := ∀ l, OnTables s.cfg s.curIdx p l (e.lane l)

/-- In `t` the digest words of pass `p` are those of the blocks it reads as `u` holds them. -/
def PassDigests (s : State) (p : Pass) (u t : State) : Prop :=
  ∀ (l : LaneNo) (j : Fin 8),
    t.wordAt ((runLane s p l).digaddr j) = (u.digestOf (runLane s p l) (passBlocks p))[j]

/-- From `s` to `t` no byte outside the passes' output windows has changed. -/
structure RunFrame (s t : State) : Prop where
  cfg : t.cfg = s.cfg
  wf : t.memWf
  bytes : ∀ a : Addr, (∀ p l, ¬ (runLane s p l).outWindow a) → t.readByte a.toNat = s.readByte a.toNat

/-- Pass `p` of an iteration may begin in `t`: before the second the scratch words are the first pass's digests. -/
structure PassReady (s : State) (p : Pass) (t : State) : Prop extends RunFrame s t where
  scratch : p = .second → PassDigests s .first s t

/-- In `t`, where the engine is `e`, the passes are done. -/
structure RunDone (s t : State) (e : Engine) : Prop extends RunFrame s t where
  scratch : PassDigests s .first s t
  output : PassDigests s .second t t
  tables : HasTables s .second e

/-- What holds at a position of a RUN begun in `s` that has come to `t`, where the engine is `e`. -/
def RunInv (s t : State) (e : Engine) : Pos → Prop
  | .tableIn _ p => PassReady s p t
  | .tableOut _ p => PassReady s p t ∧ ∀ l, (e.lane l).inPtr = inTable s.cfg s.curIdx p l
  | .pass _ p b => ∃ u k, PassReady s p u ∧ HasTables s p k ∧ BodyInv u k (passBlocks p) t e b
  | .enterWait | .decrement => RunDone s t e
  | _ => True

section
variable {s t u v : State} {e k : Engine} {p : Pass}

theorem RunFrame.congr (h : RunFrame s t) (hcfg : u.cfg = t.cfg) (hmem : u.mem = t.mem) : RunFrame s u where
  cfg := hcfg.trans h.cfg
  wf := by rw [State.memWf, hcfg, hmem]; exact h.wf
  bytes a ha := by rw [State.readByte, hcfg, hmem]; exact h.bytes a ha

theorem PassDigests.congr (h : PassDigests s p v t) (hcfg : u.cfg = t.cfg) (hmem : u.mem = t.mem) :
    PassDigests s p v u := fun l j => by
  rw [State.wordAt, hcfg, hmem]
  exact h l j

theorem PassReady.congr (h : PassReady s p t) (hcfg : u.cfg = t.cfg) (hmem : u.mem = t.mem) : PassReady s p u :=
  ⟨h.toRunFrame.congr hcfg hmem, fun hp => (h.scratch hp).congr hcfg hmem⟩

/-- What holds at a position is of memory and the engine. -/
theorem RunInv.withDraw {q : Pos} (h : RunInv s t e q) (d : Draw) : RunInv s (withDraw t d) e q := by
  cases q with
  | tableIn it p => exact PassReady.congr h rfl rfl
  | tableOut it p => exact ⟨h.1.congr rfl rfl, h.2⟩
  | pass it p b =>
    obtain ⟨u, k, hready, htables, hbody⟩ := h
    exact ⟨u, k, hready, htables, hbody.congr rfl rfl (fun _ => rfl) (controlKept_refl e)⟩
  | enterWait | decrement =>
    obtain ⟨hframe, hscratch, houtput, htables⟩ := h
    exact ⟨hframe.congr rfl rfl, hscratch, houtput, htables⟩
  | _ => trivial

theorem RunFrame.refl (hw : s.memWf) : RunFrame s s := ⟨rfl, hw, fun _ _ => rfl⟩

/-- A pass's output windows are the engine's. -/
theorem HasTables.outWindow_iff (h : HasTables s p e) (l : LaneNo) (a : Addr) :
    (e.lane l).outWindow a ↔ (runLane s p l).outWindow a :=
  outWindow_congr (h l).outPtr a

/-- A body keeps the tables. -/
theorem tables_of_bodyInv {n : Nat} {b : BodyPos} (htables : HasTables s p k) (h : BodyInv u k n t e b) :
    HasTables s p e := fun l => by
  obtain ⟨hin, hout⟩ := laneAt_tables u (k.lane l) n (lanePosOf b l)
  rw [← (h.lanes l).regs] at hin hout
  exact ⟨hin.trans (htables l).inPtr, hout.trans (htables l).outPtr⟩

section
variable {b : BodyPos} (htables : HasTables s p k) (h : BodyInv u k (passBlocks p) t e b)
include htables h

/-- Inside a pass no byte outside its output windows changes. -/
theorem bytes_of_bodyInv (a : Addr) (ha : ∀ l, ¬ (runLane s p l).outWindow a) :
    t.readByte a.toNat = u.readByte a.toNat :=
  h.frame a fun l hl => ha l ((htables.outWindow_iff l a).mp hl)

theorem runFrame_of_bodyInv (hframe : RunFrame s u) : RunFrame s t where
  cfg := h.cfg.trans hframe.cfg
  wf := h.wf
  bytes a ha := (bytes_of_bodyInv htables h a (ha p)).trans (hframe.bytes a ha)
end

/-- Once a pass's body has finished its digest words stand in memory. -/
theorem passDigests_of_bodyInv (htables : HasTables s p k) (h : BodyInv u k (passBlocks p) t e .finished) :
    PassDigests s p u t := fun l j => by
  have hin : (runLane s p l).inPtr = (k.lane l).inPtr := (htables l).inPtr.symm
  have hout : (runLane s p l).outPtr = (k.lane l).outPtr := (htables l).outPtr.symm
  rw [digestOf_congr u hin, digaddr_congr hout]
  exact ((h.lanes l).digest j j.isLt).2

/-- The first pass's blocks are the input as RUN found it. -/
theorem digestOf_first (hw : s.memWf) (h : RunFrame s u) (l : LaneNo) :
    u.digestOf (runLane s .first l) (passBlocks .first) = s.digestOf (runLane s .first l) (passBlocks .first) := by
  refine digestOf_eq_of_bytes h.cfg hw h.wf fun a ha => h.bytes a fun p k hk => ?_
  obtain ⟨-, hsecond⟩ := (onTables_runLane s p k).inWindow_apart (onTables_runLane s .first l) hk ha
  cases hsecond

/-- After the first pass the second may begin. -/
theorem passReady_second (hw : s.memWf) (hready : PassReady s .first u) (htables : HasTables s .first k)
    (h : BodyInv u k (passBlocks .first) t e .finished) : PassReady s .second t where
  toRunFrame := runFrame_of_bodyInv htables h hready.toRunFrame
  scratch _ l j := by rw [passDigests_of_bodyInv htables h l j, digestOf_first hw hready.toRunFrame l]

/-- After the second pass the double hash stands in memory: that pass changes neither the scratch words nor any byte of
the blocks it reads. -/
theorem runDone_of_second (hready : PassReady s .second u) (htables : HasTables s .second k)
    (h : BodyInv u k (passBlocks .second) t e .finished) : RunDone s t e where
  toRunFrame := runFrame_of_bodyInv htables h hready.toRunFrame
  scratch l j := by
    rw [← hready.scratch rfl l j]
    refine digestWord_eq_of_bytes h.cfg hready.wf h.wf (fun a ha => bytes_of_bodyInv htables h a fun i hi => ?_) j
    obtain ⟨hpass, -⟩ := (onTables_runLane s .first l).outWindows_apart (onTables_runLane s .second i) ha hi
    cases hpass
  output l j := by
    rw [passDigests_of_bodyInv htables h l j]
    refine congrArg (·[j]) (digestOf_eq_of_bytes h.cfg hready.wf h.wf fun a ha => ?_).symm
    refine bytes_of_bodyInv htables h a fun i hi => ?_
    obtain ⟨hpass, -⟩ := (onTables_runLane s .second i).inWindow_apart (onTables_runLane s .second l) hi ha
    cases hpass
  tables := tables_of_bodyInv htables h
end

/-! ### A RUN alone keeps it (O40) -/

/-- In `t`, where the current engine is `e`, the RUN begun in `s` goes on, or is past its passes. -/
structure InRun (s t : State) (e : Engine) : Prop where
  cur : t.cur = some e
  cfg : t.cfg = s.cfg
  idx : t.curIdx = s.curIdx
  inv : ∀ q, e.seq = some q → RunInv s t e q.pos.runPos

/-- The digest words of both passes stand away from HALT_ADDR. -/
def RunPortApart (s : State) : Prop :=
  ∀ (p : Pass) (l : LaneNo) (j : Fin 8), (runLane s p l).digaddr j ≠ s.cfg.haltAddr

section
variable {st : Strategy} {s t u v : State} {e k : Engine} {q : Seq} {p : Pass}

theorem haltPortApart_of_hasTables (hport : RunPortApart s) (hcfg : t.cfg = s.cfg) (h : HasTables s p e) :
    t.haltPortApart e := fun l j => by
  have hout : (e.lane l).outPtr = (runLane s p l).outPtr := (h l).outPtr
  rw [digaddr_congr hout, hcfg]
  exact hport p l j

/-- Moving on changes neither memory nor lanes. -/
theorem bodyInv_moveTo {n : Nat} {b : BodyPos} (h : BodyInv u k n t e b) (q : Seq) (r : Pos) :
    BodyInv u k n (t.putCur (e.moveTo q r)) (e.moveTo q r) b :=
  h.congr rfl rfl (fun _ => rfl) (controlKept_refl e)

/-- RUN's two table steps set a pass's tables. -/
theorem hasTables_mapLanes_outPtr (hcfg : t.cfg = s.cfg) (h : ∀ l, (e.lane l).inPtr = inTable s.cfg s.curIdx p l) :
    HasTables s p (e.mapLanes fun l x => { x with outPtr := outTable t.cfg s.curIdx p l }) := fun l => by
  rw [lane_mapLanes, hcfg]
  exact ⟨h l, rfl⟩

theorem hasTables_moveTo (h : HasTables s p e) (q : Seq) (r : Pos) : HasTables s p (e.moveTo q r) := h

/-- What holds after a pass, at the position that comes then (R132, R136). -/
theorem runInv_afterPass {c : Nat} (it : Fin 4) (hw : s.memWf) (hready : PassReady s p u) (htables : HasTables s p k)
    (h : BodyInv u k (passBlocks p) t e .finished) : RunInv s t e (afterPass c it p).runPos := by
  cases p with
  | first => exact passReady_second hw hready htables h
  | second =>
    have done := runDone_of_second hready htables h
    simp only [afterPass]
    cases nextIndex it with
    | some it => exact ⟨done.toRunFrame, nofun⟩
    | none =>
      simp only [Option.map_none, Option.getD_none, completionPos]
      split <;> exact done

/-- What holds at the position an engine has moved to. -/
theorem runInv_moveTo {r : Pos} (h : RunInv s v (k.moveTo q r) r.runPos) :
    ∀ q', (k.moveTo q r).seq = some q' → RunInv s v (k.moveTo q r) q'.pos.runPos := by
  rintro _ ⟨⟩
  exact h

/-- A RUN's micro-step leads from what holds at its position to what holds at the next. -/
theorem runInv_runTo (hw : s.memWf) (hport : RunPortApart s) (hc : t.cur = some e) (hcfg : t.cfg = s.cfg)
    (hidx : t.curIdx = s.curIdx) (h : RunInv s t e q.pos.runPos) (ht : RunTo st t.curIdx t e q q.pos.runPos v)
    (hq : e.seq = some q) : ∃ k, v.cur = some k ∧ ∀ r, k.seq = some r → RunInv s v k r.pos.runPos := by
  have hcur (k : Engine) : (t.putCur k).cur = some k := cur_putCur hc k
  rw [hidx] at ht
  generalize hp : q.pos.runPos = r at h ht
  cases ht with
  | tableIn it p =>
    refine ⟨_, hcur _, runInv_moveTo ⟨h.congr rfl rfl, fun l => ?_⟩⟩
    rw [lane_moveTo, lane_mapLanes, hcfg]
  | tableOut it p =>
    obtain ⟨hready, hin⟩ := h
    have htables := hasTables_mapLanes_outPtr hcfg hin
    exact ⟨_, hcur _, runInv_moveTo ⟨t, _, hready, htables, bodyInv_moveTo (bodyInv_start hready.wf _ _ st) ..⟩⟩
  | @body it p b m hb hm =>
    obtain ⟨u, k, hready, htables, hbody⟩ := h
    obtain ⟨heng, hturn, -⟩ := bodyMicro_engines hm
    have hstep := hbody.step (windowsApart_of_onTables htables)
      (haltPortApart_of_hasTables hport hready.cfg htables) hm
    exact ⟨_, cur_putCur_of_eq hc heng hturn _, runInv_moveTo ⟨u, k, hready, htables, bodyInv_moveTo hstep ..⟩⟩
  | passEnd it p =>
    obtain ⟨u, k, hready, htables, hbody⟩ := h
    exact ⟨_, hcur _, runInv_moveTo (runInv_afterPass it hw hready htables (bodyInv_moveTo hbody ..))⟩
  | decrement => exact ⟨_, cur_putCur_of_eq hc rfl rfl _, runInv_moveTo trivial⟩
  | enterIdle | enterWait => exact ⟨_, hcur _, runInv_moveTo trivial⟩
  | polling => exact ⟨_, hcur _, runInv_moveTo (k := { e with waiting := false }) trivial⟩
  | unwritten => exact ⟨_, hcur _, nofun⟩
  | halting =>
    refine ⟨e, hc, fun r hr => ?_⟩
    obtain rfl : q = r := Option.some.inj (hq.symm.trans hr)
    rw [hp]
    trivial

/-- So a RUN alone keeps it. -/
theorem InRun.step (hw : s.memWf) (hport : RunPortApart s) (h : InRun s t e) (hexec : exec (runInstr st) t = .next v) :
    ∃ k, InRun s v k := by
  obtain ⟨hcfg, -, hturn, -, -, -, hlen, -⟩ := kept_of_exec hexec
  rw [exec_runInstr] at hexec
  rcases act_next hexec with rfl | ⟨k, q, hc, hq, -, -, hstep⟩
  · exact ⟨e, h⟩
  obtain rfl : e = k := Option.some.inj (h.cur.symm.trans hc)
  obtain ⟨k, hk, hinv⟩ := runInv_runTo hw hport hc h.cfg h.idx (h.inv q hq) (runTo_of_runStep hstep) hq
  exact ⟨k, hk, hcfg.trans h.cfg, (curIdx_congr hlen hturn).trans h.idx, hinv⟩

theorem InRun.turns (hw : s.memWf) (hport : RunPortApart s) {ds : List Draw} (h : InRun s t e)
    (hturns : turns (runInstr st) ds t = .next v) : ∃ k, InRun s v k := by
  induction ds generalizing t e with
  | nil =>
    cases hturns
    exact ⟨e, h⟩
  | cons d ds ih =>
    rw [Machine.turns] at hturns
    split at hturns
    case h_1 u hexec =>
      have hdraw : InRun s (withDraw t d) e := ⟨h.cur, h.cfg, h.idx, fun q hq => (h.inv q hq).withDraw d⟩
      obtain ⟨k, hk⟩ := hdraw.step hw hport hexec
      exact ih hk hturns
    case h_2 => cases hturns
    case h_3 => cases hturns

/-- Where it has come to its completion, the double hash stands in memory. -/
theorem runDone_of_turns {ds : List Draw} (hr : s.running e q) (hpos : q.pos = .start) (hw : s.memWf)
    (hport : RunPortApart s) (hturns : Machine.turns (runInstr st) ds s = .next t) (hcur : t.cur = some k)
    (hk : k.pos? = some (completionPos s.curIdx)) : RunDone s t k := by
  have start : InRun s s e := by
    refine ⟨hr.1, rfl, rfl, fun q' hq' => ?_⟩
    obtain rfl : q = q' := Option.some.inj (hr.2.1.symm.trans hq')
    rw [hpos]
    exact ⟨RunFrame.refl hw, nofun⟩
  obtain ⟨k', hk'⟩ := start.turns hw hport hturns
  obtain rfl : k = k' := Option.some.inj (hcur.symm.trans hk'.cur)
  obtain ⟨r, hseq, hr⟩ := Option.map_eq_some_iff.mp hk
  have hinv := hk'.inv r hseq
  rw [hr, completionPos] at hinv
  split at hinv <;> exact hinv
end

/-! ### A RUN comes to its completion (O40) -/

/-- Some draws bring the engine, running its RUN alone from `t`, to a state of which `Q` holds. -/
def Reaches (st : Strategy) (Q : State → Prop) (t : State) : Prop :=
  ∃ ds u, turns (runInstr st) ds t = .next u ∧ Q u

/-- In `t` the current engine is at position `p` of the RUN begun in `s`. -/
structure RunAt (s : State) (p : Pos) (t : State) (e : Engine) (q : Seq) : Prop where
  running : t.running e q
  pos : q.pos.runPos = p
  cfg : t.cfg = s.cfg
  idx : t.curIdx = s.curIdx

/-- RUN's completion is none of its beginning. -/
theorem runPos_completionPos (c : Nat) :
    (completionPos c).runPos = completionPos c ∧ completionPos c ≠ .tableIn 0 .first := by
  unfold completionPos
  split <;> exact ⟨rfl, nofun⟩

/-- Memory admits every word of the regions of the RUN begun in `s`. -/
def AdmitsRun (s : State) : Prop := ∀ k < 768, s.admits (contextBase s.cfg s.curIdx + BitVec.ofNat 32 (4 * k)) = true

section
variable {st : Strategy} {s t u v : State} {e k : Engine} {q : Seq} {p : Pass} {Q : State → Prop}

theorem Reaches.step {d : Draw} (hexec : exec (runInstr st) (withDraw t d) = .next u) (h : Reaches st Q u) :
    Reaches st Q t := by
  obtain ⟨ds, v, hturns, hv⟩ := h
  exact ⟨d :: ds, v, (turns_cons hexec ds).trans hturns, hv⟩

/-- Memory admits the accesses of both passes. -/
theorem admitsProcess_of_hasTables (hadm : AdmitsRun s) (hcfg : t.cfg = s.cfg) (h : HasTables s p e) :
    t.admitsProcess e (passBlocks p) := by
  have admitted {a : Addr} {i : Nat} (ha : a = contextBase s.cfg s.curIdx + BitVec.ofNat 32 i) (hi : i < 3072)
      (hal : i % 4 = 0) : t.admits a = true := by
    have := hadm (i / 4) (by omega)
    rwa [Nat.mul_div_cancel' (Nat.dvd_of_mod_eq_zero hal), ← ha, ← admits_congr hcfg] at this
  have hstart : passStart p ≤ 1024 ∧ passStart p % 4 = 0 := by cases p <;> decide
  have hblocks : passBlocks p ≤ 4 := by cases p <;> decide
  obtain ⟨hmax, hmod⟩ := hstart
  refine fun l => ⟨fun b j hb => admitted (i := passStart p + 32 * l.val + 64 * b + 4 * j) ?_ (by omega) (by omega),
    fun j => admitted (i := passStart p + 1024 + 32 * l.val + 4 * j) ?_ (by omega) (by omega)⟩
  · rw [Lane.blkaddr, (h l).inPtr, inTable_eq_offset, BitVec.ofNat_add _ (4 * _), BitVec.ofNat_add _ (64 * _),
      BitVec.add_assoc, BitVec.add_assoc, BitVec.add_assoc]
  · rw [Lane.digaddr, (h l).outPtr, outTable_eq_offset, BitVec.ofNat_add _ (4 * _), BitVec.add_assoc]

/-- A micro-step that replaces the engine leads on from its new position. -/
theorem RunAt.reaches {r r' : Pos} (h : RunAt s r t e q) (hrun : RunTo st s.curIdx t e q r (t.putCur (k.moveTo q r')))
    (hk : k.fault = none)
    (hnext : RunAt s r'.runPos (t.putCur (k.moveTo q r')) (k.moveTo q r') { q with pos := r' } →
      Reaches st Q (t.putCur (k.moveTo q r'))) : Reaches st Q t := by
  obtain ⟨⟨hc, hq, hg, hf⟩, rfl, hcfg, hidx⟩ := h
  rw [← hidx] at hrun
  have hexec : exec (runInstr st) (withDraw t t.turn.draw) = .next (t.putCur (k.moveTo q r')) :=
    exec_runInstr_of_runTo ⟨hc, hq, hg, hf⟩ rfl hrun
  exact .step hexec (hnext ⟨⟨cur_putCur hc _, rfl, hg, hk⟩, rfl, hcfg, (putCur_curIdx ..).trans hidx⟩)

variable (hadm : AdmitsRun s) (hport : RunPortApart s)
include hadm hport

/-- Inside a pass, if the position after it leads on. -/
theorem reaches_of_pass {it : Fin 4}
    (hnext : ∀ u e q, RunAt s (afterPass s.curIdx it p).runPos u e q → Reaches st Q u) {b : BodyPos}
    (h : RunAt s (.pass it p b) t e q) (htables : HasTables s p e) (hfit : b.fits st (passBlocks p) = true) :
    Reaches st Q t := by
  induction hk : bodyLeft (passBlocks p) b using Nat.strong_induction_on generalizing t e q b with
  | _ n ih =>
    by_cases hb : b = .finished
    · subst hb
      obtain ⟨-, -, -, hfault⟩ := h.running
      exact h.reaches (.passEnd it p) hfault (hnext _ _ _)
    · have happart := haltPortApart_of_hasTables hport h.cfg htables
      obtain ⟨d, m, hm, hmfit, hlt⟩ :=
        bodyMicro_advances (admitsProcess_of_hasTables hadm h.cfg htables) happart hfit hb
      obtain ⟨hcfg, hghalt⟩ := bodyMicro_cfg_ghalt (s := withDraw t d) happart hm
      obtain ⟨heng, hturn, -⟩ := bodyMicro_engines hm
      obtain ⟨-, hfault, -, -⟩ := bodyMicro_controlKept hm
      have hexec : exec (runInstr st) (withDraw t d) = .next (m.state.putCur (m.engine.moveTo q (.pass it p m.pos))) :=
        exec_runInstr_of_runTo (s := withDraw t d) (p := q.pos) h.running rfl (by rw [h.pos]; exact .body it hb hm)
      obtain ⟨hc, -, hg, hf⟩ := h.running
      refine .step hexec (ih _ (hk ▸ hlt) (e := m.engine.moveTo q (.pass it p m.pos))
        (q := { q with pos := .pass it p m.pos }) ?_ ?_ hmfit rfl)
      · exact {
          running := ⟨cur_putCur_of_eq (s := withDraw t d) hc heng hturn _, rfl, hghalt.trans hg, hfault.trans hf⟩
          pos := rfl
          cfg := hcfg.trans h.cfg
          idx := by rw [putCur_curIdx, State.curIdx, heng, hturn]; exact h.idx }
      · intro l
        obtain ⟨hin, hout⟩ := bodyMicro_tablesKept hm l
        exact ⟨hin.trans (htables l).inPtr, hout.trans (htables l).outPtr⟩

/-- From a pass's first table on. -/
theorem reaches_of_tableIn {it : Fin 4}
    (hnext : ∀ u e q, RunAt s (afterPass s.curIdx it p).runPos u e q → Reaches st Q u)
    (h : RunAt s (.tableIn it p) t e q) : Reaches st Q t := by
  obtain ⟨-, -, -, hfault⟩ := h.running
  refine h.reaches (.tableIn it p) (by rw [mapLanes_fault, hfault]) fun hout => ?_
  obtain ⟨-, -, -, hfault⟩ := hout.running
  refine hout.reaches (.tableOut it p) (by rw [mapLanes_fault, hfault]) fun hpass => ?_
  refine reaches_of_pass hadm hport hnext hpass
    (hasTables_moveTo (hasTables_mapLanes_outPtr hout.cfg fun l => ?_) _ _) (by cases st <;> rfl)
  rw [lane_moveTo, lane_mapLanes, h.cfg]

/-- From an iteration's first pass on. -/
theorem reaches_of_iteration {it : Fin 4}
    (hnext : ∀ u e q, RunAt s (afterPass s.curIdx it .second).runPos u e q → Reaches st Q u)
    (h : RunAt s (.tableIn it .first) t e q) : Reaches st Q t :=
  reaches_of_tableIn (p := .first) hadm hport (fun _ _ _ hsecond => reaches_of_tableIn hadm hport hnext hsecond) h

/-- From an iteration on the engine comes to its completion. -/
theorem reaches_completion {it : Fin 4} (h : RunAt s (.tableIn it .first) t e q) :
    Reaches st (fun u => ∃ k, u.cur = some k ∧ k.pos? = some (completionPos s.curIdx)) t := by
  induction hn : 3 - it.val generalizing it t e q with
  | zero =>
    refine reaches_of_iteration hadm hport (fun u k r hlast => ?_) h
    rw [afterPass_second, dif_neg (by omega)] at hlast
    obtain ⟨⟨hc, hq, -, -⟩, hpos, -, -⟩ := hlast
    have hcompletion := pos_eq_of_runPos (hpos.trans (runPos_completionPos s.curIdx).1) (runPos_completionPos _).2
    exact ⟨[], u, rfl, k, hc, (pos?_of_seq hq).trans (congrArg some hcompletion)⟩
  | succ n ih =>
    refine reaches_of_iteration hadm hport (fun u k r hnext => ?_) h
    rw [afterPass_second, dif_pos (by omega)] at hnext
    exact ih hnext (by simp only; omega)
end

/-- Settles O40: some draws lead through the eight passes, and a RUN that has come to its completion has made them all;
each pass is a PROCESS's body. -/
theorem runLeavesDoubleHashes : Obligations.RunLeavesDoubleHashes := by
  intro st s e q hr hpos hw region lane completion hregion
  have hin (p : Pass) (r : Nat) (hp : passStart p = 1024 * r) (l : LaneNo) :
      inTable s.cfg s.curIdx p l = region r l := by
    rw [inTable_eq_offset, hp, contextBase, BitVec.add_assoc, ← BitVec.ofNat_add, ← Nat.add_assoc]
  have hout (p : Pass) (r : Nat) (hp : passStart p + 1024 = 1024 * r) (l : LaneNo) :
      outTable s.cfg s.curIdx p l = region r l := by
    rw [outTable_eq_offset, hp, contextBase, BitVec.add_assoc, ← BitVec.ofNat_add, ← Nat.add_assoc]
  have hport : RunPortApart s := fun p l j => by
    cases p with
    | first => rw [Lane.digaddr, runLane, hout .first 1 rfl]; exact (hregion l j).1
    | second => rw [Lane.digaddr, runLane, hout .second 2 rfl]; exact (hregion l j).2
  refine ⟨fun hadm => ?_, fun ds t e' hturns hcur he' => ?_⟩
  · have hadm' : AdmitsRun s := fun k hk => by
      rw [contextBase, BitVec.add_assoc, ← BitVec.ofNat_add]
      exact hadm k hk
    obtain ⟨ds, t, hturns, e', hcur, hcompletion⟩ :=
      reaches_completion (st := st) hadm' hport (it := 0) ⟨hr, by rw [hpos]; rfl, rfl, rfl⟩
    exact ⟨ds, t, e', hturns, hcur, hcompletion⟩
  · obtain ⟨hframe, hscratch, houtput, htables⟩ := runDone_of_turns hr hpos hw hport hturns hcur he'
    refine ⟨fun l j => ⟨?_, ?_⟩, fun a ha => hframe.bytes a fun p l hl => ?_, fun l => ⟨?_, ?_⟩⟩
    · rw [← hout .first 1 rfl l, ← digestOf_congr s (x := runLane s .first l) (y := lane 0 l) (hin .first 0 rfl l)]
      exact hscratch l j
    · rw [← hout .second 2 rfl l, ← digestOf_congr t (x := runLane s .second l) (y := lane 1 l) (hin .second 1 rfl l)]
      exact houtput l j
    · obtain ⟨k, hk, rfl⟩ := hl
      obtain ⟨hscratch, houtput⟩ := ha l k hk
      cases p with
      | first => exact hscratch (congrArg (· + _) (hout .first 1 rfl l))
      | second => exact houtput (congrArg (· + _) (hout .second 2 rfl l))
    · exact (htables l).inPtr.trans (hin .second 1 rfl l)
    · exact (htables l).outPtr.trans (hout .second 2 rfl l)

end Sys2Proof.Proofs
end
